-- ==== Sys2Proof/Word.lean ====
section
/-! DEFINITION. The machine words of CPE93: the byte of the bus and of the image buffer, and the 16-bit header word. -/

namespace Sys2Proof

/-- One 8-bit unit of the bus and of the image buffer (R11). -/
abbrev Byte := BitVec 8

/-- The 16-bit header value (R26, R91). -/
abbrev Word16 := BitVec 16

end Sys2Proof
end

