-- ==== Sys2Proof/Syntax.lean ====
section
/-! DEFINITION. The syntax of CPE93: the twelve command symbols of the command port with their operands (R23, R104),
and the syntax of what the engine puts on its bus port: transfers, chains and their answers (R14). -/

namespace Sys2Proof

/-- The requested access mode of FINALIZE: 8 or 16 bits (R33, R120). No other mode is in the operand's type (R125). -/
inductive AccessMode where
  | x8
  | x16
deriving DecidableEq, Repr, Inhabited

/-- The `organization_support` set in the encoding of R32: bit 0 for 8-bit, bit 1 for 16-bit organization. -/
abbrev OrgSup := BitVec 2

/-- A profile's name. A list of characters, so that the kernel evaluates the comparison of R122. -/
abbrev Name := List Char

/-- The instructions of CPE93: the command symbols of R23, one per mnemonic of the opcode table. -/
inductive Instr where
  /-- ENCODE `opcode, payload, dummy, a_eff` (R140). -/
  | encode (opcode payload dummy aEff : Nat)
  /-- READ `address, length` (R164). -/
  | read (address length : Nat)
  /-- WRITE `address, data` (R167). -/
  | write (address : Nat) (data : List Byte)
  /-- SPECIAL `opcode, subcode` (R168). -/
  | special (opcode subcode : Nat)
  /-- EWEN (R169). -/
  | ewen
  /-- EWDS (R170). -/
  | ewds
  /-- ERAL (R171). -/
  | eral
  /-- STATUS (R166). -/
  | status
  /-- FINALIZE `name?, size_bytes?, addr_bits?, organization_support?, mode` (R120). -/
  | finalize (name : Option Name) (sizeBytes addrBits : Option Nat) (orgSup : Option OrgSup) (mode : AccessMode)
  /-- READ_ARRAY `burst` (R192). -/
  | readArray (burst : Bool)
  /-- WRITE_ARRAY (R197). -/
  | writeArray
  /-- ERASE_ARRAY (R206). -/
  | eraseArray
deriving DecidableEq, Repr, Inhabited

/-- One transfer of a chain (R14): what is transmitted, how many bytes are received, its length in units, the bits
per unit and the requested clock. -/
structure Transfer where
  tx    : Option (List Byte)
  rxLen : Nat
  len   : Nat
  bits  : Nat
  hz    : Nat
deriving DecidableEq, Repr, Inhabited

/-- A chain: the transfers performed in one assertion of the device-select signal (R14, R19). -/
abbrev Chain := List Transfer

/-- The cause a failed transfer carries, the parameter `CAUSE` (R8, R40). No rule inspects it; a number stands for it. -/
structure Cause where
  code : Nat
deriving DecidableEq, Repr, Inhabited

/-- The answer of the bus collaborator to a chain (R14): the received bytes, or a failure with its cause. -/
inductive BusAnswer where
  | ok (rx : List Byte)
  | fail (cause : Cause)
deriving DecidableEq, Repr, Inhabited

/-- One exchange at the bus port: the chain that was issued and the answer it got. -/
structure BusEvent where
  chain  : Chain
  answer : BusAnswer
deriving DecidableEq, Repr, Inhabited

/-- The value of the result port `RES` (R175): READ and ENCODE leave a byte sequence, STATUS one byte, the others the
token `success`. -/
inductive ResVal where
  | bytes (bs : List Byte)
  | byte (b : Byte)
  | success
deriving DecidableEq, Repr, Inhabited

end Sys2Proof
end

