-- ==== Sys2Proof/Config.lean ====
section
/-! DEFINITION. What the spec leaves to the implementation: the fixed constants of R5, the named parameters of R7 and
R8, and the free values (opaque constants: nothing in Lean can evaluate them). -/

namespace Sys2Proof.Config

/-- What address READ and WRITE put in the header in 16-bit mode (R8, R163). -/
inductive AddrUnit where
  | byteOffset
  | wordIndex
deriving DecidableEq, Repr, Inhabited

/-- One entry of the static catalog (R122): name, size, nominal address bits, supported organizations. -/
structure CatalogEntry where
  name      : Name
  sizeBytes : Nat
  addrBits  : Nat
  orgSup    : OrgSup
deriving DecidableEq, Repr, Inhabited

/-- The named parameters of R7 and R8. `CAUSE` is the type `Sys2Proof.Cause`. -/
structure Params where
  opcRead      : BitVec 2
  opcWrite     : BitVec 2
  subEwen      : BitVec 2
  subEwds      : BitVec 2
  subEral      : BitVec 2
  readPreshift : Bool
  addrUnitX16  : AddrUnit
  /-- `POLL_MAX`: `none` is `INF`. `some 0` is none of R8's values; what it does is the model's choice: TimedOut before
  any poll. DESIGN CHOICE, log entry 33. -/
  pollMax      : Option Nat
  erasePoll    : Bool
  /-- `CATALOG`. R122 requires its names to be distinct after case folding; a list in which they are not is refused at
  every lookup (log entry 26). -/
  catalog      : List CatalogEntry
  /-- `MAX_XFER`: `none` is `INF`. `some 0` is none of R8's values; what it does is the model's choice: no transfer can
  be performed. DESIGN CHOICE, log entry 33. -/
  maxXfer      : Option Nat
deriving DecidableEq, Repr, Inhabited

/-- `OPC_CTRL`, the control-group opcode (R5). -/
def opcCtrl : Nat := 0

/-- `START_MARKER` (R5). -/
def startMarker : Nat := 4

/-- `READ_DUMMY` (R5). -/
def readDummy : Nat := 1

/-- `WRITE_DUMMY` (R5). -/
def writeDummy : Nat := 0

/-- `SPECIAL_DUMMY` (R5). -/
def specialDummy : Nat := 0

/-- `READY_BYTE` (R5). -/
def readyByte : Byte := 0xFF

/-- `BITS_PER_UNIT` (R5). -/
def bitsPerUnit : Nat := 8

/-- `CLOCK_HZ` (R5). -/
def clockHz : Nat := 100000

/-- `ADDR_BITS_MIN` (R5). -/
def addrBitsMin : Nat := 5

/-- `ADDR_BITS_MAX` (R5). -/
def addrBitsMax : Nat := 9

/-- `ENC_BITS_MAX` (R5). -/
def encBitsMax : Nat := 13

/-- `HEADER_BYTES` (R5). -/
def headerBytes : Nat := 2

/-- FREE: the contents of the catalog, the open parameter `CATALOG` (R4, R122). DESIGN CHOICE, log entry 4. -/
opaque catalog : List CatalogEntry

/-- The parameters the machine has at reset: the spec's defaults (R7, R8), an open catalog, and no transfer limit of
the collaborator's. PRESUMED for the five codes (the family's, log entry 3); DESIGN CHOICE for `maxXfer` (log entry 5). -/
def params : Params where
  opcRead      := 0b10#2
  opcWrite     := 0b01#2
  subEwen      := 0b11#2
  subEwds      := 0b00#2
  subEral      := 0b10#2
  readPreshift := false
  addrUnitX16  := .byteOffset
  pollMax      := none
  erasePoll    := false
  catalog      := catalog
  maxXfer      := none

/-- FREE: what the bus collaborator and the device answer to a chain, given all that went before it on the bus: the
oracle of R80. -/
opaque busAnswer : List BusEvent → Chain → BusAnswer

/-- FREE: the cause of the failure with which the collaborator answers a transfer above `MAX_XFER` (R257). -/
opaque limitCause : List BusEvent → Chain → Cause

/-- FREE: a byte the device drives where a scripted answer names fewer bytes than were asked for (R256 duty (b)). -/
opaque freeByte : List BusEvent → Nat → Byte

/-- FREE: `ST.CAUSE` while it is unspecified (R40, R47). -/
opaque unspecCause : Nat → Cause

/-- FREE: `RES` while it is unspecified (R47, R175). -/
opaque unspecRes : Nat → ResVal

/-- FREE: `CFG.SIZE_BYTES` after a reset (R47). -/
opaque unspecSize : Nat → Nat

/-- FREE: `CFG.ADDR_BITS` after a reset (R47). -/
opaque unspecAddrBits : Nat → BitVec 4

/-- FREE: `CFG.ORG_SUP` after a reset (R47). -/
opaque unspecOrgSup : Nat → OrgSup

/-- FREE: `CFG.ORG16` after a reset (R47). -/
opaque unspecOrg16 : Nat → Bool

/-- FREE: `CFG.A_EFF` after a reset (R47). -/
opaque unspecAEff : Nat → BitVec 4

/-- FREE: `W.HDR` after a reset (R47). -/
opaque unspecHdr : Nat → Word16

/-- FREE: `W.STATUS` after a reset, any byte but `0xFF` (R47 says of it: in particular not `0xFF`). -/
opaque unspecStatus : Nat → Fin 255

end Sys2Proof.Config
end

