-- ==== Sys2Proof/WellFormed.lean ====
section
/-! DEFINITION. Well-formed instructions: the operand conditions outside which the spec gives an instruction no meaning
whatever the state. -/

namespace Sys2Proof

/-- The operand conditions of R145 (ENCODE's domain), R174 (no zero-length data) and R168 with D33 (SPECIAL's 2-bit
opcode). FINALIZE checks its operands itself and raises (R120). -/
def wellFormed : Instr → Bool
  | .encode opcode _ dummy aEff => decide (opcode < 4) && decide (aEff + dummy ≤ Config.encBitsMax)
  | .read _ length => decide (1 ≤ length)
  | .write _ data => decide (1 ≤ data.length)
  | .special opcode _ => decide (opcode < 4)
  | .ewen => true
  | .ewds => true
  | .eral => true
  | .status => true
  | .finalize _ _ _ _ _ => true
  | .readArray _ => true
  | .writeArray => true
  | .eraseArray => true

end Sys2Proof
end

