-- ==== Sys2Proof/Decode.lean ====
section
/-! DEFINITION. The encodings: the header frame H16 (R90 to R92), the transaction shapes (R94), reading a header and a
chain back (R103), and, after the decoders, the encoder of every instruction that has an encoding. -/

namespace Sys2Proof

open Config

/-- `mask(n)` (R10). -/
def mask (n : Nat) : Nat := 2 ^ n - 1

/-- The value ENCODE composes: `(prefix << bits) | (payload & mask(bits))` with `prefix = opcode | 0b100` (R141). -/
def headerValue (opcode payload bits : Nat) : Nat :=
  ((opcode ||| startMarker) <<< bits) ||| (payload &&& mask bits)

/-- `be16` (R11, R60): the big-endian serialisation, bits 15 to 8 first. -/
def be16 (v : Nat) : List Byte := [BitVec.ofNat 8 (v / 256), BitVec.ofNat 8 v]

/-- The value two bytes stand for, the first the more significant (R60). -/
def beValue (hi lo : Byte) : Nat := hi.toNat * 256 + lo.toNat

/-- The reasons for which bytes or a chain are no instruction's encoding. -/
inductive DecodeError where
  /-- A header is exactly two bytes (R90). -/
  | headerLength
  /-- No bit of the value above bit 1 is set, so there is no `START` bit with two opcode bits below it (R103). -/
  | noStartMarker
  /-- The prefix stands at a place no primitive puts it for this `A_EFF` (R103: dummy other than 0 or 1). -/
  | prefixPosition
  /-- A READ or WRITE shape whose opcode is not that command's (R98). -/
  | opcodeOfShape
  /-- A header-only chain whose payload bits below the subcode are not zero (R72, R96). -/
  | payloadBelowSubcode
  /-- A chain that is none of the four shapes of R94. -/
  | shape
deriving DecidableEq, Repr

/-- The highest set bit of `v` among the bits below `n`. -/
def topBit : Nat → Nat → Option Nat
  | 0, _ => none
  | n + 1, v => if v.testBit n then some n else topBit n v

/-- A header read back: the opcode, the payload's width and the payload (R103). -/
structure H16 where
  opcode  : Nat
  bits    : Nat
  payload : Nat
deriving DecidableEq, Repr

/-- R103: with `k` the highest set bit, `bits = k - 2`, `opcode = v[k-1:k-2]`, `payload = v[k-3:0]`. -/
def decodeH16 (v : Nat) : Except DecodeError H16 :=
  match topBit 16 v with
  | some (k + 2) => .ok { opcode := v / 2 ^ k % 4, bits := k, payload := v % 2 ^ k }
  | _ => .error .noStartMarker

/-- A header's two bytes read back (R60, R103). -/
def decodeHeaderBytes : List Byte → Except DecodeError H16
  | [hi, lo] => decodeH16 (beValue hi lo)
  | _ => .error .headerLength

/-! ### Transfers and shapes -/

/-- A transmit-only transfer of `data` (R161). -/
def txTransfer (data : List Byte) : Transfer :=
  { tx := some data, rxLen := 0, len := data.length, bits := bitsPerUnit, hz := clockHz }

/-- A receive-only transfer of `n` bytes (R161). -/
def rxTransfer (n : Nat) : Transfer :=
  { tx := none, rxLen := n, len := n, bits := bitsPerUnit, hz := clockHz }

/-- Shape `T_H` (R94). -/
def chainH (v : Nat) : Chain := [txTransfer (be16 v)]

/-- Shape `T_HW` (R94). -/
def chainHW (v : Nat) (data : List Byte) : Chain := [txTransfer (be16 v), txTransfer data]

/-- Shape `T_HR` (R94). -/
def chainHR (v n : Nat) : Chain := [txTransfer (be16 v), rxTransfer n]

/-- Shape `T_R`, one byte (R94, R166). -/
def chainR : Chain := [rxTransfer 1]

/-! ### Operand assembly (R95, R96) -/

/-- The unit-address function (R163). -/
def unitAddr (p : Params) (org16 : Bool) (address : Nat) : Nat :=
  if org16 && decide (p.addrUnitX16 = .wordIndex) then address >>> 1 else address

/-- READ's payload: the unit address shifted by `READ_PRESHIFT` (R164, R165). -/
def readPayload (p : Params) (org16 : Bool) (address : Nat) : Nat :=
  unitAddr p org16 address <<< (if p.readPreshift then 1 else 0)

/-- SPECIAL's payload (R96, R168). -/
def specialPayload (aEff subcode : Nat) : Nat := subcode <<< (aEff - 2)

/-- READ's header value (R164). -/
def readHeader (p : Params) (org16 : Bool) (aEff address : Nat) : Nat :=
  headerValue p.opcRead.toNat (readPayload p org16 address) (aEff + readDummy)

/-- WRITE's header value (R167). -/
def writeHeader (p : Params) (org16 : Bool) (aEff address : Nat) : Nat :=
  headerValue p.opcWrite.toNat (unitAddr p org16 address) (aEff + writeDummy)

/-- SPECIAL's header value (R168). -/
def specialHeader (aEff opcode subcode : Nat) : Nat :=
  headerValue opcode (specialPayload aEff subcode) (aEff + specialDummy)

/-! ### The decoders -/

/-- The byte offset whose unit address is `u`: the inverse of `unitAddr` (R163). -/
def offsetOfUnit (p : Params) (org16 : Bool) (u : Nat) : Nat :=
  if org16 && decide (p.addrUnitX16 = .wordIndex) then u <<< 1 else u

/-- READ's address from its payload (R95, R165). Under `READ_PRESHIFT = 1` payload bit 0, which R165 says is always 0 in
a header CPE93 sends, is dropped whatever it is: a header in which it is 1 reads back as the READ without it, and encoding
that READ does not give the header back. DESIGN CHOICE, log entry 34. -/
def readAddress (p : Params) (org16 : Bool) (payload : Nat) : Nat :=
  offsetOfUnit p org16 (payload >>> (if p.readPreshift then 1 else 0))

/-- A control header's instruction: the three wrappers before SPECIAL (R105; the order of 30_encoding.md). -/
def controlInstr (p : Params) (opcode subcode : Nat) : Instr :=
  if opcode = opcCtrl then
    if subcode = p.subEwen.toNat then .ewen
    else if subcode = p.subEwds.toNat then .ewds
    else if subcode = p.subEral.toNat then .eral
    else .special opcode subcode
  else .special opcode subcode

/-- The instruction of a `T_H` chain (R96, R105). -/
def decodeControl (p : Params) (aEff : Nat) (h : H16) : Except DecodeError Instr :=
  if h.bits ≠ aEff then .error .prefixPosition
  else if h.payload % 2 ^ (aEff - 2) ≠ 0 then .error .payloadBelowSubcode
  else .ok (controlInstr p h.opcode (h.payload / 2 ^ (aEff - 2)))

/-- The instruction of a `T_HW` chain (R95, R98). -/
def decodeWrite (p : Params) (org16 : Bool) (aEff : Nat) (h : H16) (data : List Byte) : Except DecodeError Instr :=
  if h.bits ≠ aEff + writeDummy then .error .prefixPosition
  else if h.opcode ≠ p.opcWrite.toNat then .error .opcodeOfShape
  else .ok (.write (offsetOfUnit p org16 h.payload) data)

/-- The instruction of a `T_HR` chain (R95, R98). A dummy bit of 1 under `READ_PRESHIFT = 1` is no refusal: log
entry 34. -/
def decodeRead (p : Params) (org16 : Bool) (aEff : Nat) (h : H16) (n : Nat) : Except DecodeError Instr :=
  if h.bits ≠ aEff + readDummy then .error .prefixPosition
  else if h.opcode ≠ p.opcRead.toNat then .error .opcodeOfShape
  else .ok (.read (readAddress p org16 h.payload) n)

/-- The primitive a chain belongs to, given the profile's `A_EFF` and mode (R94, R103): total, refusing by name. -/
def decodeChain (p : Params) (org16 : Bool) (aEff : Nat) (c : Chain) : Except DecodeError Instr :=
  match c with
  | [t] =>
    match t.tx with
    | none => if t = rxTransfer 1 then .ok .status else .error .shape
    | some bs =>
      if t = txTransfer bs then
        match decodeHeaderBytes bs with
        | .ok h => decodeControl p aEff h
        | .error e => .error e
      else .error .shape
  | [t, d] =>
    match t.tx with
    | none => .error .shape
    | some bs =>
      if t = txTransfer bs then
        match decodeHeaderBytes bs with
        | .error e => .error e
        | .ok h =>
          match d.tx with
          | some data =>
            if d = txTransfer data ∧ 1 ≤ data.length then decodeWrite p org16 aEff h data else .error .shape
          | none =>
            if d = rxTransfer d.len ∧ 1 ≤ d.len then decodeRead p org16 aEff h d.len else .error .shape
      else .error .shape
  | _ => .error .shape

/-- What a header alone says, with the `A_EFF` it was read for: the rows of the opcode table in the order
30_encoding.md gives (WRITE, READ, EWEN, EWDS, ERAL, SPECIAL), each at the one `A_EFF` from 4 to 9 that puts the
prefix where it stands, then ENCODE, of which every row is an instance. The data phase, to which the table gives no bits,
is the shortest the spec admits: one byte, zero where it is transmitted. DESIGN CHOICE, log entry 21. -/
def decodeHeaderAlone (p : Params) (h : H16) : Instr × Option Nat :=
  let encode : Instr × Option Nat := (.encode h.opcode h.payload 0 h.bits, none)
  if 4 ≤ h.bits ∧ h.bits ≤ 9 ∧ h.opcode = p.opcWrite.toNat then
    (.write (offsetOfUnit p false h.payload) [0], some h.bits)
  else if 5 ≤ h.bits ∧ h.bits ≤ 10 ∧ h.opcode = p.opcRead.toNat then
    (.read (readAddress p false h.payload) 1, some (h.bits - 1))
  else if 4 ≤ h.bits ∧ h.bits ≤ 9 then
    match decodeControl p h.bits h with
    | .ok i => (i, some h.bits)
    | .error _ => encode
  else encode

/-- The instruction read from `nbits` bits numbered as the opcode table numbers them, and the `A_EFF` of the row it
is read for. A header is 16 bits, two bytes, big-endian (R60, R90). -/
def decodeTable (nbits w : Nat) : Option (Instr × Option Nat) :=
  if nbits = 16 then
    match decodeHeaderBytes (be16 w) with
    | .ok h => some (decodeHeaderAlone Config.params h)
    | .error _ => none
  else none

/-- The instruction the decoder reads from a row of the opcode table (the host's fixed name). -/
def decodeTableWord (nbits w : Nat) : Option Instr := (decodeTable nbits w).map Prod.fst

/-! ### The encoder -/

/-- The chain a primitive puts on the bus under a profile (R94 to R99): the encoding of the instructions that have one
on the bus. FINALIZE and the three operations are command symbols without a binary code (R23); ENCODE causes no bus
traffic (R146), its two bytes are `encodeHeader`. -/
def encodeChain (p : Params) (org16 : Bool) (aEff : Nat) : Instr → Option Chain
  | .read a n => some (chainHR (readHeader p org16 aEff a) n)
  | .write a data => some (chainHW (writeHeader p org16 aEff a) data)
  | .special opcode subcode => some (chainH (specialHeader aEff opcode subcode))
  | .ewen => some (chainH (specialHeader aEff opcCtrl p.subEwen.toNat))
  | .ewds => some (chainH (specialHeader aEff opcCtrl p.subEwds.toNat))
  | .eral => some (chainH (specialHeader aEff opcCtrl p.subEral.toNat))
  | .status => some chainR
  | .encode _ _ _ _ => none
  | .finalize _ _ _ _ _ => none
  | .readArray _ => none
  | .writeArray => none
  | .eraseArray => none

/-- The header value of an instruction that has a header (R91, R98, R141). -/
def encodeHeader (p : Params) (org16 : Bool) (aEff : Nat) : Instr → Option Nat
  | .encode opcode payload dummy a => some (headerValue opcode payload (a + dummy))
  | .read a _ => some (readHeader p org16 aEff a)
  | .write a _ => some (writeHeader p org16 aEff a)
  | .special opcode subcode => some (specialHeader aEff opcode subcode)
  | .ewen => some (specialHeader aEff opcCtrl p.subEwen.toNat)
  | .ewds => some (specialHeader aEff opcCtrl p.subEwds.toNat)
  | .eral => some (specialHeader aEff opcCtrl p.subEral.toNat)
  | .status => none
  | .finalize _ _ _ _ _ => none
  | .readArray _ => none
  | .writeArray => none
  | .eraseArray => none

/-- The two bytes of an instruction that has a header (R60, R90). -/
def encode (p : Params) (org16 : Bool) (aEff : Nat) (i : Instr) : Option (List Byte) :=
  (encodeHeader p org16 aEff i).map be16

end Sys2Proof
end

