-- ==== Sys2Proof/Machine/State.lean ====
section
/-! DEFINITION. The state of CPE93 (the inventory of R22), the reasons a step stops, and the machine right after reset
(R47). -/

namespace Sys2Proof.Machine

open Sys2Proof Config

/-- The conditions of R230. -/
inductive Cond where
  | none
  | configurationConflict
  | unknownCatalogEntry
  | invalidGeometry
  | unsupportedMode
  | transferFailed
  | imageSizeMismatch
  | timedOut
deriving DecidableEq, Repr, Inhabited

/-- `ORCH.STATE` (R27). -/
inductive OrchState where
  | idle
  | reading
  | enabling
  | writing
  | waitingReady
  | erasing
  | done
deriving DecidableEq, Repr, Inhabited

/-- `ORCH.OP` (R28). -/
inductive OrchOp where
  | none
  | read
  | write
  | erase
  | finalize
  | prim
deriving DecidableEq, Repr, Inhabited

/-- The configuration group (R30 to R35). -/
structure Cfg where
  sizeBytes : Nat
  addrBits  : BitVec 4
  orgSup    : OrgSup
  org16     : Bool
  aEff      : BitVec 4
  finalized : Bool
deriving DecidableEq, Repr, Inhabited

/-- The status group (R37 to R41). -/
structure Status where
  busy     : Bool
  done     : Bool
  cond     : Cond
  cause    : Cause
  imgValid : Bool
deriving DecidableEq, Repr, Inhabited

/-- The working registers (R24 to R26). -/
structure Work where
  addr    : Nat
  idx     : Nat
  hdr     : Word16
  status  : Byte
  pollCnt : Nat
deriving DecidableEq, Repr, Inhabited

/-- The lines CPE93 drives at its bus port (R47, R172). -/
structure BusPins where
  sel : Bool
  sck : Bool
  di  : Bool
deriving DecidableEq, Repr, Inhabited

/-- The lines between chains: select deasserted, clock and data low (R47, R173). -/
def BusPins.idle : BusPins := { sel := false, sck := false, di := false }

/-- One action of the host (R20): a command at the command port (R23), an image buffer (R43), or an assertion of the
reset input (R270). -/
inductive HostAct where
  | command (i : Instr)
  | image (bs : List Byte)
  | assertReset
deriving DecidableEq, Repr, Inhabited

/-- The image buffer's bytes, in the canonical form of `Memory.wf`: addresses strictly rising, no byte equal to what an
unlisted address reads as. -/
abbrev Memory := List Host.Cell

/-- Why a step stops with a fault. -/
inductive Fault where
  /-- MemRead or MemWrite outside `IMG` (R13 requires `addr + n <= IMG_LEN`). Raised by the orchestrator's access in a
  state no run reaches (R66). Safe: the machine stops. -/
  | imgOutOfRange
  /-- A command is executing and `ORCH.STATE` with `ORCH.OP` has no row in R208. Raised by `advance` in a state no run
  reaches. Safe: the machine stops. -/
  | noTransition
deriving DecidableEq, Repr

/-- Why a step refuses: the situations to which the spec gives no meaning (R16). -/
inductive Refusal where
  /-- An instruction without a meaning in this model: raised by an arm of `exec`; there is none. Safe. -/
  | notModelled (mnemonic : String)
  /-- A command that needs the profile with `CFG.FINALIZED = 0` (R35, R162, R190): raised by every command with a
  header and by the three operations. Safe. -/
  | notFinalized
  /-- ENCODE outside `opcode < 4` and `a_eff + dummy <= 13` (R145): raised by ENCODE, by SPECIAL on its opcode operand,
  and, in states no run reaches, by any command with a header. Safe. -/
  | encodeDomain
  /-- READ of length 0 or WRITE of no data (R174). Safe. -/
  | zeroLength
  /-- READ_ARRAY or WRITE_ARRAY with `CFG.SIZE_BYTES < WORD_SIZE` (R64). Safe. -/
  | sizeBelowWord
  /-- Reset asserted with `ST.BUSY = 1` (R272): raised by `step`. Safe. -/
  | resetWhileBusy
  /-- FINALIZE by a name, whichever it is, with a `CATALOG` whose names are not distinct after case folding (R122, U23
  of 93_implementation_defined.md). Safe. -/
  | catalogAmbiguous
deriving DecidableEq, Repr

/-- The state of the machine. After `pins` come the model's own fields: two latches of the command being executed, the
inputs (reset, host, collaborator), the log of the bus port, the parameters of R7 and R8, and the number of free values
taken. -/
structure State where
  cfg          : Cfg
  st           : Status
  w            : Work
  orchState    : OrchState
  orchOp       : OrchOp
  img          : Memory
  imgLen       : Nat
  res          : ResVal
  pins         : BusPins
  burst        : Bool
  erasePolling : Bool
  resetIn      : Bool
  host         : List HostAct
  script       : List BusAnswer
  busLog       : List BusEvent
  par          : Params
  nonce        : Nat
deriving DecidableEq, Repr

/-- The machine right after reset (R47, R270). The registers the spec leaves unspecified hold the values of log entry 10
(DESIGN CHOICE). -/
def State.reset : State where
  cfg := { sizeBytes := 0, addrBits := 0, orgSup := 0, org16 := false, aEff := 0, finalized := false }
  st := { busy := false, done := false, cond := .none, cause := { code := 0 }, imgValid := false }
  w := { addr := 0, idx := 0, hdr := 0, status := 0, pollCnt := 0 }
  orchState := .idle
  orchOp := .none
  img := []
  imgLen := 0
  res := .bytes []
  pins := .idle
  burst := false
  erasePolling := false
  resetIn := false
  host := []
  script := []
  busLog := []
  par := Config.params
  nonce := 0

end Sys2Proof.Machine
end

