-- ==== Sys2Proof/Machine/Ops.lean ====
section
/-! DEFINITION. The named operations over memory, bus port and registers: the image buffer, the exchange of a chain,
acceptance of a command, the end of a command, and taking a condition. -/

namespace Sys2Proof.Machine

open Sys2Proof Config

/-! ### The image buffer -/

/-- What an address of `IMG` that the list does not hold reads as. The list is only the sparse form of a buffer whose
every byte the host supplied (R43). DESIGN CHOICE, log entry 17. -/
def unlistedByte : Byte := 0

/-- The canonical form from address `lo` on. -/
def Memory.wfFrom : Nat → Memory → Bool
  | _, [] => true
  | lo, (a, b) :: m => decide (lo ≤ a) && decide (b ≠ unlistedByte) && Memory.wfFrom (a + 1) m

/-- The canonical form: addresses strictly rising, no byte equal to `unlistedByte`. -/
def Memory.wf (m : Memory) : Bool := Memory.wfFrom 0 m

/-- The byte at an address. -/
def readByte : Memory → Nat → Byte
  | [], _ => unlistedByte
  | (x, y) :: m, a => if a = x then y else readByte m a

/-- Sets the byte at an address and keeps the canonical form. -/
def writeByte : Memory → Nat → Byte → Memory
  | [], a, b => if b = unlistedByte then [] else [(a, b)]
  | (x, y) :: m, a, b =>
    if a < x then (if b = unlistedByte then (x, y) :: m else (a, b) :: (x, y) :: m)
    else if a = x then (if b = unlistedByte then m else (a, b) :: m)
    else (x, y) :: writeByte m a b

/-- The `n` bytes from address `a` on, in ascending address order. -/
def readBytes (m : Memory) : Nat → Nat → List Byte
  | _, 0 => []
  | a, n + 1 => readByte m a :: readBytes m (a + 1) n

/-- Stores a byte sequence from address `a` on, in ascending address order. -/
def writeBytes : Memory → Nat → List Byte → Memory
  | m, _, [] => m
  | m, a, b :: bs => writeBytes (writeByte m a b) (a + 1) bs

/-- `MemRead(addr, n)` (R13): only inside `IMG`. -/
def memRead (a n : Nat) (s : State) : Option (List Byte) :=
  if a + n ≤ s.imgLen then some (readBytes s.img a n) else none

/-- `MemWrite(addr, n, bs)` with `n` the length of `bs` (R13): only inside `IMG`. -/
def memWrite (a : Nat) (bs : List Byte) (s : State) : Option State :=
  if a + bs.length ≤ s.imgLen then some { s with img := writeBytes s.img a bs } else none

/-- The host supplies `IMG` and with it `IMG_LEN` (R43). -/
def loadImage (bs : List Byte) (s : State) : State :=
  { s with img := writeBytes [] 0 bs, imgLen := bs.length }

/-- `IMG` as a byte sequence. -/
def image (s : State) : List Byte := readBytes s.img 0 s.imgLen

/-! ### The bus port -/

/-- How many bytes a chain asks to receive (R14). -/
def rxTotal (c : Chain) : Nat := (c.map Transfer.rxLen).sum

/-- Whether the collaborator can perform a chain: no transfer longer than `MAX_XFER` (R257). With `MAX_XFER = 0`, which
R8 does not admit, it can perform none. DESIGN CHOICE, log entry 33. -/
def withinLimit (p : Params) (c : Chain) : Bool :=
  match p.maxXfer with
  | none => true
  | some m => c.all (fun t => decide (t.len ≤ m))

/-- `n` received bytes from what a scripted answer names: the rest is free, a surplus is not received (R256 duty (b):
exactly the number of bytes asked for). -/
def fitBytes (log : List BusEvent) (n : Nat) (rx : List Byte) : List Byte :=
  rx.take n ++ (List.range (n - rx.length)).map (fun k => Config.freeByte log (rx.length + k))

/-- The oracle's choice for a chain (R80): the next answer of the script, else the free answer to this history. -/
def oracleAnswer (c : Chain) (s : State) : BusAnswer :=
  match s.script with
  | a :: _ => a
  | [] => Config.busAnswer s.busLog c

/-- The collaborator's answer to a chain (R14, R256, R257): `Ok` with exactly the bytes asked for, or `Fail`; always
`Fail` where a transfer is longer than `MAX_XFER`. -/
def answerTo (c : Chain) (s : State) : BusAnswer :=
  match oracleAnswer c s with
  | .fail k => .fail k
  | .ok rx =>
    if withinLimit s.par c then .ok (fitBytes s.busLog (rxTotal c) rx)
    else .fail (Config.limitCause s.busLog c)

/-- The state after a chain: logged with its answer, the answer used up, the bus idle again (R74, R172, R173). -/
def afterChain (c : Chain) (s : State) : State :=
  { s with busLog := { chain := c, answer := answerTo c s } :: s.busLog, script := s.script.tail, pins := .idle }

/-- `Bus(chain)` (R14): the answer and the state after it. -/
def bus (c : Chain) (s : State) : BusAnswer × State := (answerTo c s, afterChain c s)

/-! ### Working registers -/

/-- `W.HDR <- value` (R26, R141). -/
def setHdr (v : Nat) (s : State) : State := { s with w := { s.w with hdr := BitVec.ofNat 16 v } }

/-- `W.STATUS <- byte` (R26, R166). -/
def setStatus (b : Byte) (s : State) : State := { s with w := { s.w with status := b } }

/-- `W.ADDR <- a` (R25). -/
def setAddr (a : Nat) (s : State) : State := { s with w := { s.w with addr := a } }

/-- `W.IDX <- i` (R25). -/
def setIdx (i : Nat) (s : State) : State := { s with w := { s.w with idx := i } }

/-- `W.POLLCNT <- n` (R26). -/
def setPollCnt (n : Nat) (s : State) : State := { s with w := { s.w with pollCnt := n } }

/-- `ORCH.STATE <- q` (R12). -/
def goto (q : OrchState) (s : State) : State := { s with orchState := q }

/-- `ST.IMG_VALID <- b` (R41). -/
def setImgValid (b : Bool) (s : State) : State := { s with st := { s.st with imgValid := b } }

/-- `RES <- v` (R175). -/
def setRes (v : ResVal) (s : State) : State := { s with res := v }

/-! ### The life of a command -/

/-- Acceptance (R190, R175, R120): busy, outcome flags cleared, the command noted. `RES` was valid until now (R175) and
`ST.CAUSE` is unspecified while `ST.COND` is not TransferFailed (R40): both take a free value (log entry 13). -/
def accept (op : OrchOp) (s : State) : State :=
  { s with
    st := { s.st with busy := true, done := false, cond := .none, cause := Config.unspecCause s.nonce }
    orchOp := op
    res := Config.unspecRes s.nonce
    nonce := s.nonce + 1 }

/-- The good end (R208 row Done, R209): Done is passed through and the machine is in Idle again. -/
def finish (s : State) : State :=
  { s with
    st := { s.st with busy := false, done := true }
    orchState := .idle
    orchOp := .none
    burst := false
    erasePolling := false }

/-- TAKING A CONDITION, `raise Cond(info)` (R15, R245), the one abort path: the condition and, for TransferFailed, its
cause are recorded, and control returns to the host. There is no handler and no return instruction (R248): the next
`accept` clears the condition. -/
def raise (c : Cond) (info : Cause) (s : State) : State :=
  { s with
    st := { s.st with busy := false, done := false, cond := c,
                      cause := if c = .transferFailed then info else s.st.cause }
    orchState := .idle
    orchOp := .none
    burst := false
    erasePolling := false }

/-- `raise` of a condition that carries no information (R230). -/
def raiseBare (c : Cond) (s : State) : State := raise c s.st.cause s

/-- A command presented while `ST.BUSY = 1` is not accepted and has no effect (R190, U1 of
93_implementation_defined.md; log entry 14); otherwise the command runs. -/
def whenIdle (s : State) (run : Host.Outcome State Fault Refusal) : Host.Outcome State Fault Refusal :=
  if s.st.busy then .next s else run

/-! ### Reset -/

/-- The effect of the reset input (R47, R270): the listed registers at their values, the unspecified ones free, the
image, the collaborator and the host untouched (R271). It also releases the reset input: the spec does not say how long
reset stays asserted, and the model makes an assertion last one step. DESIGN CHOICE, log entry 37. -/
def applyReset (s : State) : State :=
  { s with
    cfg := { sizeBytes := Config.unspecSize s.nonce, addrBits := Config.unspecAddrBits s.nonce,
             orgSup := Config.unspecOrgSup s.nonce, org16 := Config.unspecOrg16 s.nonce,
             aEff := Config.unspecAEff s.nonce, finalized := false }
    st := { busy := false, done := false, cond := .none, cause := Config.unspecCause s.nonce, imgValid := false }
    w := { addr := 0, idx := 0, hdr := Config.unspecHdr s.nonce,
           status := BitVec.ofNat 8 (Config.unspecStatus s.nonce).val, pollCnt := 0 }
    orchState := .idle
    orchOp := .none
    res := Config.unspecRes s.nonce
    pins := .idle
    burst := false
    erasePolling := false
    resetIn := false
    nonce := s.nonce + 1 }

end Sys2Proof.Machine
end

