-- ==== Sys2Proof/Machine/Operands.lean ====
section
/-! DEFINITION. Operand forms over the state: the derived quantities of R9, and the headers and chains READ, WRITE and
SPECIAL assemble from the configuration registers (R95, R96, R163 to R168). -/

namespace Sys2Proof.Machine

open Sys2Proof Config

/-- `WORD_SIZE` (R9). -/
def wordSize (s : State) : Nat := if s.cfg.org16 then 2 else 1

/-- `WORD_COUNT` (R9). -/
def wordCount (s : State) : Nat := s.cfg.sizeBytes / wordSize s

/-- `STEP` of the READ_ARRAY being executed (R9, R192). -/
def stepLen (s : State) : Nat := if s.burst then s.cfg.sizeBytes else wordSize s

/-- ENCODE's domain (R145). -/
def inDomain (opcode bits : Nat) : Bool := decide (opcode < 4) && decide (bits ≤ encBitsMax)

/-- READ's header value under the current profile (R164). -/
def readHdr (address : Nat) (s : State) : Nat := readHeader s.par s.cfg.org16 s.cfg.aEff.toNat address

/-- WRITE's header value under the current profile (R167). -/
def writeHdr (address : Nat) (s : State) : Nat := writeHeader s.par s.cfg.org16 s.cfg.aEff.toNat address

/-- SPECIAL's header value under the current profile (R168). -/
def specialHdr (opcode subcode : Nat) (s : State) : Nat := specialHeader s.cfg.aEff.toNat opcode subcode

/-- The chain READ issues (R164). -/
def readChain (address length : Nat) (s : State) : Chain := chainHR (readHdr address s) length

/-- The chain WRITE issues (R167). -/
def writeChain (address : Nat) (data : List Byte) (s : State) : Chain := chainHW (writeHdr address s) data

/-- The chain SPECIAL issues (R168). -/
def specialChain (opcode subcode : Nat) (s : State) : Chain := chainH (specialHdr opcode subcode s)

end Sys2Proof.Machine
end

