-- ==== Sys2Proof/Machine/Flags.lean ====
section
/-! DEFINITION. The predicates and codes of the status group: READY (R42), the codes of `ST.COND` (R230), the poll
bound (R201). There are no other condition codes (R42). -/

namespace Sys2Proof.Machine

open Sys2Proof Config

/-- The code `ST.COND` holds for a condition (R230, D14). -/
def Cond.code : Cond → BitVec 4
  | .none => 0
  | .configurationConflict => 1
  | .unknownCatalogEntry => 2
  | .invalidGeometry => 3
  | .unsupportedMode => 4
  | .transferFailed => 5
  | .imageSizeMismatch => 6
  | .timedOut => 7

/-- `READY`: `W.STATUS = 0xFF` (R42). -/
def ready (s : State) : Bool := decide (s.w.status = readyByte)

/-- The bound of the poll loop is reached: `POLL_MAX` is finite and `W.POLLCNT = POLL_MAX` (R200, R201). For
`POLL_MAX = 0`, which R8 does not admit, it is reached before any poll. DESIGN CHOICE, log entry 33. -/
def pollBoundReached (s : State) : Bool := decide (s.par.pollMax = some s.w.pollCnt)

end Sys2Proof.Machine
end

