-- ==== Sys2Proof/Machine/Encoder.lean ====
section
/-! DEFINITION. ENCODE at the command port: the header encoder (41_header_encoder.md R140 to R146). -/

namespace Sys2Proof.Machine

open Sys2Proof Config

/-- ENCODE (R141) issued at the port (R175): `W.HDR` and `RES`; no profile is needed (R282), no chain is issued
(R146). -/
def execEncode (opcode payload dummy aEff : Nat) (s : State) : Host.Outcome State Fault Refusal :=
  whenIdle s
    (if inDomain opcode (aEff + dummy) then
      let v := headerValue opcode payload (aEff + dummy)
      .next (finish (setRes (.bytes (be16 v)) (setHdr v (accept .prim s))))
    else .refused .encodeDomain)

end Sys2Proof.Machine
end

