-- ==== Sys2Proof/Machine/Primitives.lean ====
section
/-! DEFINITION. The transaction primitives (42_primitives.md R160 to R175): each issues exactly one chain and hands its
answer to the caller, the orchestrator or the command port. -/

namespace Sys2Proof.Machine

open Sys2Proof Config

/-- What a primitive hands its caller: a refusal of its precondition, or the answer of its chain and the state after
it (R160). -/
abbrev PrimOut := Except Refusal (BusAnswer × State)

/-- The header phase all header-bearing primitives share: `CFG.FINALIZED = 1` (R162), ENCODE's domain (R145), `W.HDR`
written (R141), then the one chain (R160). -/
def headerPrim (opcode dummy : Nat) (v : Nat) (c : Chain) (s : State) : PrimOut :=
  if s.cfg.finalized = false then .error .notFinalized
  else if inDomain opcode (s.cfg.aEff.toNat + dummy) then .ok (bus c (setHdr v s))
  else .error .encodeDomain

/-- READ (R164). -/
def primRead (address length : Nat) (s : State) : PrimOut :=
  if s.cfg.finalized = false then .error .notFinalized
  else if length = 0 then .error .zeroLength
  else headerPrim s.par.opcRead.toNat readDummy (readHdr address s) (readChain address length s) s

/-- WRITE (R167). -/
def primWrite (address : Nat) (data : List Byte) (s : State) : PrimOut :=
  if s.cfg.finalized = false then .error .notFinalized
  else if data.length = 0 then .error .zeroLength
  else headerPrim s.par.opcWrite.toNat writeDummy (writeHdr address s) (writeChain address data s) s

/-- SPECIAL (R168). -/
def primSpecial (opcode subcode : Nat) (s : State) : PrimOut :=
  headerPrim opcode specialDummy (specialHdr opcode subcode s) (specialChain opcode subcode s) s

/-- EWEN (R169). -/
def primEwen (s : State) : PrimOut := primSpecial opcCtrl s.par.subEwen.toNat s

/-- EWDS (R170). -/
def primEwds (s : State) : PrimOut := primSpecial opcCtrl s.par.subEwds.toNat s

/-- ERAL (R171). -/
def primEral (s : State) : PrimOut := primSpecial opcCtrl s.par.subEral.toNat s

/-- The byte `W.STATUS` holds after a status chain: the received byte, or, after a failed chain, what it held (R166). -/
def statusAfter (a : BusAnswer) (old : Byte) : Byte :=
  match a with
  | .ok rx => rx.headD old
  | .fail _ => old

/-- STATUS (R166): no header, no profile. -/
def primStatus (s : State) : BusAnswer × State :=
  (answerTo chainR s, setStatus (statusAfter (answerTo chainR s) s.w.status) (afterChain chainR s))

/-- The end of a directly issued primitive (R175): its result in `RES`, or `raise TransferFailed(cause)`. -/
def portEnd (result : List Byte → ResVal) (out : BusAnswer × State) : State :=
  match out.1 with
  | .ok rx => finish (setRes (result rx) out.2)
  | .fail k => raise .transferFailed k out.2

/-- A primitive issued from the command port (R175). -/
def portPrim (result : List Byte → ResVal) (out : PrimOut) : Host.Outcome State Fault Refusal :=
  match out with
  | .error r => .refused r
  | .ok o => .next (portEnd result o)

/-- READ at the port: the received bytes. -/
def execRead (address length : Nat) (s : State) : Host.Outcome State Fault Refusal :=
  whenIdle s (portPrim .bytes (primRead address length (accept .prim s)))

/-- WRITE at the port: `success`. -/
def execWrite (address : Nat) (data : List Byte) (s : State) : Host.Outcome State Fault Refusal :=
  whenIdle s (portPrim (fun _ => .success) (primWrite address data (accept .prim s)))

/-- SPECIAL at the port: `success`. -/
def execSpecial (opcode subcode : Nat) (s : State) : Host.Outcome State Fault Refusal :=
  whenIdle s (portPrim (fun _ => .success) (primSpecial opcode subcode (accept .prim s)))

/-- EWEN at the port: `success`. -/
def execEwen (s : State) : Host.Outcome State Fault Refusal :=
  whenIdle s (portPrim (fun _ => .success) (primEwen (accept .prim s)))

/-- EWDS at the port: `success`. -/
def execEwds (s : State) : Host.Outcome State Fault Refusal :=
  whenIdle s (portPrim (fun _ => .success) (primEwds (accept .prim s)))

/-- ERAL at the port: `success`. -/
def execEral (s : State) : Host.Outcome State Fault Refusal :=
  whenIdle s (portPrim (fun _ => .success) (primEral (accept .prim s)))

/-- STATUS at the port: the received byte. -/
def execStatus (s : State) : Host.Outcome State Fault Refusal :=
  whenIdle s (.next (portEnd (fun rx => .byte (rx.headD 0)) (primStatus (accept .prim s))))

end Sys2Proof.Machine
end

