-- ==== Sys2Proof/Machine/Orchestrator.lean ====
section
/-! DEFINITION. The protocol orchestrator (43_orchestrator.md R190 to R210): the three operations as accepted at the
port, and `advance`, one transition of R208 of the operation being executed. A transition issues at most one chain. -/

namespace Sys2Proof.Machine

open Sys2Proof Config

/-! ### Acceptance -/

/-- READ_ARRAY (R192, R193): accepted, `ST.IMG_VALID` cleared, then ImageSizeMismatch or the state Reading. -/
def execReadArray (burst : Bool) (s : State) : Host.Outcome State Fault Refusal :=
  whenIdle s
    (if s.cfg.finalized = false then .refused .notFinalized
    else if s.cfg.sizeBytes < wordSize s then .refused .sizeBelowWord
    else
      let s := setImgValid false (accept .read s)
      if s.imgLen ≠ s.cfg.sizeBytes then .next (raiseBare .imageSizeMismatch s)
      else .next { goto .reading (setAddr 0 s) with burst := burst })

/-- WRITE_ARRAY (R197): accepted, then ImageSizeMismatch or the state Enabling. -/
def execWriteArray (s : State) : Host.Outcome State Fault Refusal :=
  whenIdle s
    (if s.cfg.finalized = false then .refused .notFinalized
    else if s.cfg.sizeBytes < wordSize s then .refused .sizeBelowWord
    else
      let s := accept .write s
      if s.imgLen ≠ s.cfg.sizeBytes then .next (raiseBare .imageSizeMismatch s)
      else .next (goto .enabling s))

/-- ERASE_ARRAY (R206): accepted, the state Enabling; no image is needed. -/
def execEraseArray (s : State) : Host.Outcome State Fault Refusal :=
  whenIdle s
    (if s.cfg.finalized = false then .refused .notFinalized
    else .next (goto .enabling (accept .erase s)))

/-! ### The transitions of R208 -/

/-- A primitive issued by an operation: the first TransferFailed aborts the operation (R191), otherwise it goes on. -/
def orchPrim (out : PrimOut) (next : List Byte → State → Host.Outcome State Fault Refusal) :
    Host.Outcome State Fault Refusal :=
  match out with
  | .error r => .refused r
  | .ok (.fail k, s) => .next (raise .transferFailed k s)
  | .ok (.ok rx, s) => next rx s

/-- `W.ADDR` advanced by `STEP`; Reading again, or the end with `ST.IMG_VALID <- 1` (R193, R208). -/
def afterStore (s : State) : State :=
  let t := setAddr (s.w.addr + stepLen s) s
  if t.w.addr < t.cfg.sizeBytes then t else finish (setImgValid true t)

/-- The row Reading: one READ, its bytes stored at `W.ADDR` (R193). -/
def advReading (s : State) : Host.Outcome State Fault Refusal :=
  orchPrim (primRead s.w.addr (stepLen s) s) (fun rx t =>
    match memWrite t.w.addr rx t with
    | none => .fault .imgOutOfRange
    | some u => .next (afterStore u))

/-- The row Enabling: EWEN, then Writing or Erasing by `ORCH.OP` (R28, R198, R206). -/
def advEnabling (s : State) : Host.Outcome State Fault Refusal :=
  match s.orchOp with
  | .write => orchPrim (primEwen s) (fun _ t => .next (goto .writing (setIdx 0 t)))
  | .erase => orchPrim (primEwen s) (fun _ t => .next (goto .erasing t))
  | _ => .fault .noTransition

/-- The row Writing: word `W.IDX` is read from `IMG` and sent (R199). -/
def advWriting (s : State) : Host.Outcome State Fault Refusal :=
  let t := setAddr (s.w.idx * wordSize s) s
  match memRead t.w.addr (wordSize t) t with
  | none => .fault .imgOutOfRange
  | some data =>
    orchPrim (primWrite t.w.addr data t) (fun _ u => .next (goto .waitingReady (setPollCnt 0 u)))

/-- One turn of the poll loop (R200 to R202): TimedOut at the bound, else one STATUS, counted whatever it returns;
`0xFF` ends the loop. -/
def pollTurn (onReady : State → State) (s : State) : State :=
  if pollBoundReached s then raiseBare .timedOut s
  else
    let r := primStatus s
    let t := setPollCnt (r.2.w.pollCnt + 1) r.2
    match r.1 with
    | .fail k => raise .transferFailed k t
    | .ok _ => if ready t then onReady t else t

/-- A word is acknowledged (R200): the next word, or the end. -/
def wordDone (s : State) : State :=
  let t := setIdx (s.w.idx + 1) s
  if t.w.idx < wordCount t then goto .writing t else finish t

/-- The row WaitingReady (R200). -/
def advWaiting (s : State) : Host.Outcome State Fault Refusal := .next (pollTurn wordDone s)

/-- The row Erasing: ERAL, then the end, or, with `ERASE_POLL`, the poll loop in the same state (R206, R207). -/
def advErasing (s : State) : Host.Outcome State Fault Refusal :=
  if s.erasePolling then .next (pollTurn finish s)
  else
    orchPrim (primEral s) (fun _ t =>
      if t.par.erasePoll then .next { setPollCnt 0 t with erasePolling := true } else .next (finish t))

/-- One transition of the operation being executed (R208). -/
def advance (s : State) : Host.Outcome State Fault Refusal :=
  match s.orchState with
  | .idle => .fault .noTransition
  | .reading => advReading s
  | .enabling => advEnabling s
  | .writing => advWriting s
  | .waitingReady => advWaiting s
  | .erasing => advErasing s
  | .done => .next (finish s)

end Sys2Proof.Machine
end

