-- ==== Sys2Proof/Machine/Profile.lean ====
section
/-! DEFINITION. FINALIZE: the device profile and the organization-mode multiplexer (40_profile.md R120 to R130). -/

namespace Sys2Proof.Machine

open Sys2Proof Config

/-- Case folding of R122: ASCII capital letters only. -/
def foldChar (c : Char) : Char :=
  if 65 ≤ c.toNat ∧ c.toNat ≤ 90 then Char.ofNat (c.toNat + 32) else c

/-- A name after case folding (R122). -/
def foldName (n : Name) : Name := n.map foldChar

/-- What R122 requires of `CATALOG`: all its names are distinct after case folding. -/
def catalogDistinct (cat : List CatalogEntry) : Bool := decide (cat.map (fun e => foldName e.name)).Nodup

/-- `lookup(CATALOG, name)`: the entry whose name equals the given one by case-insensitive exact match, or none (R122). -/
def catalogLookup (cat : List CatalogEntry) (n : Name) : Option CatalogEntry :=
  cat.find? (fun e => decide (foldName e.name = foldName n))

/-- A power of two, `2^k` for a natural `k >= 0` (R123). -/
def isPowerOfTwo (n : Nat) : Bool := decide (2 ^ n.log2 = n)

/-- Membership of a mode in an `organization_support` set (R32, R125). -/
def supports (sup : OrgSup) : AccessMode → Bool
  | .x8 => sup.getLsbD 0
  | .x16 => sup.getLsbD 1

/-- What the operands of FINALIZE denote before the geometry is checked. -/
inductive ProfileChoice where
  | profile (sizeBytes addrBits : Nat) (orgSup : OrgSup)
  | raises (c : Cond)
  | ambiguous
deriving DecidableEq, Repr

/-- The construction paths (R121, R122; the absent explicit operands of D16). A lookup, of whatever name, needs the
catalog R122 requires (log entry 26). -/
def chooseProfile (cat : List CatalogEntry) (name : Option Name) (sizeBytes addrBits : Option Nat)
    (orgSup : Option OrgSup) : ProfileChoice :=
  match name with
  | some n =>
    if sizeBytes.isSome || addrBits.isSome || orgSup.isSome then .raises .configurationConflict
    else if catalogDistinct cat = false then .ambiguous
    else
      match catalogLookup cat n with
      | none => .raises .unknownCatalogEntry
      | some e => .profile e.sizeBytes e.addrBits e.orgSup
  | none => .profile (sizeBytes.getD 0) (addrBits.getD 0) (orgSup.getD 0)

/-- The checks R123, R124, R125 in the order of R128: the condition of the first that fails, or none. -/
def geometryCond (sizeBytes addrBits : Nat) (orgSup : OrgSup) (mode : AccessMode) : Cond :=
  if isPowerOfTwo sizeBytes = false then .invalidGeometry
  else if addrBits < addrBitsMin ∨ addrBitsMax < addrBits then .invalidGeometry
  else if supports orgSup mode = false then .unsupportedMode
  else .none

/-- The organization-mode multiplexer (R126). -/
def effectiveBits (addrBits : Nat) : AccessMode → Nat
  | .x8 => addrBits
  | .x16 => addrBits - 1

/-- The six configuration registers as a successful FINALIZE leaves them (R127). -/
def committedCfg (sizeBytes addrBits : Nat) (orgSup : OrgSup) (mode : AccessMode) : Cfg where
  sizeBytes := sizeBytes
  addrBits := BitVec.ofNat 4 addrBits
  orgSup := orgSup
  org16 := decide (mode = .x16)
  aEff := BitVec.ofNat 4 (effectiveBits addrBits mode)
  finalized := true

/-- FINALIZE after acceptance (R120). -/
def runFinalize (choice : ProfileChoice) (mode : AccessMode) (s : State) : Host.Outcome State Fault Refusal :=
  match choice with
  | .ambiguous => .refused .catalogAmbiguous
  | .raises c => .next (raiseBare c s)
  | .profile size ab sup =>
    match geometryCond size ab sup mode with
    | .none => .next (finish { s with cfg := committedCfg size ab sup mode })
    | c => .next (raiseBare c s)

/-- FINALIZE (R120). -/
def execFinalize (name : Option Name) (sizeBytes addrBits : Option Nat) (orgSup : Option OrgSup) (mode : AccessMode)
    (s : State) : Host.Outcome State Fault Refusal :=
  whenIdle s
    (runFinalize (chooseProfile s.par.catalog name sizeBytes addrBits orgSup) mode (accept .finalize s))

end Sys2Proof.Machine
end

