-- ==== Sys2Proof/Machine/Dispatch.lean ====
section
/-! DEFINITION. One arm per command symbol: the meaning of each instruction as accepted at the command port. -/

namespace Sys2Proof.Machine

open Sys2Proof

def exec (i : Instr) (s : State) : Host.Outcome State Fault Refusal :=
  match i with
  | .encode opcode payload dummy aEff => Sys2Proof.Machine.execEncode opcode payload dummy aEff s
  | .read address length => Sys2Proof.Machine.execRead address length s
  | .write address data => Sys2Proof.Machine.execWrite address data s
  | .special opcode subcode => Sys2Proof.Machine.execSpecial opcode subcode s
  | .ewen => Sys2Proof.Machine.execEwen s
  | .ewds => Sys2Proof.Machine.execEwds s
  | .eral => Sys2Proof.Machine.execEral s
  | .status => Sys2Proof.Machine.execStatus s
  | .finalize name sizeBytes addrBits orgSup mode => Sys2Proof.Machine.execFinalize name sizeBytes addrBits orgSup mode s
  | .readArray burst => Sys2Proof.Machine.execReadArray burst s
  | .writeArray => Sys2Proof.Machine.execWriteArray s
  | .eraseArray => Sys2Proof.Machine.execEraseArray s

end Sys2Proof.Machine
end

