-- ==== Sys2Proof/Machine/Port.lean ====
section
/-! DEFINITION. The machine's inputs: the reset input (R270 to R272), and where the next command comes from (the
command port, R23). -/

namespace Sys2Proof.Machine

open Sys2Proof Config

/-- Reset asserted (R270): refused while a command is executing (R272). The step that obeys it releases it (log
entry 37). -/
def resetStep (s : State) : Host.Outcome State Fault Refusal :=
  if s.st.busy then .refused .resetWhileBusy else .next (applyReset s)

/-- The state with the host's next action taken off. -/
def popHost (s : State) : State := { s with host := s.host.tail }

/-- The reset input asserted by the host, for the one step that obeys it (log entry 37). -/
def raiseReset (s : State) : State := { s with resetIn := true }

/-- The state in which a command is at the port and will be taken at the next step: no reset, no command executing. -/
def presentCommand (i : Instr) (s : State) : State :=
  { s with host := .command i :: s.host, resetIn := false, st := { s.st with busy := false } }

/-- The profile under which a header of the given `A_EFF` is the table's row: what FINALIZE commits for a part of
`2^addr_bits` bytes supporting both organizations, 8-bit mode where `A_EFF` is a nominal count, else 16-bit mode. -/
def profileForRow (aEff : Nat) : Cfg :=
  if addrBitsMin ≤ aEff then committedCfg (2 ^ aEff) aEff 3 .x8
  else committedCfg (2 ^ (aEff + 1)) (aEff + 1) 3 .x16

/-- An instruction given by the bits of the opcode table, presented at the port under the profile its row is for
(log entry 22). Bits that are no instruction present nothing. -/
def presentWord (s : State) (nbits w : Nat) : State :=
  match decodeTable nbits w with
  | none => s
  | some (i, none) => presentCommand i s
  | some (i, some aEff) => { presentCommand i s with cfg := profileForRow aEff }

end Sys2Proof.Machine
end

