-- ==== Sys2Proof/Machine/Step.lean ====
section
/-! DEFINITION. The step: the reset input first, then the command being executed, then the host's next action; with
none of these the machine waits in Idle (R270). -/

namespace Sys2Proof.Machine

open Sys2Proof

/-- One step of the machine. -/
def step (s : State) : Host.Outcome State Fault Refusal :=
  if s.resetIn then resetStep s
  else if s.st.busy then advance s
  else
    match s.host with
    | [] => .next s
    | .command i :: _ => exec i (popHost s)
    | .image bs :: _ => .next (loadImage bs (popHost s))
    | .assertReset :: _ => .next (raiseReset (popHost s))

/-- The state with the instruction of `nbits` bits `w` where the next step takes its command (the host's fixed
name). -/
def State.withFetchWord (s : State) (nbits w : Nat) : State := presentWord s nbits w

end Sys2Proof.Machine
end

