-- ==== Sys2Proof/Machine/Wire.lean ====
section
/-! DEFINITION. The wire-level view of a chain (R172, R173; informative in the spec): the levels CPE93 gives `SEL`, `SCK`
and `DI` from the rise of select to its fall, what the sampled `DO` levels make of the receive buffers, and the number of
clocks (R298). -/

namespace Sys2Proof.Machine

open Sys2Proof Config

/-- A unit's bits in the order they are on the wire: most significant first (R61). -/
def unitBits (b : Byte) : List Bool := (List.range 8).map b.getMsbD

/-- The byte eight received bits make: the first one is bit 7 (R61). -/
def unitOfBits (bs : List Bool) : Byte := BitVec.ofNat 8 (bs.foldl (fun v b => 2 * v + b.toNat) 0)

/-- `DI` at each clock of a transfer: the transmitted bits, or low where there is nothing to transmit (R173). -/
def transferDi (t : Transfer) : List Bool :=
  match t.tx with
  | some bs => bs.flatMap unitBits
  | none => List.replicate (8 * t.len) false

/-- `DI` at each clock of a chain, select asserted throughout (R172). -/
def chainDi (c : Chain) : List Bool := c.flatMap transferDi

/-- The number of clocks of a chain: eight a unit (R172, R298). -/
def chainClocks (c : Chain) : Nat := (c.map (fun t => 8 * t.len)).sum

/-- One clock inside a select assertion, `DI` holding its bit: `SCK` low, then high (R172). That `SCK` is low first and
`DI` changes only while it falls is mode 0, PRESUMED, log entry 36. -/
def clockLevels (b : Bool) : List BusPins :=
  [{ sel := true, sck := false, di := b }, { sel := true, sck := true, di := b }]

/-- The levels of the bus lines over one chain, one entry for each time a line changes or a clock's half begins (R172):
`SEL` is high from the first clock of the first transfer to the last clock of the last one, with no fall between two
transfers; then `SCK` is low again, and `SEL` falls. Between chains the lines are `BusPins.idle`. This is a chain performed
whole: how far a failed one got is unknown (R235). The order of the last two changes is a DESIGN CHOICE, log entry 36. -/
def chainTrace (c : Chain) : List BusPins :=
  (chainDi c).flatMap clockLevels ++ [{ sel := true, sck := false, di := false }, .idle]

/-- The first `n` units received, eight sampled levels each (R172). -/
def unitsOf : Nat → List Bool → List Byte
  | 0, _ => []
  | n + 1, levels => unitOfBits (levels.take 8) :: unitsOf n (levels.drop 8)

/-- What a transfer receives, given `DO` at each of its clocks: its units where `rx_len > 0`; otherwise `DO` is ignored
(R172, R173). -/
def transferRx (t : Transfer) (levels : List Bool) : List Byte := unitsOf t.rxLen levels

/-- What a chain receives, given `DO` as sampled at each of its clocks (R172): the bytes a good answer to it delivers
(R14). -/
def chainRx : Chain → List Bool → List Byte
  | [], _ => []
  | t :: c, levels => transferRx t (levels.take (8 * t.len)) ++ chainRx c (levels.drop (8 * t.len))

end Sys2Proof.Machine
end

