-- ==== Sys2Proof/Safety.lean ====
section
/-! DEFINITION. What counts as a legal state and as a good run of CPE93, in the terms the statements use: the invariant
of the machine, what a command leaves unchanged, and runs of several steps. -/

namespace Sys2Proof.Machine

open Sys2Proof Config

/-! ### The invariant -/

/-- The access mode the configuration registers hold (R33). -/
def currentMode (c : Cfg) : AccessMode := if c.org16 then .x16 else .x8

/-- The legal values of a finalized profile (R30, R31, R34, R125, R126). -/
structure Cfg.Legal (c : Cfg) : Prop where
  size : isPowerOfTwo c.sizeBytes = true
  addrLow : 5 ≤ c.addrBits.toNat
  addrHigh : c.addrBits.toNat ≤ 9
  mode : supports c.orgSup (currentMode c) = true
  aEff : c.aEff.toNat = effectiveBits c.addrBits.toNat (currentMode c)

/-- What holds of the working registers and latches in each orchestrator state at a step boundary (R27 to R29, R208). -/
def OrchLegal (s : State) : Prop :=
  match s.orchState with
  | .idle => s.st.busy = false ∧ s.orchOp = .none ∧ s.burst = false ∧ s.erasePolling = false
  | .reading =>
    s.st.busy = true ∧ s.orchOp = .read ∧ s.cfg.finalized = true ∧ s.imgLen = s.cfg.sizeBytes ∧
      wordSize s ≤ s.cfg.sizeBytes ∧ s.w.addr + stepLen s ≤ s.cfg.sizeBytes ∧ stepLen s ∣ s.w.addr ∧
      s.st.imgValid = false ∧ s.erasePolling = false
  | .enabling =>
    s.st.busy = true ∧ s.cfg.finalized = true ∧ s.burst = false ∧ s.erasePolling = false ∧
      (s.orchOp = .erase ∨
        (s.orchOp = .write ∧ s.imgLen = s.cfg.sizeBytes ∧ wordSize s ≤ s.cfg.sizeBytes))
  | .writing =>
    s.st.busy = true ∧ s.orchOp = .write ∧ s.cfg.finalized = true ∧ s.imgLen = s.cfg.sizeBytes ∧
      s.w.idx < wordCount s ∧ s.burst = false ∧ s.erasePolling = false
  | .waitingReady =>
    s.st.busy = true ∧ s.orchOp = .write ∧ s.cfg.finalized = true ∧ s.imgLen = s.cfg.sizeBytes ∧
      s.w.idx < wordCount s ∧ s.w.addr = s.w.idx * wordSize s ∧ s.burst = false ∧ s.erasePolling = false
  | .erasing =>
    s.st.busy = true ∧ s.orchOp = .erase ∧ s.cfg.finalized = true ∧ s.burst = false ∧
      (s.erasePolling = true → s.par.erasePoll = true)
  | .done => False

/-- Every listed byte of the image lies inside `IMG` (R43, R70). -/
def Memory.inside (n : Nat) (m : Memory) : Prop := ∀ c ∈ m, c.1 < n

/-- The invariant of the machine at step boundaries. -/
structure State.Inv (s : State) : Prop where
  /-- The image's list is canonical. -/
  imgWf : Memory.wf s.img = true
  /-- The image's list names no byte outside `IMG`. -/
  imgInside : Memory.inside s.imgLen s.img
  /-- A finalized profile has legal values (R30 to R34). -/
  profile : s.cfg.finalized = true → s.cfg.Legal
  /-- The sequencer state fits the registers (R27 to R29, R208). -/
  orch : OrchLegal s
  /-- While a command executes, no outcome of it is shown (R37 to R39). -/
  busyClear : s.st.busy = true → s.st.done = false ∧ s.st.cond = .none
  /-- Done and a condition exclude each other (R38). -/
  outcome : s.st.done = true → s.st.cond = .none
  /-- The bus is idle between chains (R47, R173, R246). -/
  pins : s.pins = .idle

/-! ### Ends of commands -/

/-- The machine is at rest and the last command ended well (R210). -/
def EndedWell (s : State) : Prop :=
  s.st.busy = false ∧ s.st.done = true ∧ s.st.cond = .none ∧ s.orchState = .idle ∧ s.orchOp = .none

/-- The machine is at rest and the last command ended with a condition (R38, R245). -/
def EndedWith (c : Cond) (s : State) : Prop :=
  s.st.busy = false ∧ s.st.done = false ∧ s.st.cond = c ∧ s.orchState = .idle ∧ s.orchOp = .none

/-! ### Frames -/

/-- What no command and no transition of an operation changes: the parameters, the reset input, the host's further
actions, the length of the image, and `IMG` outside the given addresses. -/
def KeepsSurroundings (written : Nat → Prop) (s t : State) : Prop :=
  t.par = s.par ∧ t.resetIn = s.resetIn ∧ t.host = s.host ∧ t.imgLen = s.imgLen ∧
    ∀ x, ¬ written x → readByte t.img x = readByte s.img x

/-- No address of `IMG` is written. -/
def noByte : Nat → Prop := fun _ => False

/-- The configuration registers and `ST.IMG_VALID` are unchanged. -/
def KeepsProfile (s t : State) : Prop := t.cfg = s.cfg ∧ t.st.imgValid = s.st.imgValid

/-- `W.ADDR`, `W.IDX` and `W.POLLCNT` are unchanged. -/
def KeepsCounters (s t : State) : Prop := t.w.addr = s.w.addr ∧ t.w.idx = s.w.idx ∧ t.w.pollCnt = s.w.pollCnt

/-- No chain is issued. -/
def NoChain (s t : State) : Prop := t.busLog = s.busLog ∧ t.script = s.script

/-- One chain is issued, with this answer. -/
def OneChain (c : Chain) (a : BusAnswer) (s t : State) : Prop :=
  t.busLog = { chain := c, answer := a } :: s.busLog ∧ t.script = s.script.tail

/-- What an answer to a chain can be (R14, R256 (b), R257), and that the script decides it where it names one. -/
def AnswerOf (c : Chain) (s : State) (a : BusAnswer) : Prop :=
  (∀ rx, a = .ok rx → rx.length = rxTotal c ∧ withinLimit s.par c = true) ∧
    (∀ rx rest, s.script = .ok rx :: rest → rx.length = rxTotal c → withinLimit s.par c = true → a = .ok rx) ∧
    (∀ k rest, s.script = .fail k :: rest → a = .fail k)

/-- A primitive issued at the port ran (R160, R175): it issued the one chain `c`, and ended with its result in `RES`, or
with TransferFailed and its cause; `W.ADDR`, `W.IDX`, `W.POLLCNT`, the profile, `ST.IMG_VALID`, `IMG` and the
surroundings are unchanged. -/
def PortPrimRan (c : Chain) (result : List Byte → ResVal) (a : BusAnswer) (s t : State) : Prop :=
  OneChain c a s t ∧ AnswerOf c s a ∧
    (∀ rx, a = .ok rx → EndedWell t ∧ t.res = result rx) ∧
    (∀ k, a = .fail k → EndedWith .transferFailed t ∧ t.st.cause = k) ∧
    KeepsProfile s t ∧ KeepsCounters s t ∧ KeepsSurroundings noByte s t

/-- The result a primitive leaves in `RES` for the bytes it received (R175). -/
def resultOf (i : Instr) (rx : List Byte) : ResVal :=
  match i with
  | .read _ _ => .bytes rx
  | .status => .byte (rx.headD 0)
  | _ => .success

/-! ### Operands and profiles the statements speak of -/

/-- The constraints of R7 on the codes: the three command classes and the three subcodes are different. -/
structure CodesDistinct (p : Params) : Prop where
  read : p.opcRead ≠ 0
  write : p.opcWrite ≠ 0
  readWrite : p.opcRead ≠ p.opcWrite
  ewenEwds : p.subEwen ≠ p.subEwds
  ewenEral : p.subEwen ≠ p.subEral
  ewdsEral : p.subEwds ≠ p.subEral

/-- The unit address of a byte offset (R163), as an arithmetic expression. -/
def unitOf (p : Params) (org16 : Bool) (address : Nat) : Nat :=
  if org16 = true ∧ p.addrUnitX16 = .wordIndex then address / 2 else address

/-- READ's payload (R164, R165), as an arithmetic expression. -/
def readPayloadOf (p : Params) (org16 : Bool) (address : Nat) : Nat :=
  if p.readPreshift = true then 2 * unitOf p org16 address else unitOf p org16 address

/-- The operands of a primitive are values its encoding admits: addresses that fit the payload field and are whole
units, data of at least one byte, a 2-bit opcode and subcode that are not a wrapper's (R95, R96, R105, R174). -/
def EncodingAdmits (p : Params) (org16 : Bool) (aEff : Nat) : Instr → Prop
  | .read a n =>
    1 ≤ n ∧ readPayloadOf p org16 a < 2 ^ (aEff + 1) ∧ (org16 = true ∧ p.addrUnitX16 = .wordIndex → 2 ∣ a)
  | .write a data =>
    1 ≤ data.length ∧ unitOf p org16 a < 2 ^ aEff ∧ (org16 = true ∧ p.addrUnitX16 = .wordIndex → 2 ∣ a)
  | .special opcode subcode =>
    opcode < 4 ∧ subcode < 4 ∧
      ¬ (opcode = 0 ∧ (subcode = p.subEwen.toNat ∨ subcode = p.subEwds.toNat ∨ subcode = p.subEral.toNat))
  | _ => True

/-- The profile FINALIZE's operands denote (R120 to R122): the explicit operands, an absent number read as 0 and an
absent set as empty, or the entry with the given name of a catalog whose names are distinct. -/
def Chosen (cat : List CatalogEntry) (name : Option Name) (sizeBytes addrBits : Option Nat) (orgSup : Option OrgSup)
    (size ab : Nat) (sup : OrgSup) : Prop :=
  (name = none ∧ size = sizeBytes.getD 0 ∧ ab = addrBits.getD 0 ∧ sup = orgSup.getD 0) ∨
    (∃ n e, name = some n ∧ sizeBytes = none ∧ addrBits = none ∧ orgSup = none ∧
      catalogDistinct cat = true ∧ e ∈ cat ∧ foldName e.name = foldName n ∧
      size = e.sizeBytes ∧ ab = e.addrBits ∧ sup = e.orgSup)

/-- A command that needs the profile (R162, R190): every one with a header phase on the bus, and the operations. -/
def needsProfile : Instr → Bool
  | .read _ _ | .write _ _ | .special _ _ | .ewen | .ewds | .eral => true
  | .readArray _ | .writeArray | .eraseArray => true
  | .encode _ _ _ _ | .status | .finalize _ _ _ _ _ => false

/-- A FINALIZE ended with a condition: the profile, the counters and everything else are as they were (R127). -/
def FinalizeFailed (c : Cond) (s t : State) : Prop :=
  EndedWith c t ∧ KeepsProfile s t ∧ t.w = s.w ∧ NoChain s t ∧ KeepsSurroundings noByte s t

/-! ### Runs -/

/-- `n` steps, stopping at the first fault or refusal. -/
def runSteps : Nat → State → Host.Outcome State Fault Refusal
  | 0, s => .next s
  | n + 1, s =>
    match step s with
    | .next t => runSteps n t
    | .fault r => .fault r
    | .refused r => .refused r

/-- The chains on the bus port from `s` to `t`, oldest first. -/
def chainsSince (s t : State) : List Chain :=
  ((t.busLog.take (t.busLog.length - s.busLog.length)).map BusEvent.chain).reverse

end Sys2Proof.Machine
end

