-- ==== Sys2Proof/Certificates/Slice0/Obligations.lean ====
section
/-! DEFINITION. The statements for the provers: what the rules of spec/ say that the machine does. -/

open Sys2Proof Sys2Proof.Machine Sys2Proof.Config

/-! ### The encodings -/

/-- ENCODE at the port (41_header_encoder.md R141, R146; R175): the value goes to `W.HDR` and its two big-endian bytes
to `RES`; no chain is issued and no profile is needed. -/
def Obligations.EncodeAnswersTheHeader : Prop :=
  ∀ (opcode payload dummy aEff : Nat) (s : State),
    s.st.busy = false → opcode < 4 → aEff + dummy ≤ 13 →
    ∃ t b0 b1, exec (.encode opcode payload dummy aEff) s = .next t ∧
      t.res = .bytes [b0, b1] ∧
      b0.toNat * 256 + b1.toNat =
        ((opcode ||| 4) <<< (aEff + dummy)) ||| (payload &&& (2 ^ (aEff + dummy) - 1)) ∧
      t.w.hdr.toNat = b0.toNat * 256 + b1.toNat ∧
      EndedWell t ∧ NoChain s t ∧ KeepsProfile s t ∧ KeepsCounters s t ∧ t.w.status = s.w.status ∧
      KeepsSurroundings noByte s t

/-- R148: ENCODE's two bytes, the composed value, its highest set bit, the padding, distinct headers, and the decoder's
inversion, for every input in ENCODE's domain. -/
def Obligations.HeaderValueLaws : Prop :=
  ∀ opcode payload dummy aEff bits : Nat, opcode < 4 → bits = aEff + dummy → bits ≤ 13 →
    (∃ b0 b1 : Byte, be16 (headerValue opcode payload bits) = [b0, b1] ∧
      b0.toNat * 256 + b1.toNat = ((opcode ||| 4) <<< bits) ||| (payload &&& (2 ^ bits - 1)) ∧
      ∀ s : State, s.st.busy = false →
        ∃ t, exec (.encode opcode payload dummy aEff) s = .next t ∧ t.res = .bytes [b0, b1]) ∧
    (headerValue opcode payload bits).testBit (bits + 2) = true ∧
    (∀ j, bits + 3 ≤ j → (headerValue opcode payload bits).testBit j = false) ∧
    (∀ opcode' payload', opcode' < 4 → headerValue opcode' payload' bits = headerValue opcode payload bits →
      opcode' = opcode ∧ payload' &&& (2 ^ bits - 1) = payload &&& (2 ^ bits - 1)) ∧
    decodeHeaderBytes (be16 (headerValue opcode payload bits)) =
      .ok { opcode := opcode, bits := bits, payload := payload &&& (2 ^ bits - 1) }

/-- R144: payload bits at `bits` and above are dropped without a condition, and the payload cannot disturb the prefix. -/
def Obligations.EncodeTruncatesThePayload : Prop :=
  ∀ opcode payload dummy aEff k : Nat, opcode < 4 → aEff + dummy ≤ 13 →
    (∀ s, exec (.encode opcode (payload + k * 2 ^ (aEff + dummy)) dummy aEff) s =
      exec (.encode opcode payload dummy aEff) s) ∧
    (∀ s : State, s.st.busy = false →
      ∃ t, exec (.encode opcode payload dummy aEff) s = .next t ∧ EndedWell t ∧
        t.w.hdr.toNat = headerValue opcode payload (aEff + dummy)) ∧
    headerValue opcode payload (aEff + dummy) / 2 ^ (aEff + dummy) = opcode ||| 4 ∧
    headerValue opcode 0 (aEff + dummy) = (opcode ||| 4) <<< (aEff + dummy) ∧
    headerValue opcode (2 ^ (aEff + dummy) - 1) (aEff + dummy) % 2 ^ (aEff + dummy) = 2 ^ (aEff + dummy) - 1 ∧
    headerValue opcode (2 ^ (aEff + dummy)) (aEff + dummy) = headerValue opcode 0 (aEff + dummy)

/-- R145, D33: ENCODE outside its domain and SPECIAL with an opcode of 4 or more are refused; an `a_eff` below 4 is
accepted by ENCODE. -/
def Obligations.EncoderDomainIsEnforced : Prop :=
  (∀ (opcode payload dummy aEff : Nat) (s : State), s.st.busy = false →
    (4 ≤ opcode ∨ 13 < aEff + dummy) → exec (.encode opcode payload dummy aEff) s = .refused .encodeDomain) ∧
  (∀ (opcode subcode : Nat) (s : State), s.st.busy = false → s.cfg.finalized = true → 4 ≤ opcode →
    exec (.special opcode subcode) s = .refused .encodeDomain) ∧
  (∀ s : State, s.st.busy = false →
    ∃ t, exec (.encode 1 1 0 0) s = .next t ∧ t.res = .bytes [0x00, 0x05] ∧ t.w.hdr = 0x0005)

/-- R103, the other direction: every 16-bit value with a start marker decodes, and encoding what was read gives it
back; below 4 there is no start marker. -/
def Obligations.DecodedHeadersEncodeBack : Prop :=
  ∀ v : Nat, v < 2 ^ 16 →
    (4 ≤ v → ∃ h, decodeH16 v = .ok h ∧ h.opcode < 4 ∧ h.payload < 2 ^ h.bits ∧ h.bits ≤ 13 ∧
      v.testBit (h.bits + 2) = true ∧ v < 2 ^ (h.bits + 3) ∧ headerValue h.opcode h.payload h.bits = v) ∧
    (v < 4 → decodeH16 v = .error .noStartMarker)

/-- Decode and encode agree: the chain of every primitive, with every operand at every value its encoding admits, reads
back as that primitive, for all parameters that keep R7 and every `A_EFF` a profile has (R94 to R99, R103, R105). -/
def Obligations.PrimitiveChainsDecodeBack : Prop :=
  ∀ (p : Params) (org16 : Bool) (aEff : Nat) (i : Instr) (c : Chain),
    CodesDistinct p → 4 ≤ aEff → aEff ≤ 9 → EncodingAdmits p org16 aEff i →
    encodeChain p org16 aEff i = some c → decodeChain p org16 aEff c = .ok i

/-- Words written out from the tables of R92 and R99 decode to their instructions. The five codes behind R99 are
PRESUMED (log entry 3); which row an isolated header is read as, and its one-byte data phase, are the model's choice
(log entry 21). -/
def Obligations.TableWordsDecode : Prop :=
  decodeTableWord 16 0b0000011000000101 = some (.read 5 1) ∧
  decodeTableWord 16 0b0000001010000101 = some (.write 5 [0]) ∧
  decodeTableWord 16 0b0000001001100000 = some .ewen ∧
  decodeTableWord 16 0b0000001000000000 = some .ewds ∧
  decodeTableWord 16 0b0000001001000000 = some .eral ∧
  decodeTableWord 16 0b0000000001001100 = some .ewen ∧
  decodeTableWord 16 0b0000001110100000 = some (.special 3 1) ∧
  decodeTableWord 16 0b1110000000000001 = some (.encode 3 1 0 13)

/-- R172, R93, R61: on the sixteen clocks of a header, `DI` carries `13 - bits` zeros, a one, the opcode's two bits and
the payload's bits, each most significant first. -/
def Obligations.HeaderOnTheWire : Prop :=
  ∀ opcode payload bits : Nat, opcode < 4 → bits ≤ 13 →
    chainDi (chainH (headerValue opcode payload bits)) =
      List.replicate (13 - bits) false ++ [true, opcode.testBit 1, opcode.testBit 0] ++
        (List.range bits).map (fun k => payload.testBit (bits - 1 - k))

/-- R298, R172, R173: the clocks of the four shapes, one `DI` level for each clock, and `DI` low in a receive-only
transfer. -/
def Obligations.ClocksOfTheShapes : Prop :=
  ∀ (v n : Nat) (data : List Byte),
    chainClocks (chainH v) = 16 ∧ chainClocks (chainHW v data) = 16 + 8 * data.length ∧
    chainClocks (chainHR v n) = 16 + 8 * n ∧ chainClocks chainR = 8 ∧
    (chainDi (chainHW v data)).length = chainClocks (chainHW v data) ∧
    (chainDi (chainHR v n)).length = chainClocks (chainHR v n) ∧
    (∀ b ∈ transferDi (rxTransfer n), b = false)

/-- R172, D30: the bus lines over the chain of every primitive: select high over all its clocks with no fall between two
transfers, a low and a high `SCK` level for each clock with `DI` at its bit in both, then `SCK` low and select low, the
lines at rest. That `SCK` is low first (mode 0) is PRESUMED, and that it is low again before select falls is the model's
choice (log entry 36). -/
def Obligations.ChainOnTheWire : Prop :=
  ∀ (p : Params) (org16 : Bool) (aEff : Nat) (i : Instr) (c : Chain), encodeChain p org16 aEff i = some c →
    (chainDi c).length = chainClocks c ∧ (chainTrace c).length = 2 * chainClocks c + 2 ∧
    (∀ k < chainClocks c, ∃ b, (chainDi c)[k]? = some b ∧
      (chainTrace c)[2 * k]? = some { sel := true, sck := false, di := b } ∧
      (chainTrace c)[2 * k + 1]? = some { sel := true, sck := true, di := b }) ∧
    (chainTrace c)[2 * chainClocks c]? = some { sel := true, sck := false, di := false } ∧
    (chainTrace c)[2 * chainClocks c + 1]? = some BusPins.idle

/-- R172, R173, R61, R14: what `DO`, sampled at each clock of a primitive's chain, makes of its receive buffer: the bytes
asked for, from the chain's last clocks, each most significant bit first; what `DO` is at any other clock makes no
difference; and every good answer with the bytes asked for is what some levels of `DO` give. -/
def Obligations.SampledLevelsMakeTheAnswer : Prop :=
  ∀ (p : Params) (org16 : Bool) (aEff : Nat) (i : Instr) (c : Chain), encodeChain p org16 aEff i = some c →
    (∀ levels : List Bool, levels.length = chainClocks c →
      (chainRx c levels).length = rxTotal c ∧
      ∀ k < rxTotal c, ∃ b : Byte, (chainRx c levels)[k]? = some b ∧
        ∀ j < 8, levels[chainClocks c - 8 * rxTotal c + 8 * k + j]? = some (b.getMsbD j)) ∧
    (∀ rx : List Byte, rx.length = rxTotal c →
      ∃ levels : List Bool, levels.length = chainClocks c ∧ chainRx c levels = rx)

/-! ### Reset and the command port -/

/-- R47: the reset values the spec states; and READY is false, which is DEDUCED from R47's words on `W.STATUS`,
'unspecified (in particular not `0xFF`)' (log entry 12), and rests on the zero the model gives that register at
`State.reset` (log entry 10). -/
def Obligations.ResetStateHoldsTheStatedValues : Prop :=
  State.reset.cfg.finalized = false ∧ State.reset.st.busy = false ∧ State.reset.st.done = false ∧
  State.reset.st.cond = .none ∧ State.reset.st.cond.code = 0 ∧ State.reset.st.imgValid = false ∧
  State.reset.w.addr = 0 ∧ State.reset.w.idx = 0 ∧ State.reset.w.pollCnt = 0 ∧ ready State.reset = false ∧
  State.reset.orchState = .idle ∧ State.reset.orchOp = .none ∧ State.reset.pins = .idle

/-- R47, R270, R271: the reset input puts the listed registers at their values and reaches neither `IMG` nor the
collaborator and its device. That it leaves `W.STATUS` at another byte than `0xFF` is DEDUCED from R47's words on that
register (log entry 12). -/
def Obligations.ResetInputSetsTheListedState : Prop :=
  ∀ s : State, s.resetIn = true → s.st.busy = false →
    ∃ t, step s = .next t ∧ t.cfg.finalized = false ∧ t.st.busy = false ∧ t.st.done = false ∧ t.st.cond = .none ∧
      t.st.imgValid = false ∧ t.w.addr = 0 ∧ t.w.idx = 0 ∧ t.w.pollCnt = 0 ∧ t.w.status ≠ 0xFF ∧
      t.orchState = .idle ∧ t.orchOp = .none ∧ t.pins = .idle ∧ t.img = s.img ∧ t.imgLen = s.imgLen ∧
      t.script = s.script ∧ t.busLog = s.busLog ∧ t.par = s.par ∧ t.host = s.host

/-- R272: a reset while a command executes is refused. -/
def Obligations.ResetWhileBusyIsRefused : Prop :=
  ∀ s : State, s.resetIn = true → s.st.busy = true → step s = .refused .resetWhileBusy

/-- A step runs the command at the port: with no reset asserted and no command executing, the step is `exec` of the
host's next command, taken off the host's list; and an instruction given by the bits of the opcode table is run by the very
next step. That a header word stands for a command at the port under a profile is the model's choice (log entries 21, 22). -/
def Obligations.StepRunsThePresentedCommand : Prop :=
  (∀ (s : State) (i : Instr) (rest : List HostAct),
    s.resetIn = false → s.st.busy = false → s.host = .command i :: rest → step s = exec i { s with host := rest }) ∧
  (∀ (s : State) (nbits w : Nat) (i : Instr), decodeTableWord nbits w = some i →
    ∃ t, step (s.withFetchWord nbits w) = exec i t ∧ t.host = s.host ∧ t.st.busy = false ∧
      t.img = s.img ∧ t.par = s.par)

/-- R190, U1 of 93_implementation_defined.md: while a command executes, the port takes nothing: a command has no effect,
and a step leaves the host's actions where they are (that such a command is a next state and no refusal, and that the
host's actions wait in a list, are log entries 14 and 28). -/
def Obligations.BusyPortTakesNothing : Prop :=
  (∀ (i : Instr) (s : State), s.st.busy = true → exec i s = .next s) ∧
  (∀ s t : State, s.st.busy = true → step s = .next t → t.host = s.host)

/-- R270, R43: with nothing to do the machine waits in Idle; an image the host supplies becomes `IMG` and `IMG_LEN` (the
list of the host's actions is the model's, log entry 1). -/
def Obligations.IdleWaitsForTheHost : Prop :=
  (∀ s : State, s.resetIn = false → s.st.busy = false → s.host = [] → step s = .next s) ∧
  (∀ (s : State) (bs : List Byte) (rest : List HostAct),
    s.resetIn = false → s.st.busy = false → s.host = .image bs :: rest →
    ∃ t, step s = .next t ∧ image t = bs ∧ t.imgLen = bs.length ∧ t.host = rest ∧ t.cfg = s.cfg ∧ t.st = s.st ∧
      t.w = s.w ∧ t.busLog = s.busLog)

/-! ### FINALIZE -/

/-- R121: a name beside any explicit field raises ConfigurationConflict, whatever else holds; neither path is no
conflict and fails the size check. -/
def Obligations.NameBesideExplicitFieldConflicts : Prop :=
  (∀ (n : Name) (size ab : Option Nat) (sup : Option OrgSup) (mode : AccessMode) (s : State),
    s.st.busy = false → (size ≠ none ∨ ab ≠ none ∨ sup ≠ none) →
    ∃ t, exec (.finalize (some n) size ab sup mode) s = .next t ∧ FinalizeFailed .configurationConflict s t) ∧
  (∀ (mode : AccessMode) (s : State), s.st.busy = false →
    ∃ t, exec (.finalize none none none none mode) s = .next t ∧ FinalizeFailed .invalidGeometry s t)

/-- R122, U23: with a catalog whose names are distinct after case folding, a name that no entry answers to raises
UnknownCatalogEntry; with any other catalog a lookup is refused, whatever the name (that it is the lookup that is refused
is log entry 26); the match folds ASCII letters only and is exact. -/
def Obligations.CatalogLookup : Prop :=
  (∀ (n : Name) (mode : AccessMode) (s : State), s.st.busy = false →
    (s.par.catalog.map (fun e => foldName e.name)).Nodup → (∀ e ∈ s.par.catalog, foldName e.name ≠ foldName n) →
    ∃ t, exec (.finalize (some n) none none none mode) s = .next t ∧ FinalizeFailed .unknownCatalogEntry s t) ∧
  (∀ (n : Name) (mode : AccessMode) (s : State) (a b c : List CatalogEntry) (d e : CatalogEntry), s.st.busy = false →
    s.par.catalog = a ++ d :: b ++ e :: c → foldName d.name = foldName e.name →
    exec (.finalize (some n) none none none mode) s = .refused .catalogAmbiguous) ∧
  (∀ c : Char, foldChar c = if 'A' ≤ c ∧ c ≤ 'Z' then Char.ofNat (c.toNat + 32) else c)

/-- R123: a size that is not a power of two (zero, or absent) is InvalidGeometry, whatever the other operands. -/
def Obligations.SizeMustBeAPowerOfTwo : Prop :=
  ∀ (name : Option Name) (size? ab? : Option Nat) (sup? : Option OrgSup) (mode : AccessMode) (s : State)
    (size ab : Nat) (sup : OrgSup),
    s.st.busy = false → Chosen s.par.catalog name size? ab? sup? size ab sup → (∀ k, size ≠ 2 ^ k) →
    ∃ t, exec (.finalize name size? ab? sup? mode) s = .next t ∧ FinalizeFailed .invalidGeometry s t

/-- R124: with a good size, a nominal count outside 5 to 9 is InvalidGeometry, whatever the supported set and mode. -/
def Obligations.AddrBitsMustBeFiveToNine : Prop :=
  ∀ (name : Option Name) (size? ab? : Option Nat) (sup? : Option OrgSup) (mode : AccessMode) (s : State)
    (k ab : Nat) (sup : OrgSup),
    s.st.busy = false → Chosen s.par.catalog name size? ab? sup? (2 ^ k) ab sup → (ab < 5 ∨ 9 < ab) →
    ∃ t, exec (.finalize name size? ab? sup? mode) s = .next t ∧ FinalizeFailed .invalidGeometry s t

/-- R125: with a good geometry, a mode outside the supported set is UnsupportedMode. -/
def Obligations.ModeMustBeSupported : Prop :=
  ∀ (name : Option Name) (size? ab? : Option Nat) (sup? : Option OrgSup) (mode : AccessMode) (s : State)
    (k ab : Nat) (sup : OrgSup),
    s.st.busy = false → Chosen s.par.catalog name size? ab? sup? (2 ^ k) ab sup → 5 ≤ ab → ab ≤ 9 →
    (mode = .x8 → sup.getLsbD 0 = false) → (mode = .x16 → sup.getLsbD 1 = false) →
    ∃ t, exec (.finalize name size? ab? sup? mode) s = .next t ∧ FinalizeFailed .unsupportedMode s t

/-- R126, R127: FINALIZE with every check passed commits the six registers, the effective width one less in 16-bit
mode, and nothing else. -/
def Obligations.FinalizeCommitsTheProfile : Prop :=
  ∀ (name : Option Name) (size? ab? : Option Nat) (sup? : Option OrgSup) (mode : AccessMode) (s : State)
    (k ab : Nat) (sup : OrgSup),
    s.st.busy = false → Chosen s.par.catalog name size? ab? sup? (2 ^ k) ab sup → 5 ≤ ab → ab ≤ 9 →
    (mode = .x8 → sup.getLsbD 0 = true) → (mode = .x16 → sup.getLsbD 1 = true) →
    ∃ t, exec (.finalize name size? ab? sup? mode) s = .next t ∧ EndedWell t ∧
      t.cfg.sizeBytes = 2 ^ k ∧ t.cfg.addrBits.toNat = ab ∧ t.cfg.orgSup = sup ∧
      (t.cfg.org16 = true ↔ mode = .x16) ∧
      (mode = .x8 → t.cfg.aEff.toNat = ab) ∧ (mode = .x16 → t.cfg.aEff.toNat = ab - 1) ∧
      t.cfg.finalized = true ∧ t.st.imgValid = s.st.imgValid ∧ t.w = s.w ∧ NoChain s t ∧
      KeepsSurroundings noByte s t

/-- R130: repeating a FINALIZE gives the same profile again; the decrement does not accumulate. -/
def Obligations.RepeatedFinalizeGivesTheSameProfile : Prop :=
  ∀ (name : Option Name) (size ab : Option Nat) (sup : Option OrgSup) (mode : AccessMode) (s t : State),
    exec (.finalize name size ab sup mode) s = .next t →
    ∃ u, exec (.finalize name size ab sup mode) t = .next u ∧ u.cfg = t.cfg

/-! ### The primitives at the port -/

/-- READ (R164, R165, R175): one chain of the header and a receive-only transfer of `length` bytes; the received bytes
in `RES`, or TransferFailed. -/
def Obligations.ReadRuns : Prop :=
  ∀ (a n : Nat) (s : State),
    s.st.busy = false → s.cfg.finalized = true → s.cfg.aEff.toNat ≤ 9 → 1 ≤ n →
    let v := headerValue s.par.opcRead.toNat (readPayloadOf s.par s.cfg.org16 a) (s.cfg.aEff.toNat + 1)
    let c : Chain := [{ tx := some (be16 v), rxLen := 0, len := 2, bits := 8, hz := 100000 },
      { tx := none, rxLen := n, len := n, bits := 8, hz := 100000 }]
    ∃ t ans, exec (.read a n) s = .next t ∧ PortPrimRan c .bytes ans s t ∧
      (∀ rx, ans = .ok rx → rx.length = n) ∧ t.w.hdr.toNat = v ∧ t.w.status = s.w.status

/-- WRITE (R167, R175): one chain of the header and the data; `success`, or TransferFailed. -/
def Obligations.WriteRuns : Prop :=
  ∀ (a : Nat) (data : List Byte) (s : State),
    s.st.busy = false → s.cfg.finalized = true → s.cfg.aEff.toNat ≤ 9 → 1 ≤ data.length →
    let v := headerValue s.par.opcWrite.toNat (unitOf s.par s.cfg.org16 a) s.cfg.aEff.toNat
    let c : Chain := [{ tx := some (be16 v), rxLen := 0, len := 2, bits := 8, hz := 100000 },
      { tx := some data, rxLen := 0, len := data.length, bits := 8, hz := 100000 }]
    ∃ t ans, exec (.write a data) s = .next t ∧ PortPrimRan c (fun _ => .success) ans s t ∧
      t.w.hdr.toNat = v ∧ t.w.status = s.w.status

/-- SPECIAL (R168, R175): one header-only chain, the subcode in the two highest bits of the address field, its higher
bits dropped. -/
def Obligations.SpecialRuns : Prop :=
  ∀ (opcode subcode : Nat) (s : State),
    s.st.busy = false → s.cfg.finalized = true → 4 ≤ s.cfg.aEff.toNat → s.cfg.aEff.toNat ≤ 9 → opcode < 4 →
    let v := (opcode + 4) * 2 ^ s.cfg.aEff.toNat + subcode % 4 * 2 ^ (s.cfg.aEff.toNat - 2)
    let c : Chain := [{ tx := some (be16 v), rxLen := 0, len := 2, bits := 8, hz := 100000 }]
    ∃ t ans, exec (.special opcode subcode) s = .next t ∧ PortPrimRan c (fun _ => .success) ans s t ∧
      t.w.hdr.toNat = v ∧ t.w.status = s.w.status

/-- EWEN, EWDS, ERAL (R105, R169 to R171): each is SPECIAL of opcode 0 and its subcode, and completes. -/
def Obligations.WrappersRun : Prop :=
  ∀ s : State, s.st.busy = false → s.cfg.finalized = true → 4 ≤ s.cfg.aEff.toNat → s.cfg.aEff.toNat ≤ 9 →
    ∀ i sub, (i = .ewen ∧ sub = s.par.subEwen) ∨ (i = .ewds ∧ sub = s.par.subEwds) ∨
      (i = .eral ∧ sub = s.par.subEral) →
    let v := 4 * 2 ^ s.cfg.aEff.toNat + sub.toNat * 2 ^ (s.cfg.aEff.toNat - 2)
    let c : Chain := [{ tx := some (be16 v), rxLen := 0, len := 2, bits := 8, hz := 100000 }]
    exec i s = exec (.special 0 sub.toNat) s ∧
    ∃ t ans, exec i s = .next t ∧ PortPrimRan c (fun _ => .success) ans s t ∧ t.w.hdr.toNat = v ∧
      t.w.status = s.w.status

/-- STATUS (R166, R175): one receive-only chain of one byte and no header, before a FINALIZE as after it; the byte in
`RES` and `W.STATUS`, where READY is seen. -/
def Obligations.StatusRuns : Prop :=
  ∀ s : State, s.st.busy = false →
    let c : Chain := [{ tx := none, rxLen := 1, len := 1, bits := 8, hz := 100000 }]
    ∃ t ans, exec .status s = .next t ∧ PortPrimRan c (fun rx => .byte (rx.headD 0)) ans s t ∧
      t.w.hdr = s.w.hdr ∧
      (∀ b, ans = .ok [b] → t.res = .byte b ∧ t.w.status = b ∧ (ready t = true ↔ b = 0xFF)) ∧
      (∀ rx, ans = .ok rx → ∃ b, rx = [b]) ∧
      (∀ k, ans = .fail k → t.w.status = s.w.status)

/-- R160, R175, R235: every primitive puts exactly its encoding on the bus; where the collaborator answers it, the
primitive ends well with its result, and where the chain fails, with TransferFailed and the failure's cause. -/
def Obligations.PrimitivesIssueTheirEncoding : Prop :=
  ∀ (i : Instr) (s : State) (c : Chain) (rest : List BusAnswer),
    s.st.busy = false → wellFormed i = true →
    (needsProfile i = true → s.cfg.finalized = true ∧ 4 ≤ s.cfg.aEff.toNat ∧ s.cfg.aEff.toNat ≤ 9) →
    encodeChain s.par s.cfg.org16 s.cfg.aEff.toNat i = some c →
    (∀ rx, s.script = .ok rx :: rest → rx.length = rxTotal c → withinLimit s.par c = true →
      ∃ t, exec i s = .next t ∧ EndedWell t ∧ t.res = resultOf i rx ∧ OneChain c (.ok rx) s t) ∧
    (∀ k, s.script = .fail k :: rest →
      ∃ t, exec i s = .next t ∧ EndedWith .transferFailed t ∧ t.st.cause = k ∧ OneChain c (.fail k) s t)

/-- R35, R162, R190: a command that needs the profile is refused before a FINALIZE has succeeded. That it is refused for
the missing profile also where a second refusal applies (READ of length 0, WRITE of no data, SPECIAL of opcode 4 or more)
is the model's choice (log entry 20). -/
def Obligations.CommandsNeedTheProfile : Prop :=
  ∀ (i : Instr) (s : State), needsProfile i = true → s.st.busy = false → s.cfg.finalized = false →
    exec i s = .refused .notFinalized

/-- R174: READ of length 0 and WRITE of no data are refused, with or without a profile; with one, for their length (the
order of the two refusals is the model's, log entry 20). -/
def Obligations.ZeroLengthDataIsRefused : Prop :=
  ∀ (a : Nat) (s : State), s.st.busy = false →
    (∃ r, exec (.read a 0) s = .refused r) ∧ (∃ r, exec (.write a []) s = .refused r) ∧
    (s.cfg.finalized = true →
      exec (.read a 0) s = .refused .zeroLength ∧ exec (.write a []) s = .refused .zeroLength)

/-- R71, R293: an address that does not fit the payload field is truncated without a condition: the command is, in
every respect, the one with the address it wraps to. -/
def Obligations.AddressesWrapSilently : Prop :=
  ∀ (a k n : Nat) (data : List Byte) (s : State), s.cfg.org16 = false →
    (s.par.readPreshift = false →
      exec (.read (a + k * 2 ^ (s.cfg.aEff.toNat + 1)) n) s = exec (.read a n) s) ∧
    exec (.write (a + k * 2 ^ s.cfg.aEff.toNat) data) s = exec (.write a data) s

/-! ### Taking a condition -/

/-- R245: what `raise` writes, and that nothing else changes. -/
def Obligations.RaiseWritesTheOutcomeOnly : Prop :=
  ∀ (c : Cond) (k : Cause) (s : State),
    (raise c k s).st.cond = c ∧ (c = .transferFailed → (raise c k s).st.cause = k) ∧
    (c ≠ .transferFailed → (raise c k s).st.cause = s.st.cause) ∧
    (raise c k s).st.done = false ∧ (raise c k s).orchState = .idle ∧ (raise c k s).orchOp = .none ∧
    (raise c k s).st.busy = false ∧
    (raise c k s).cfg = s.cfg ∧ (raise c k s).img = s.img ∧ (raise c k s).imgLen = s.imgLen ∧
    (raise c k s).st.imgValid = s.st.imgValid ∧ (raise c k s).w = s.w ∧ (raise c k s).res = s.res ∧
    (raise c k s).pins = s.pins ∧ (raise c k s).par = s.par ∧ NoChain s (raise c k s)

/-! ### The operations at the port -/

/-- READ_ARRAY accepted (R192, R193, R208): `ST.IMG_VALID` cleared, Reading from byte offset 0; no chain yet. -/
def Obligations.ReadArrayStartsReading : Prop :=
  ∀ (burst : Bool) (s : State),
    s.st.busy = false → s.cfg.finalized = true → wordSize s ≤ s.cfg.sizeBytes → s.imgLen = s.cfg.sizeBytes →
    ∃ t, exec (.readArray burst) s = .next t ∧ t.st.busy = true ∧ t.st.done = false ∧ t.st.cond = .none ∧
      t.st.imgValid = false ∧ t.orchOp = .read ∧ t.orchState = .reading ∧ t.w.addr = 0 ∧
      stepLen t = (if burst then s.cfg.sizeBytes else wordSize s) ∧
      t.w.idx = s.w.idx ∧ t.w.pollCnt = s.w.pollCnt ∧ t.w.hdr = s.w.hdr ∧ t.w.status = s.w.status ∧
      t.cfg = s.cfg ∧ NoChain s t ∧ KeepsSurroundings noByte s t

/-- WRITE_ARRAY accepted (R197, R208) and ERASE_ARRAY accepted (R206, R208): Enabling; no chain yet. -/
def Obligations.WriteAndEraseStartEnabling : Prop :=
  ∀ s : State, s.st.busy = false → s.cfg.finalized = true →
    ∀ i op, (i = .writeArray ∧ op = .write ∧ wordSize s ≤ s.cfg.sizeBytes ∧ s.imgLen = s.cfg.sizeBytes) ∨
      (i = .eraseArray ∧ op = .erase) →
    ∃ t, exec i s = .next t ∧ t.st.busy = true ∧ t.st.done = false ∧ t.st.cond = .none ∧ t.orchOp = op ∧
      t.orchState = .enabling ∧ t.w = s.w ∧ KeepsProfile s t ∧ NoChain s t ∧ KeepsSurroundings noByte s t

/-- R192, R197, R236: an image of another length raises ImageSizeMismatch before any bus traffic; READ_ARRAY has
cleared `ST.IMG_VALID`, WRITE_ARRAY does not change it. -/
def Obligations.WrongImageLengthIsMismatch : Prop :=
  ∀ s : State, s.st.busy = false → s.cfg.finalized = true → wordSize s ≤ s.cfg.sizeBytes →
    s.imgLen ≠ s.cfg.sizeBytes →
    (∀ burst, ∃ t, exec (.readArray burst) s = .next t ∧ EndedWith .imageSizeMismatch t ∧ t.st.imgValid = false ∧
      t.cfg = s.cfg ∧ t.w = s.w ∧ NoChain s t ∧ KeepsSurroundings noByte s t) ∧
    (∃ t, exec .writeArray s = .next t ∧ EndedWith .imageSizeMismatch t ∧ KeepsProfile s t ∧ t.w = s.w ∧
      NoChain s t ∧ KeepsSurroundings noByte s t)

/-- R64: READ_ARRAY and WRITE_ARRAY are refused where the size is below the word size, whatever the image's length (that
this refusal comes before ImageSizeMismatch is log entry 15). -/
def Obligations.SizeBelowWordIsRefused : Prop :=
  ∀ s : State, s.st.busy = false → s.cfg.finalized = true → s.cfg.sizeBytes < wordSize s →
    (∀ burst, exec (.readArray burst) s = .refused .sizeBelowWord) ∧
    exec .writeArray s = .refused .sizeBelowWord

/-! ### The transitions of R208

A step takes one transition: the granularity is the model's choice, log entry 9. -/

/-- The row Reading (R193, R195, R208): one READ of `STEP` bytes at `W.ADDR`; its bytes are stored there in the order
received and `W.ADDR` advances, to the end of the device and a valid image or to the next step; a failure stores nothing. -/
def Obligations.ReadingTransition : Prop :=
  ∀ s : State, s.Inv → s.resetIn = false → s.orchState = .reading →
    let v := headerValue s.par.opcRead.toNat (readPayloadOf s.par s.cfg.org16 s.w.addr) (s.cfg.aEff.toNat + 1)
    ∃ t ans, step s = .next t ∧ OneChain (chainHR v (stepLen s)) ans s t ∧ AnswerOf (chainHR v (stepLen s)) s ans ∧
      t.cfg = s.cfg ∧ t.w.hdr.toNat = v ∧ t.w.idx = s.w.idx ∧ t.w.pollCnt = s.w.pollCnt ∧ t.w.status = s.w.status ∧
      (∀ rx, ans = .ok rx → t.w.addr = s.w.addr + stepLen s ∧
        (∀ k (h : k < rx.length), readByte t.img (s.w.addr + k) = rx[k]) ∧
        KeepsSurroundings (fun x => s.w.addr ≤ x ∧ x < s.w.addr + stepLen s) s t ∧
        (s.w.addr + stepLen s < s.cfg.sizeBytes → t.orchState = .reading ∧ t.st = s.st ∧ t.orchOp = s.orchOp) ∧
        (s.cfg.sizeBytes ≤ s.w.addr + stepLen s → EndedWell t ∧ t.st.imgValid = true)) ∧
      (∀ k, ans = .fail k → EndedWith .transferFailed t ∧ t.st.cause = k ∧ t.st.imgValid = false ∧
        t.w.addr = s.w.addr ∧ KeepsSurroundings noByte s t)

/-- The row Enabling (R198, R206, R208): one EWEN, then Writing from word 0 or Erasing, by the operation. -/
def Obligations.EnablingTransition : Prop :=
  ∀ s : State, s.Inv → s.resetIn = false → s.orchState = .enabling →
    let c := chainH (4 * 2 ^ s.cfg.aEff.toNat + s.par.subEwen.toNat * 2 ^ (s.cfg.aEff.toNat - 2))
    ∃ t ans, step s = .next t ∧ OneChain c ans s t ∧ AnswerOf c s ans ∧ KeepsProfile s t ∧
      KeepsSurroundings noByte s t ∧ t.w.addr = s.w.addr ∧ t.w.pollCnt = s.w.pollCnt ∧ t.w.status = s.w.status ∧
      (∀ rx, ans = .ok rx → t.st = s.st ∧ t.orchOp = s.orchOp ∧
        (s.orchOp = .write → t.orchState = .writing ∧ t.w.idx = 0) ∧
        (s.orchOp = .erase → t.orchState = .erasing ∧ t.w.idx = s.w.idx)) ∧
      (∀ k, ans = .fail k → EndedWith .transferFailed t ∧ t.st.cause = k ∧ t.w.idx = s.w.idx)

/-- The row Writing (R199, R205, R208): one WRITE of the word's bytes of `IMG`, in ascending order, at byte offset
`W.IDX * WORD_SIZE`, then WaitingReady with no polls counted. -/
def Obligations.WritingTransition : Prop :=
  ∀ s : State, s.Inv → s.resetIn = false → s.orchState = .writing →
    let a := s.w.idx * wordSize s
    let v := headerValue s.par.opcWrite.toNat (unitOf s.par s.cfg.org16 a) s.cfg.aEff.toNat
    let c := chainHW v ((List.range (wordSize s)).map (fun k => readByte s.img (a + k)))
    ∃ t ans, step s = .next t ∧ OneChain c ans s t ∧ AnswerOf c s ans ∧ KeepsProfile s t ∧
      KeepsSurroundings noByte s t ∧ t.w.addr = a ∧ t.w.idx = s.w.idx ∧ t.w.hdr.toNat = v ∧
      t.w.status = s.w.status ∧
      (∀ rx, ans = .ok rx → t.orchState = .waitingReady ∧ t.w.pollCnt = 0 ∧ t.st = s.st ∧ t.orchOp = s.orchOp) ∧
      (∀ k, ans = .fail k → EndedWith .transferFailed t ∧ t.st.cause = k ∧ t.w.pollCnt = s.w.pollCnt)

/-- The row WaitingReady below the poll bound (R200, R202, R208): one STATUS, counted whatever it answers; `0xFF` leads
to the next word or the end, another byte to another poll, a failure to the abort. -/
def Obligations.WaitingTransition : Prop :=
  ∀ s : State, s.Inv → s.resetIn = false → s.orchState = .waitingReady → s.par.pollMax ≠ some s.w.pollCnt →
    ∃ t ans, step s = .next t ∧ OneChain chainR ans s t ∧ AnswerOf chainR s ans ∧ KeepsProfile s t ∧
      KeepsSurroundings noByte s t ∧ t.w.addr = s.w.addr ∧ t.w.hdr = s.w.hdr ∧ t.w.pollCnt = s.w.pollCnt + 1 ∧
      (∀ rx, ans = .ok rx → ∃ b, rx = [b] ∧ t.w.status = b ∧
        (b ≠ 0xFF → t.orchState = .waitingReady ∧ t.w.idx = s.w.idx ∧ t.st = s.st ∧ t.orchOp = s.orchOp) ∧
        (b = 0xFF → t.w.idx = s.w.idx + 1 ∧
          (s.w.idx + 1 < wordCount s → t.orchState = .writing ∧ t.st = s.st ∧ t.orchOp = s.orchOp) ∧
          (s.w.idx + 1 = wordCount s → EndedWell t))) ∧
      (∀ k, ans = .fail k → EndedWith .transferFailed t ∧ t.st.cause = k ∧ t.w.idx = s.w.idx ∧
        t.w.status = s.w.status)

/-- R201, R237, R238: at the poll bound TimedOut is raised instead of another poll, in WaitingReady as in the poll loop
after ERAL (the latch that tells that loop is log entry 23); the working registers keep their values. For a bound of 0,
which R8 does not admit, this is the model's choice (log entry 33). -/
def Obligations.PollBoundRaisesTimedOut : Prop :=
  ∀ s : State, s.st.busy = true → s.resetIn = false → s.par.pollMax = some s.w.pollCnt →
    (s.orchState = .waitingReady ∨ (s.orchState = .erasing ∧ s.erasePolling = true)) →
    ∃ t, step s = .next t ∧ EndedWith .timedOut t ∧ t.w = s.w ∧ NoChain s t ∧ KeepsProfile s t ∧
      KeepsSurroundings noByte s t

/-- The row Erasing before the poll loop (R206, R207, R208): one ERAL, then the end, or, with `ERASE_POLL`, the poll loop
from no polls counted, still in Erasing (the latch and the cleared count are DEDUCED from R207, log entry 23). -/
def Obligations.ErasingTransition : Prop :=
  ∀ s : State, s.Inv → s.resetIn = false → s.orchState = .erasing → s.erasePolling = false →
    let c := chainH (4 * 2 ^ s.cfg.aEff.toNat + s.par.subEral.toNat * 2 ^ (s.cfg.aEff.toNat - 2))
    ∃ t ans, step s = .next t ∧ OneChain c ans s t ∧ AnswerOf c s ans ∧ KeepsProfile s t ∧
      KeepsSurroundings noByte s t ∧ t.w.addr = s.w.addr ∧ t.w.idx = s.w.idx ∧ t.w.status = s.w.status ∧
      (∀ rx, ans = .ok rx →
        (s.par.erasePoll = false → EndedWell t ∧ t.w.pollCnt = s.w.pollCnt) ∧
        (s.par.erasePoll = true → t.orchState = .erasing ∧ t.erasePolling = true ∧ t.w.pollCnt = 0 ∧ t.st = s.st)) ∧
      (∀ k, ans = .fail k → EndedWith .transferFailed t ∧ t.st.cause = k)

/-- The poll loop after ERAL below the bound (R207, R200 to R202): one STATUS, counted whatever it answers; `0xFF` ends
ERASE_ARRAY, another byte leads to another poll, a failure to the abort. The latch `erasePolling` is a DESIGN CHOICE, and
that this loop counts in `W.POLLCNT` is DEDUCED from R207 (log entry 23). -/
def Obligations.ErasePollTransition : Prop :=
  ∀ s : State, s.Inv → s.resetIn = false → s.orchState = .erasing → s.erasePolling = true →
    s.par.pollMax ≠ some s.w.pollCnt →
    ∃ t ans, step s = .next t ∧ OneChain chainR ans s t ∧ AnswerOf chainR s ans ∧ KeepsProfile s t ∧
      KeepsSurroundings noByte s t ∧ t.w.addr = s.w.addr ∧ t.w.idx = s.w.idx ∧ t.w.hdr = s.w.hdr ∧
      t.w.pollCnt = s.w.pollCnt + 1 ∧
      (∀ rx, ans = .ok rx → ∃ b, rx = [b] ∧ t.w.status = b ∧
        (b ≠ 0xFF → t.orchState = .erasing ∧ t.erasePolling = true ∧ t.st = s.st ∧ t.orchOp = s.orchOp) ∧
        (b = 0xFF → EndedWell t)) ∧
      (∀ k, ans = .fail k → EndedWith .transferFailed t ∧ t.st.cause = k ∧ t.w.status = s.w.status)

/-! ### Runs

How many steps a run takes is the model's choice: one transition a step, log entry 9. The collaborator's answers come
from the list `script`, log entries 7 and 32. -/

/-- R194, R196: a burst READ_ARRAY of a device whose whole array one transfer delivers ends after one chain, with `IMG`
the received bytes. -/
def Obligations.BurstReadFillsTheImage : Prop :=
  ∀ (s : State) (rx : List Byte) (rest : List BusAnswer),
    s.Inv → s.resetIn = false → s.st.busy = false → s.cfg.finalized = true → wordSize s ≤ s.cfg.sizeBytes →
    s.imgLen = s.cfg.sizeBytes → s.par.maxXfer = none →
    s.script = .ok rx :: rest → rx.length = s.cfg.sizeBytes →
    ∃ t u, exec (.readArray true) s = .next t ∧ runSteps 1 t = .next u ∧ EndedWell u ∧ u.st.imgValid = true ∧
      image u = rx ∧ u.script = rest ∧
      chainsSince s u = [chainHR (headerValue s.par.opcRead.toNat 0 (s.cfg.aEff.toNat + 1)) s.cfg.sizeBytes]

/-- R193, R196: a stepped READ_ARRAY whose every READ is answered ends after `SIZE_BYTES / WORD_SIZE` chains, with `IMG`
the concatenation of the received bytes in address order. That this takes as many steps as chains is log entry 9. -/
def Obligations.SteppedReadFillsTheImage : Prop :=
  ∀ (s : State) (words : List (List Byte)) (rest : List BusAnswer),
    s.Inv → s.resetIn = false → s.st.busy = false → s.cfg.finalized = true → wordSize s ≤ s.cfg.sizeBytes →
    s.imgLen = s.cfg.sizeBytes → s.par.maxXfer = none →
    s.script = words.map .ok ++ rest → words.length = wordCount s → (∀ rx ∈ words, rx.length = wordSize s) →
    ∃ t u, exec (.readArray false) s = .next t ∧ runSteps (wordCount s) t = .next u ∧ EndedWell u ∧
      u.st.imgValid = true ∧ image u = words.flatten ∧ u.script = rest ∧
      chainsSince s u = (List.range (wordCount s)).map (fun i =>
        chainHR (headerValue s.par.opcRead.toNat (readPayloadOf s.par s.cfg.org16 (i * wordSize s))
          (s.cfg.aEff.toNat + 1)) (wordSize s))

/-- R198 to R200, R203: a WRITE_ARRAY whose device is ready at every first poll ends after EWEN and, for each word in
ascending order, one WRITE and one STATUS. That this takes as many steps as chains is log entry 9; the bound of 0 that is
shut out is none of R8's values (log entry 33). -/
def Obligations.WriteArrayWithReadyDevice : Prop :=
  ∀ (s : State) (rest : List BusAnswer),
    s.Inv → s.resetIn = false → s.st.busy = false → s.cfg.finalized = true → wordSize s ≤ s.cfg.sizeBytes →
    s.imgLen = s.cfg.sizeBytes → s.par.maxXfer = none → s.par.pollMax ≠ some 0 →
    s.script = .ok [] :: (List.replicate (wordCount s) [BusAnswer.ok [], .ok [0xFF]]).flatten ++ rest →
    ∃ t u, exec .writeArray s = .next t ∧ runSteps (1 + 2 * wordCount s) t = .next u ∧ EndedWell u ∧
      u.w.idx = wordCount s ∧ image u = image s ∧ u.st.imgValid = s.st.imgValid ∧ u.script = rest ∧
      chainsSince s u =
        chainH (4 * 2 ^ s.cfg.aEff.toNat + s.par.subEwen.toNat * 2 ^ (s.cfg.aEff.toNat - 2)) ::
          (List.range (wordCount s)).flatMap (fun i =>
            [chainHW (headerValue s.par.opcWrite.toNat (unitOf s.par s.cfg.org16 (i * wordSize s))
                s.cfg.aEff.toNat) (readBytes s.img (i * wordSize s) (wordSize s)), chainR])

/-- R201, R287: with no poll bound, a device that answers any number `n` of polls with another byte than `0xFF` keeps
WRITE_ARRAY in WaitingReady for `n` steps, busy, every poll counted. -/
def Obligations.UnboundedPollNeverGivesUp : Prop :=
  ∀ (s : State) (bytes : List Byte) (rest : List BusAnswer),
    s.Inv → s.resetIn = false → s.orchState = .waitingReady → s.par.pollMax = none → s.par.maxXfer = none →
    s.script = bytes.map (fun b => .ok [b]) ++ rest → (∀ b ∈ bytes, b ≠ 0xFF) →
    ∃ t, runSteps bytes.length s = .next t ∧ t.orchState = .waitingReady ∧ t.st = s.st ∧ t.w.idx = s.w.idx ∧
      t.w.pollCnt = s.w.pollCnt + bytes.length ∧ t.script = rest ∧
      chainsSince s t = List.replicate bytes.length chainR

/-- R201, R205: with a finite bound `N`, a word whose `N` polls all answer another byte than `0xFF` ends WRITE_ARRAY with
TimedOut after exactly `N` STATUS chains, and `W.IDX` names the word. The bound 0 is none of R8's values (log entry
33). -/
def Obligations.BoundedPollTimesOut : Prop :=
  ∀ (s : State) (bytes : List Byte) (rest : List BusAnswer),
    s.Inv → s.resetIn = false → s.orchState = .waitingReady → s.w.pollCnt = 0 →
    s.par.pollMax = some bytes.length → s.par.maxXfer = none →
    s.script = bytes.map (fun b => .ok [b]) ++ rest → (∀ b ∈ bytes, b ≠ 0xFF) →
    ∃ t, runSteps (bytes.length + 1) s = .next t ∧ EndedWith .timedOut t ∧ t.w.idx = s.w.idx ∧
      t.w.pollCnt = bytes.length ∧ chainsSince s t = List.replicate bytes.length chainR

/-- R206: by default ERASE_ARRAY ends after two chains, EWEN and ERAL, without polling. -/
def Obligations.EraseArrayEndsAfterTwoChains : Prop :=
  ∀ (s : State) (rest : List BusAnswer),
    s.Inv → s.resetIn = false → s.st.busy = false → s.cfg.finalized = true → s.par.maxXfer = none →
    s.par.erasePoll = false → s.script = .ok [] :: .ok [] :: rest →
    ∃ t u, exec .eraseArray s = .next t ∧ runSteps 2 t = .next u ∧ EndedWell u ∧ u.img = s.img ∧
      u.st.imgValid = s.st.imgValid ∧ u.w.pollCnt = s.w.pollCnt ∧
      chainsSince s u =
        [chainH (4 * 2 ^ s.cfg.aEff.toNat + s.par.subEwen.toNat * 2 ^ (s.cfg.aEff.toNat - 2)),
         chainH (4 * 2 ^ s.cfg.aEff.toNat + s.par.subEral.toNat * 2 ^ (s.cfg.aEff.toNat - 2))]

/-! ### The machine as a whole -/

/-- The invariant holds at reset; the values behind it that R47 leaves unspecified are the model's (log entry 10). -/
def Obligations.ResetMeetsTheInvariant : Prop := State.reset.Inv

/-- Every step keeps the invariant: the image's canonical form, a legal profile, a sequencer state that fits its
registers and the model's two latches (log entries 23, 24), outcome flags that exclude each other, an idle bus between
chains. -/
def Obligations.StepKeepsTheInvariant : Prop :=
  ∀ s t : State, s.Inv → step s = .next t → t.Inv

/-- R66, R208: from a legal state no step faults, and a command that executes always has a next transition. -/
def Obligations.LegalStatesNeverFault : Prop :=
  ∀ s : State, s.Inv →
    (∀ f, step s ≠ .fault f) ∧ (s.resetIn = false → s.st.busy = true → ∃ t, step s = .next t)

/-- R38, R245: a command that has ended shows exactly one outcome, the good end or one condition, whether it ended in the
step that accepted it or in a transition of R208. -/
def Obligations.EndedCommandsShowOneOutcome : Prop :=
  ∀ s t : State, s.Inv → s.resetIn = false →
    (s.st.busy = true ∨ ∃ i rest, s.host = .command i :: rest) → step s = .next t → t.st.busy = false →
    (EndedWell t ∧ ∀ c, c ≠ .none → ¬ EndedWith c t) ∨ (∃ c, c ≠ .none ∧ EndedWith c t ∧ ¬ EndedWell t)

/-- R36: only FINALIZE and a reset write the configuration registers. -/
def Obligations.OnlyFinalizeWritesTheProfile : Prop :=
  ∀ s t : State, step s = .next t → s.resetIn = false →
    (∀ name size ab sup mode, s.host.head? ≠ some (.command (.finalize name size ab sup mode))) → t.cfg = s.cfg

/-- A step issues at most one chain, and the chains of the past stay as they were: R74 and R75 order the chains with at
most one in flight; that a step is no longer than one chain is the model's choice (log entry 9), and so is the list of
answers a chain uses up (log entries 7 and 32). -/
def Obligations.OneChainAtMostPerStep : Prop :=
  ∀ s t : State, step s = .next t →
    (t.busLog = s.busLog ∧ t.script = s.script) ∨
      ∃ c a, t.busLog = { chain := c, answer := a } :: s.busLog ∧ t.script = s.script.tail ∧ AnswerOf c s a

/-- R43, R21: `IMG` is written only by READ_ARRAY's stores and by the host, and no step changes the parameters. -/
def Obligations.ImageWritersAndParameters : Prop :=
  ∀ s t : State, step s = .next t →
    t.par = s.par ∧
    (t.img ≠ s.img ∨ t.imgLen ≠ s.imgLen →
      (s.st.busy = true ∧ s.orchState = .reading ∧ t.imgLen = s.imgLen) ∨
      (s.st.busy = false ∧ ∃ bs, s.host.head? = some (.image bs) ∧ image t = bs))

/-- R204, R206: no operation issues EWDS: with codes that keep R7, the chain a step of an executing command issues
never reads back as EWDS. -/
def Obligations.OperationsNeverDisableWrites : Prop :=
  ∀ s t : State, s.Inv → CodesDistinct s.par → s.resetIn = false → s.st.busy = true → step s = .next t →
    ∀ c a, t.busLog = { chain := c, answer := a } :: s.busLog →
      decodeChain s.par s.cfg.org16 s.cfg.aEff.toNat c ≠ .ok .ewds
end

