-- ==== Sys2Proof/Laws/State.lean ====
section
/-! SUPPORT. One lemma per field per named update of the state, true by rfl: what each update writes and what it leaves. -/

namespace Sys2Proof.Machine

open Sys2Proof Config

variable (s : State)

@[simp] theorem setHdr_cfg (v : Nat) : (setHdr v s).cfg = s.cfg := rfl
@[simp] theorem setHdr_st (v : Nat) : (setHdr v s).st = s.st := rfl
@[simp] theorem setHdr_w_addr (v : Nat) : (setHdr v s).w.addr = s.w.addr := rfl
@[simp] theorem setHdr_w_idx (v : Nat) : (setHdr v s).w.idx = s.w.idx := rfl
@[simp] theorem setHdr_w_hdr (v : Nat) : (setHdr v s).w.hdr = BitVec.ofNat 16 v := rfl
@[simp] theorem setHdr_w_status (v : Nat) : (setHdr v s).w.status = s.w.status := rfl
@[simp] theorem setHdr_w_pollCnt (v : Nat) : (setHdr v s).w.pollCnt = s.w.pollCnt := rfl
@[simp] theorem setHdr_orchState (v : Nat) : (setHdr v s).orchState = s.orchState := rfl
@[simp] theorem setHdr_orchOp (v : Nat) : (setHdr v s).orchOp = s.orchOp := rfl
@[simp] theorem setHdr_img (v : Nat) : (setHdr v s).img = s.img := rfl
@[simp] theorem setHdr_imgLen (v : Nat) : (setHdr v s).imgLen = s.imgLen := rfl
@[simp] theorem setHdr_res (v : Nat) : (setHdr v s).res = s.res := rfl
@[simp] theorem setHdr_pins (v : Nat) : (setHdr v s).pins = s.pins := rfl
@[simp] theorem setHdr_burst (v : Nat) : (setHdr v s).burst = s.burst := rfl
@[simp] theorem setHdr_erasePolling (v : Nat) : (setHdr v s).erasePolling = s.erasePolling := rfl
@[simp] theorem setHdr_resetIn (v : Nat) : (setHdr v s).resetIn = s.resetIn := rfl
@[simp] theorem setHdr_host (v : Nat) : (setHdr v s).host = s.host := rfl
@[simp] theorem setHdr_script (v : Nat) : (setHdr v s).script = s.script := rfl
@[simp] theorem setHdr_busLog (v : Nat) : (setHdr v s).busLog = s.busLog := rfl
@[simp] theorem setHdr_par (v : Nat) : (setHdr v s).par = s.par := rfl
@[simp] theorem setHdr_nonce (v : Nat) : (setHdr v s).nonce = s.nonce := rfl

@[simp] theorem setStatus_cfg (b : Byte) : (setStatus b s).cfg = s.cfg := rfl
@[simp] theorem setStatus_st (b : Byte) : (setStatus b s).st = s.st := rfl
@[simp] theorem setStatus_w_addr (b : Byte) : (setStatus b s).w.addr = s.w.addr := rfl
@[simp] theorem setStatus_w_idx (b : Byte) : (setStatus b s).w.idx = s.w.idx := rfl
@[simp] theorem setStatus_w_hdr (b : Byte) : (setStatus b s).w.hdr = s.w.hdr := rfl
@[simp] theorem setStatus_w_status (b : Byte) : (setStatus b s).w.status = b := rfl
@[simp] theorem setStatus_w_pollCnt (b : Byte) : (setStatus b s).w.pollCnt = s.w.pollCnt := rfl
@[simp] theorem setStatus_orchState (b : Byte) : (setStatus b s).orchState = s.orchState := rfl
@[simp] theorem setStatus_orchOp (b : Byte) : (setStatus b s).orchOp = s.orchOp := rfl
@[simp] theorem setStatus_img (b : Byte) : (setStatus b s).img = s.img := rfl
@[simp] theorem setStatus_imgLen (b : Byte) : (setStatus b s).imgLen = s.imgLen := rfl
@[simp] theorem setStatus_res (b : Byte) : (setStatus b s).res = s.res := rfl
@[simp] theorem setStatus_pins (b : Byte) : (setStatus b s).pins = s.pins := rfl
@[simp] theorem setStatus_burst (b : Byte) : (setStatus b s).burst = s.burst := rfl
@[simp] theorem setStatus_erasePolling (b : Byte) : (setStatus b s).erasePolling = s.erasePolling := rfl
@[simp] theorem setStatus_resetIn (b : Byte) : (setStatus b s).resetIn = s.resetIn := rfl
@[simp] theorem setStatus_host (b : Byte) : (setStatus b s).host = s.host := rfl
@[simp] theorem setStatus_script (b : Byte) : (setStatus b s).script = s.script := rfl
@[simp] theorem setStatus_busLog (b : Byte) : (setStatus b s).busLog = s.busLog := rfl
@[simp] theorem setStatus_par (b : Byte) : (setStatus b s).par = s.par := rfl
@[simp] theorem setStatus_nonce (b : Byte) : (setStatus b s).nonce = s.nonce := rfl

@[simp] theorem setAddr_cfg (a : Nat) : (setAddr a s).cfg = s.cfg := rfl
@[simp] theorem setAddr_st (a : Nat) : (setAddr a s).st = s.st := rfl
@[simp] theorem setAddr_w_addr (a : Nat) : (setAddr a s).w.addr = a := rfl
@[simp] theorem setAddr_w_idx (a : Nat) : (setAddr a s).w.idx = s.w.idx := rfl
@[simp] theorem setAddr_w_hdr (a : Nat) : (setAddr a s).w.hdr = s.w.hdr := rfl
@[simp] theorem setAddr_w_status (a : Nat) : (setAddr a s).w.status = s.w.status := rfl
@[simp] theorem setAddr_w_pollCnt (a : Nat) : (setAddr a s).w.pollCnt = s.w.pollCnt := rfl
@[simp] theorem setAddr_orchState (a : Nat) : (setAddr a s).orchState = s.orchState := rfl
@[simp] theorem setAddr_orchOp (a : Nat) : (setAddr a s).orchOp = s.orchOp := rfl
@[simp] theorem setAddr_img (a : Nat) : (setAddr a s).img = s.img := rfl
@[simp] theorem setAddr_imgLen (a : Nat) : (setAddr a s).imgLen = s.imgLen := rfl
@[simp] theorem setAddr_res (a : Nat) : (setAddr a s).res = s.res := rfl
@[simp] theorem setAddr_pins (a : Nat) : (setAddr a s).pins = s.pins := rfl
@[simp] theorem setAddr_burst (a : Nat) : (setAddr a s).burst = s.burst := rfl
@[simp] theorem setAddr_erasePolling (a : Nat) : (setAddr a s).erasePolling = s.erasePolling := rfl
@[simp] theorem setAddr_resetIn (a : Nat) : (setAddr a s).resetIn = s.resetIn := rfl
@[simp] theorem setAddr_host (a : Nat) : (setAddr a s).host = s.host := rfl
@[simp] theorem setAddr_script (a : Nat) : (setAddr a s).script = s.script := rfl
@[simp] theorem setAddr_busLog (a : Nat) : (setAddr a s).busLog = s.busLog := rfl
@[simp] theorem setAddr_par (a : Nat) : (setAddr a s).par = s.par := rfl
@[simp] theorem setAddr_nonce (a : Nat) : (setAddr a s).nonce = s.nonce := rfl

@[simp] theorem setIdx_cfg (i : Nat) : (setIdx i s).cfg = s.cfg := rfl
@[simp] theorem setIdx_st (i : Nat) : (setIdx i s).st = s.st := rfl
@[simp] theorem setIdx_w_addr (i : Nat) : (setIdx i s).w.addr = s.w.addr := rfl
@[simp] theorem setIdx_w_idx (i : Nat) : (setIdx i s).w.idx = i := rfl
@[simp] theorem setIdx_w_hdr (i : Nat) : (setIdx i s).w.hdr = s.w.hdr := rfl
@[simp] theorem setIdx_w_status (i : Nat) : (setIdx i s).w.status = s.w.status := rfl
@[simp] theorem setIdx_w_pollCnt (i : Nat) : (setIdx i s).w.pollCnt = s.w.pollCnt := rfl
@[simp] theorem setIdx_orchState (i : Nat) : (setIdx i s).orchState = s.orchState := rfl
@[simp] theorem setIdx_orchOp (i : Nat) : (setIdx i s).orchOp = s.orchOp := rfl
@[simp] theorem setIdx_img (i : Nat) : (setIdx i s).img = s.img := rfl
@[simp] theorem setIdx_imgLen (i : Nat) : (setIdx i s).imgLen = s.imgLen := rfl
@[simp] theorem setIdx_res (i : Nat) : (setIdx i s).res = s.res := rfl
@[simp] theorem setIdx_pins (i : Nat) : (setIdx i s).pins = s.pins := rfl
@[simp] theorem setIdx_burst (i : Nat) : (setIdx i s).burst = s.burst := rfl
@[simp] theorem setIdx_erasePolling (i : Nat) : (setIdx i s).erasePolling = s.erasePolling := rfl
@[simp] theorem setIdx_resetIn (i : Nat) : (setIdx i s).resetIn = s.resetIn := rfl
@[simp] theorem setIdx_host (i : Nat) : (setIdx i s).host = s.host := rfl
@[simp] theorem setIdx_script (i : Nat) : (setIdx i s).script = s.script := rfl
@[simp] theorem setIdx_busLog (i : Nat) : (setIdx i s).busLog = s.busLog := rfl
@[simp] theorem setIdx_par (i : Nat) : (setIdx i s).par = s.par := rfl
@[simp] theorem setIdx_nonce (i : Nat) : (setIdx i s).nonce = s.nonce := rfl

@[simp] theorem setPollCnt_cfg (n : Nat) : (setPollCnt n s).cfg = s.cfg := rfl
@[simp] theorem setPollCnt_st (n : Nat) : (setPollCnt n s).st = s.st := rfl
@[simp] theorem setPollCnt_w_addr (n : Nat) : (setPollCnt n s).w.addr = s.w.addr := rfl
@[simp] theorem setPollCnt_w_idx (n : Nat) : (setPollCnt n s).w.idx = s.w.idx := rfl
@[simp] theorem setPollCnt_w_hdr (n : Nat) : (setPollCnt n s).w.hdr = s.w.hdr := rfl
@[simp] theorem setPollCnt_w_status (n : Nat) : (setPollCnt n s).w.status = s.w.status := rfl
@[simp] theorem setPollCnt_w_pollCnt (n : Nat) : (setPollCnt n s).w.pollCnt = n := rfl
@[simp] theorem setPollCnt_orchState (n : Nat) : (setPollCnt n s).orchState = s.orchState := rfl
@[simp] theorem setPollCnt_orchOp (n : Nat) : (setPollCnt n s).orchOp = s.orchOp := rfl
@[simp] theorem setPollCnt_img (n : Nat) : (setPollCnt n s).img = s.img := rfl
@[simp] theorem setPollCnt_imgLen (n : Nat) : (setPollCnt n s).imgLen = s.imgLen := rfl
@[simp] theorem setPollCnt_res (n : Nat) : (setPollCnt n s).res = s.res := rfl
@[simp] theorem setPollCnt_pins (n : Nat) : (setPollCnt n s).pins = s.pins := rfl
@[simp] theorem setPollCnt_burst (n : Nat) : (setPollCnt n s).burst = s.burst := rfl
@[simp] theorem setPollCnt_erasePolling (n : Nat) : (setPollCnt n s).erasePolling = s.erasePolling := rfl
@[simp] theorem setPollCnt_resetIn (n : Nat) : (setPollCnt n s).resetIn = s.resetIn := rfl
@[simp] theorem setPollCnt_host (n : Nat) : (setPollCnt n s).host = s.host := rfl
@[simp] theorem setPollCnt_script (n : Nat) : (setPollCnt n s).script = s.script := rfl
@[simp] theorem setPollCnt_busLog (n : Nat) : (setPollCnt n s).busLog = s.busLog := rfl
@[simp] theorem setPollCnt_par (n : Nat) : (setPollCnt n s).par = s.par := rfl
@[simp] theorem setPollCnt_nonce (n : Nat) : (setPollCnt n s).nonce = s.nonce := rfl

@[simp] theorem goto_cfg (q : OrchState) : (goto q s).cfg = s.cfg := rfl
@[simp] theorem goto_st (q : OrchState) : (goto q s).st = s.st := rfl
@[simp] theorem goto_w (q : OrchState) : (goto q s).w = s.w := rfl
@[simp] theorem goto_orchState (q : OrchState) : (goto q s).orchState = q := rfl
@[simp] theorem goto_orchOp (q : OrchState) : (goto q s).orchOp = s.orchOp := rfl
@[simp] theorem goto_img (q : OrchState) : (goto q s).img = s.img := rfl
@[simp] theorem goto_imgLen (q : OrchState) : (goto q s).imgLen = s.imgLen := rfl
@[simp] theorem goto_res (q : OrchState) : (goto q s).res = s.res := rfl
@[simp] theorem goto_pins (q : OrchState) : (goto q s).pins = s.pins := rfl
@[simp] theorem goto_burst (q : OrchState) : (goto q s).burst = s.burst := rfl
@[simp] theorem goto_erasePolling (q : OrchState) : (goto q s).erasePolling = s.erasePolling := rfl
@[simp] theorem goto_resetIn (q : OrchState) : (goto q s).resetIn = s.resetIn := rfl
@[simp] theorem goto_host (q : OrchState) : (goto q s).host = s.host := rfl
@[simp] theorem goto_script (q : OrchState) : (goto q s).script = s.script := rfl
@[simp] theorem goto_busLog (q : OrchState) : (goto q s).busLog = s.busLog := rfl
@[simp] theorem goto_par (q : OrchState) : (goto q s).par = s.par := rfl
@[simp] theorem goto_nonce (q : OrchState) : (goto q s).nonce = s.nonce := rfl

@[simp] theorem setImgValid_cfg (b : Bool) : (setImgValid b s).cfg = s.cfg := rfl
@[simp] theorem setImgValid_st_busy (b : Bool) : (setImgValid b s).st.busy = s.st.busy := rfl
@[simp] theorem setImgValid_st_done (b : Bool) : (setImgValid b s).st.done = s.st.done := rfl
@[simp] theorem setImgValid_st_cond (b : Bool) : (setImgValid b s).st.cond = s.st.cond := rfl
@[simp] theorem setImgValid_st_cause (b : Bool) : (setImgValid b s).st.cause = s.st.cause := rfl
@[simp] theorem setImgValid_st_imgValid (b : Bool) : (setImgValid b s).st.imgValid = b := rfl
@[simp] theorem setImgValid_w (b : Bool) : (setImgValid b s).w = s.w := rfl
@[simp] theorem setImgValid_orchState (b : Bool) : (setImgValid b s).orchState = s.orchState := rfl
@[simp] theorem setImgValid_orchOp (b : Bool) : (setImgValid b s).orchOp = s.orchOp := rfl
@[simp] theorem setImgValid_img (b : Bool) : (setImgValid b s).img = s.img := rfl
@[simp] theorem setImgValid_imgLen (b : Bool) : (setImgValid b s).imgLen = s.imgLen := rfl
@[simp] theorem setImgValid_res (b : Bool) : (setImgValid b s).res = s.res := rfl
@[simp] theorem setImgValid_pins (b : Bool) : (setImgValid b s).pins = s.pins := rfl
@[simp] theorem setImgValid_burst (b : Bool) : (setImgValid b s).burst = s.burst := rfl
@[simp] theorem setImgValid_erasePolling (b : Bool) : (setImgValid b s).erasePolling = s.erasePolling := rfl
@[simp] theorem setImgValid_resetIn (b : Bool) : (setImgValid b s).resetIn = s.resetIn := rfl
@[simp] theorem setImgValid_host (b : Bool) : (setImgValid b s).host = s.host := rfl
@[simp] theorem setImgValid_script (b : Bool) : (setImgValid b s).script = s.script := rfl
@[simp] theorem setImgValid_busLog (b : Bool) : (setImgValid b s).busLog = s.busLog := rfl
@[simp] theorem setImgValid_par (b : Bool) : (setImgValid b s).par = s.par := rfl
@[simp] theorem setImgValid_nonce (b : Bool) : (setImgValid b s).nonce = s.nonce := rfl

@[simp] theorem setRes_cfg (v : ResVal) : (setRes v s).cfg = s.cfg := rfl
@[simp] theorem setRes_st (v : ResVal) : (setRes v s).st = s.st := rfl
@[simp] theorem setRes_w (v : ResVal) : (setRes v s).w = s.w := rfl
@[simp] theorem setRes_orchState (v : ResVal) : (setRes v s).orchState = s.orchState := rfl
@[simp] theorem setRes_orchOp (v : ResVal) : (setRes v s).orchOp = s.orchOp := rfl
@[simp] theorem setRes_img (v : ResVal) : (setRes v s).img = s.img := rfl
@[simp] theorem setRes_imgLen (v : ResVal) : (setRes v s).imgLen = s.imgLen := rfl
@[simp] theorem setRes_res (v : ResVal) : (setRes v s).res = v := rfl
@[simp] theorem setRes_pins (v : ResVal) : (setRes v s).pins = s.pins := rfl
@[simp] theorem setRes_burst (v : ResVal) : (setRes v s).burst = s.burst := rfl
@[simp] theorem setRes_erasePolling (v : ResVal) : (setRes v s).erasePolling = s.erasePolling := rfl
@[simp] theorem setRes_resetIn (v : ResVal) : (setRes v s).resetIn = s.resetIn := rfl
@[simp] theorem setRes_host (v : ResVal) : (setRes v s).host = s.host := rfl
@[simp] theorem setRes_script (v : ResVal) : (setRes v s).script = s.script := rfl
@[simp] theorem setRes_busLog (v : ResVal) : (setRes v s).busLog = s.busLog := rfl
@[simp] theorem setRes_par (v : ResVal) : (setRes v s).par = s.par := rfl
@[simp] theorem setRes_nonce (v : ResVal) : (setRes v s).nonce = s.nonce := rfl

@[simp] theorem accept_cfg (op : OrchOp) : (accept op s).cfg = s.cfg := rfl
@[simp] theorem accept_st_busy (op : OrchOp) : (accept op s).st.busy = true := rfl
@[simp] theorem accept_st_done (op : OrchOp) : (accept op s).st.done = false := rfl
@[simp] theorem accept_st_cond (op : OrchOp) : (accept op s).st.cond = .none := rfl
@[simp] theorem accept_st_cause (op : OrchOp) : (accept op s).st.cause = Config.unspecCause s.nonce := rfl
@[simp] theorem accept_st_imgValid (op : OrchOp) : (accept op s).st.imgValid = s.st.imgValid := rfl
@[simp] theorem accept_w (op : OrchOp) : (accept op s).w = s.w := rfl
@[simp] theorem accept_orchState (op : OrchOp) : (accept op s).orchState = s.orchState := rfl
@[simp] theorem accept_orchOp (op : OrchOp) : (accept op s).orchOp = op := rfl
@[simp] theorem accept_img (op : OrchOp) : (accept op s).img = s.img := rfl
@[simp] theorem accept_imgLen (op : OrchOp) : (accept op s).imgLen = s.imgLen := rfl
@[simp] theorem accept_res (op : OrchOp) : (accept op s).res = Config.unspecRes s.nonce := rfl
@[simp] theorem accept_pins (op : OrchOp) : (accept op s).pins = s.pins := rfl
@[simp] theorem accept_burst (op : OrchOp) : (accept op s).burst = s.burst := rfl
@[simp] theorem accept_erasePolling (op : OrchOp) : (accept op s).erasePolling = s.erasePolling := rfl
@[simp] theorem accept_resetIn (op : OrchOp) : (accept op s).resetIn = s.resetIn := rfl
@[simp] theorem accept_host (op : OrchOp) : (accept op s).host = s.host := rfl
@[simp] theorem accept_script (op : OrchOp) : (accept op s).script = s.script := rfl
@[simp] theorem accept_busLog (op : OrchOp) : (accept op s).busLog = s.busLog := rfl
@[simp] theorem accept_par (op : OrchOp) : (accept op s).par = s.par := rfl
@[simp] theorem accept_nonce (op : OrchOp) : (accept op s).nonce = s.nonce + 1 := rfl

@[simp] theorem finish_cfg : (finish s).cfg = s.cfg := rfl
@[simp] theorem finish_st_busy : (finish s).st.busy = false := rfl
@[simp] theorem finish_st_done : (finish s).st.done = true := rfl
@[simp] theorem finish_st_cond : (finish s).st.cond = s.st.cond := rfl
@[simp] theorem finish_st_cause : (finish s).st.cause = s.st.cause := rfl
@[simp] theorem finish_st_imgValid : (finish s).st.imgValid = s.st.imgValid := rfl
@[simp] theorem finish_w : (finish s).w = s.w := rfl
@[simp] theorem finish_orchState : (finish s).orchState = .idle := rfl
@[simp] theorem finish_orchOp : (finish s).orchOp = .none := rfl
@[simp] theorem finish_img : (finish s).img = s.img := rfl
@[simp] theorem finish_imgLen : (finish s).imgLen = s.imgLen := rfl
@[simp] theorem finish_res : (finish s).res = s.res := rfl
@[simp] theorem finish_pins : (finish s).pins = s.pins := rfl
@[simp] theorem finish_burst : (finish s).burst = false := rfl
@[simp] theorem finish_erasePolling : (finish s).erasePolling = false := rfl
@[simp] theorem finish_resetIn : (finish s).resetIn = s.resetIn := rfl
@[simp] theorem finish_host : (finish s).host = s.host := rfl
@[simp] theorem finish_script : (finish s).script = s.script := rfl
@[simp] theorem finish_busLog : (finish s).busLog = s.busLog := rfl
@[simp] theorem finish_par : (finish s).par = s.par := rfl
@[simp] theorem finish_nonce : (finish s).nonce = s.nonce := rfl

@[simp] theorem raise_cfg (c : Cond) (k : Cause) : (raise c k s).cfg = s.cfg := rfl
@[simp] theorem raise_st_busy (c : Cond) (k : Cause) : (raise c k s).st.busy = false := rfl
@[simp] theorem raise_st_done (c : Cond) (k : Cause) : (raise c k s).st.done = false := rfl
@[simp] theorem raise_st_cond (c : Cond) (k : Cause) : (raise c k s).st.cond = c := rfl
@[simp] theorem raise_st_cause (c : Cond) (k : Cause) : (raise c k s).st.cause = if c = .transferFailed then k else s.st.cause := rfl
@[simp] theorem raise_st_imgValid (c : Cond) (k : Cause) : (raise c k s).st.imgValid = s.st.imgValid := rfl
@[simp] theorem raise_w (c : Cond) (k : Cause) : (raise c k s).w = s.w := rfl
@[simp] theorem raise_orchState (c : Cond) (k : Cause) : (raise c k s).orchState = .idle := rfl
@[simp] theorem raise_orchOp (c : Cond) (k : Cause) : (raise c k s).orchOp = .none := rfl
@[simp] theorem raise_img (c : Cond) (k : Cause) : (raise c k s).img = s.img := rfl
@[simp] theorem raise_imgLen (c : Cond) (k : Cause) : (raise c k s).imgLen = s.imgLen := rfl
@[simp] theorem raise_res (c : Cond) (k : Cause) : (raise c k s).res = s.res := rfl
@[simp] theorem raise_pins (c : Cond) (k : Cause) : (raise c k s).pins = s.pins := rfl
@[simp] theorem raise_burst (c : Cond) (k : Cause) : (raise c k s).burst = false := rfl
@[simp] theorem raise_erasePolling (c : Cond) (k : Cause) : (raise c k s).erasePolling = false := rfl
@[simp] theorem raise_resetIn (c : Cond) (k : Cause) : (raise c k s).resetIn = s.resetIn := rfl
@[simp] theorem raise_host (c : Cond) (k : Cause) : (raise c k s).host = s.host := rfl
@[simp] theorem raise_script (c : Cond) (k : Cause) : (raise c k s).script = s.script := rfl
@[simp] theorem raise_busLog (c : Cond) (k : Cause) : (raise c k s).busLog = s.busLog := rfl
@[simp] theorem raise_par (c : Cond) (k : Cause) : (raise c k s).par = s.par := rfl
@[simp] theorem raise_nonce (c : Cond) (k : Cause) : (raise c k s).nonce = s.nonce := rfl

@[simp] theorem afterChain_cfg (c : Chain) : (afterChain c s).cfg = s.cfg := rfl
@[simp] theorem afterChain_st (c : Chain) : (afterChain c s).st = s.st := rfl
@[simp] theorem afterChain_w (c : Chain) : (afterChain c s).w = s.w := rfl
@[simp] theorem afterChain_orchState (c : Chain) : (afterChain c s).orchState = s.orchState := rfl
@[simp] theorem afterChain_orchOp (c : Chain) : (afterChain c s).orchOp = s.orchOp := rfl
@[simp] theorem afterChain_img (c : Chain) : (afterChain c s).img = s.img := rfl
@[simp] theorem afterChain_imgLen (c : Chain) : (afterChain c s).imgLen = s.imgLen := rfl
@[simp] theorem afterChain_res (c : Chain) : (afterChain c s).res = s.res := rfl
@[simp] theorem afterChain_pins (c : Chain) : (afterChain c s).pins = .idle := rfl
@[simp] theorem afterChain_burst (c : Chain) : (afterChain c s).burst = s.burst := rfl
@[simp] theorem afterChain_erasePolling (c : Chain) : (afterChain c s).erasePolling = s.erasePolling := rfl
@[simp] theorem afterChain_resetIn (c : Chain) : (afterChain c s).resetIn = s.resetIn := rfl
@[simp] theorem afterChain_host (c : Chain) : (afterChain c s).host = s.host := rfl
@[simp] theorem afterChain_script (c : Chain) : (afterChain c s).script = s.script.tail := rfl
@[simp] theorem afterChain_busLog (c : Chain) : (afterChain c s).busLog = { chain := c, answer := answerTo c s } :: s.busLog := rfl
@[simp] theorem afterChain_par (c : Chain) : (afterChain c s).par = s.par := rfl
@[simp] theorem afterChain_nonce (c : Chain) : (afterChain c s).nonce = s.nonce := rfl

@[simp] theorem loadImage_cfg (bs : List Byte) : (loadImage bs s).cfg = s.cfg := rfl
@[simp] theorem loadImage_st (bs : List Byte) : (loadImage bs s).st = s.st := rfl
@[simp] theorem loadImage_w (bs : List Byte) : (loadImage bs s).w = s.w := rfl
@[simp] theorem loadImage_orchState (bs : List Byte) : (loadImage bs s).orchState = s.orchState := rfl
@[simp] theorem loadImage_orchOp (bs : List Byte) : (loadImage bs s).orchOp = s.orchOp := rfl
@[simp] theorem loadImage_img (bs : List Byte) : (loadImage bs s).img = writeBytes [] 0 bs := rfl
@[simp] theorem loadImage_imgLen (bs : List Byte) : (loadImage bs s).imgLen = bs.length := rfl
@[simp] theorem loadImage_res (bs : List Byte) : (loadImage bs s).res = s.res := rfl
@[simp] theorem loadImage_pins (bs : List Byte) : (loadImage bs s).pins = s.pins := rfl
@[simp] theorem loadImage_burst (bs : List Byte) : (loadImage bs s).burst = s.burst := rfl
@[simp] theorem loadImage_erasePolling (bs : List Byte) : (loadImage bs s).erasePolling = s.erasePolling := rfl
@[simp] theorem loadImage_resetIn (bs : List Byte) : (loadImage bs s).resetIn = s.resetIn := rfl
@[simp] theorem loadImage_host (bs : List Byte) : (loadImage bs s).host = s.host := rfl
@[simp] theorem loadImage_script (bs : List Byte) : (loadImage bs s).script = s.script := rfl
@[simp] theorem loadImage_busLog (bs : List Byte) : (loadImage bs s).busLog = s.busLog := rfl
@[simp] theorem loadImage_par (bs : List Byte) : (loadImage bs s).par = s.par := rfl
@[simp] theorem loadImage_nonce (bs : List Byte) : (loadImage bs s).nonce = s.nonce := rfl

@[simp] theorem popHost_cfg : (popHost s).cfg = s.cfg := rfl
@[simp] theorem popHost_st : (popHost s).st = s.st := rfl
@[simp] theorem popHost_w : (popHost s).w = s.w := rfl
@[simp] theorem popHost_orchState : (popHost s).orchState = s.orchState := rfl
@[simp] theorem popHost_orchOp : (popHost s).orchOp = s.orchOp := rfl
@[simp] theorem popHost_img : (popHost s).img = s.img := rfl
@[simp] theorem popHost_imgLen : (popHost s).imgLen = s.imgLen := rfl
@[simp] theorem popHost_res : (popHost s).res = s.res := rfl
@[simp] theorem popHost_pins : (popHost s).pins = s.pins := rfl
@[simp] theorem popHost_burst : (popHost s).burst = s.burst := rfl
@[simp] theorem popHost_erasePolling : (popHost s).erasePolling = s.erasePolling := rfl
@[simp] theorem popHost_resetIn : (popHost s).resetIn = s.resetIn := rfl
@[simp] theorem popHost_host : (popHost s).host = s.host.tail := rfl
@[simp] theorem popHost_script : (popHost s).script = s.script := rfl
@[simp] theorem popHost_busLog : (popHost s).busLog = s.busLog := rfl
@[simp] theorem popHost_par : (popHost s).par = s.par := rfl
@[simp] theorem popHost_nonce : (popHost s).nonce = s.nonce := rfl

@[simp] theorem raiseReset_cfg : (raiseReset s).cfg = s.cfg := rfl
@[simp] theorem raiseReset_st : (raiseReset s).st = s.st := rfl
@[simp] theorem raiseReset_w : (raiseReset s).w = s.w := rfl
@[simp] theorem raiseReset_orchState : (raiseReset s).orchState = s.orchState := rfl
@[simp] theorem raiseReset_orchOp : (raiseReset s).orchOp = s.orchOp := rfl
@[simp] theorem raiseReset_img : (raiseReset s).img = s.img := rfl
@[simp] theorem raiseReset_imgLen : (raiseReset s).imgLen = s.imgLen := rfl
@[simp] theorem raiseReset_res : (raiseReset s).res = s.res := rfl
@[simp] theorem raiseReset_pins : (raiseReset s).pins = s.pins := rfl
@[simp] theorem raiseReset_burst : (raiseReset s).burst = s.burst := rfl
@[simp] theorem raiseReset_erasePolling : (raiseReset s).erasePolling = s.erasePolling := rfl
@[simp] theorem raiseReset_resetIn : (raiseReset s).resetIn = true := rfl
@[simp] theorem raiseReset_host : (raiseReset s).host = s.host := rfl
@[simp] theorem raiseReset_script : (raiseReset s).script = s.script := rfl
@[simp] theorem raiseReset_busLog : (raiseReset s).busLog = s.busLog := rfl
@[simp] theorem raiseReset_par : (raiseReset s).par = s.par := rfl
@[simp] theorem raiseReset_nonce : (raiseReset s).nonce = s.nonce := rfl

/-- `raiseBare` is `raise` without information: every lemma of `raise` serves it. -/
theorem raiseBare_eq (c : Cond) : raiseBare c s = raise c s.st.cause s := rfl

@[simp] theorem raiseBare_cfg (c : Cond) : (raiseBare c s).cfg = s.cfg := rfl
@[simp] theorem raiseBare_st_busy (c : Cond) : (raiseBare c s).st.busy = false := rfl
@[simp] theorem raiseBare_st_done (c : Cond) : (raiseBare c s).st.done = false := rfl
@[simp] theorem raiseBare_st_cond (c : Cond) : (raiseBare c s).st.cond = c := rfl
@[simp] theorem raiseBare_st_imgValid (c : Cond) : (raiseBare c s).st.imgValid = s.st.imgValid := rfl
@[simp] theorem raiseBare_st_cause (c : Cond) : (raiseBare c s).st.cause = s.st.cause := by
  simp [raiseBare_eq]
@[simp] theorem raiseBare_w (c : Cond) : (raiseBare c s).w = s.w := rfl
@[simp] theorem raiseBare_orchState (c : Cond) : (raiseBare c s).orchState = .idle := rfl
@[simp] theorem raiseBare_orchOp (c : Cond) : (raiseBare c s).orchOp = .none := rfl
@[simp] theorem raiseBare_img (c : Cond) : (raiseBare c s).img = s.img := rfl
@[simp] theorem raiseBare_imgLen (c : Cond) : (raiseBare c s).imgLen = s.imgLen := rfl
@[simp] theorem raiseBare_res (c : Cond) : (raiseBare c s).res = s.res := rfl
@[simp] theorem raiseBare_pins (c : Cond) : (raiseBare c s).pins = s.pins := rfl
@[simp] theorem raiseBare_burst (c : Cond) : (raiseBare c s).burst = false := rfl
@[simp] theorem raiseBare_erasePolling (c : Cond) : (raiseBare c s).erasePolling = false := rfl
@[simp] theorem raiseBare_resetIn (c : Cond) : (raiseBare c s).resetIn = s.resetIn := rfl
@[simp] theorem raiseBare_host (c : Cond) : (raiseBare c s).host = s.host := rfl
@[simp] theorem raiseBare_script (c : Cond) : (raiseBare c s).script = s.script := rfl
@[simp] theorem raiseBare_busLog (c : Cond) : (raiseBare c s).busLog = s.busLog := rfl
@[simp] theorem raiseBare_par (c : Cond) : (raiseBare c s).par = s.par := rfl
@[simp] theorem raiseBare_nonce (c : Cond) : (raiseBare c s).nonce = s.nonce := rfl

@[simp] theorem applyReset_st_busy : (applyReset s).st.busy = false := rfl
@[simp] theorem applyReset_st_done : (applyReset s).st.done = false := rfl
@[simp] theorem applyReset_st_cond : (applyReset s).st.cond = .none := rfl
@[simp] theorem applyReset_st_imgValid : (applyReset s).st.imgValid = false := rfl
@[simp] theorem applyReset_w_addr : (applyReset s).w.addr = 0 := rfl
@[simp] theorem applyReset_w_idx : (applyReset s).w.idx = 0 := rfl
@[simp] theorem applyReset_w_pollCnt : (applyReset s).w.pollCnt = 0 := rfl
@[simp] theorem applyReset_cfg_finalized : (applyReset s).cfg.finalized = false := rfl
@[simp] theorem applyReset_orchState : (applyReset s).orchState = .idle := rfl
@[simp] theorem applyReset_orchOp : (applyReset s).orchOp = .none := rfl
@[simp] theorem applyReset_pins : (applyReset s).pins = .idle := rfl
@[simp] theorem applyReset_burst : (applyReset s).burst = false := rfl
@[simp] theorem applyReset_erasePolling : (applyReset s).erasePolling = false := rfl
@[simp] theorem applyReset_resetIn : (applyReset s).resetIn = false := rfl
@[simp] theorem applyReset_nonce : (applyReset s).nonce = s.nonce + 1 := rfl
@[simp] theorem applyReset_img : (applyReset s).img = s.img := rfl
@[simp] theorem applyReset_imgLen : (applyReset s).imgLen = s.imgLen := rfl
@[simp] theorem applyReset_host : (applyReset s).host = s.host := rfl
@[simp] theorem applyReset_script : (applyReset s).script = s.script := rfl
@[simp] theorem applyReset_busLog : (applyReset s).busLog = s.busLog := rfl
@[simp] theorem applyReset_par : (applyReset s).par = s.par := rfl
@[simp] theorem applyReset_res : (applyReset s).res = Config.unspecRes s.nonce := rfl
@[simp] theorem applyReset_st_cause : (applyReset s).st.cause = Config.unspecCause s.nonce := rfl

end Sys2Proof.Machine
end

