-- ==== Sys2Proof/Laws/Bus.lean ====
section
/-! SUPPORT. The bus port: what an answer can be, and what an exchange changes. -/

namespace Sys2Proof.Machine

open Sys2Proof Config

@[simp] theorem fitBytes_length (log : List BusEvent) (n : Nat) (rx : List Byte) :
    (fitBytes log n rx).length = n := by
  simp [fitBytes]
  omega

/-- An answer that names exactly the bytes asked for is delivered as it is. -/
theorem fitBytes_exact {log : List BusEvent} {n : Nat} {rx : List Byte} (h : rx.length = n) :
    fitBytes log n rx = rx := by
  subst h
  simp [fitBytes]

/-- The answer to a chain depends only on the script, the history, the limit and the chain. -/
theorem answerTo_congr {c : Chain} {s t : State} (h1 : t.script = s.script) (h2 : t.busLog = s.busLog)
    (h3 : t.par = s.par) : answerTo c t = answerTo c s := by
  simp only [answerTo, oracleAnswer, h1, h2, h3]

/-- All an answer can be (R14, R256, R257). -/
theorem answerOf_answerTo (c : Chain) (s : State) : AnswerOf c s (answerTo c s) := by
  refine ⟨fun rx h => ?_, fun rx rest hs hl hw => ?_, fun k rest hs => ?_⟩
  · unfold answerTo at h
    split at h
    · cases h
    · split at h
      · cases h
        exact ⟨fitBytes_length _ _ _, ‹_›⟩
      · cases h
  · simp [answerTo, oracleAnswer, hs, hw, fitBytes_exact hl]
  · simp [answerTo, oracleAnswer, hs]

theorem AnswerOf.congr {c : Chain} {s t : State} {a : BusAnswer} (h1 : t.script = s.script) (h3 : t.par = s.par)
    (h : AnswerOf c t a) : AnswerOf c s a := by
  unfold AnswerOf at h ⊢
  rwa [h1, h3] at h

/-- A scripted good answer, with a collaborator that has no limit (R80). -/
theorem answerTo_script {c : Chain} {s : State} {rx : List Byte} {rest : List BusAnswer}
    (h : s.script = .ok rx :: rest) (hl : rx.length = rxTotal c) (hm : s.par.maxXfer = none) :
    answerTo c s = .ok rx :=
  (answerOf_answerTo c s).2.1 rx rest h hl (by simp [withinLimit, hm])

@[simp] theorem rxTotal_chainH (v : Nat) : rxTotal (chainH v) = 0 := rfl

@[simp] theorem rxTotal_chainHW (v : Nat) (data : List Byte) : rxTotal (chainHW v data) = 0 := rfl

@[simp] theorem rxTotal_chainHR (v n : Nat) : rxTotal (chainHR v n) = n := by
  simp [rxTotal, chainHR, txTransfer, rxTransfer]

@[simp] theorem rxTotal_chainR : rxTotal chainR = 1 := rfl

end Sys2Proof.Machine
end

