-- ==== Sys2Proof/Laws/Header.lean ====
section
/-! SUPPORT. The arithmetic of the header frame: the composed value as a sum, its range, its bits, and the operand forms
as arithmetic expressions. -/

namespace Sys2Proof

open Config

theorem mask_and (p n : Nat) : p &&& mask n = p % 2 ^ n := Nat.and_two_pow_sub_one_eq_mod p n

theorem or_startMarker {o : Nat} (h : o < 4) : o ||| startMarker = o + 4 := by
  have : o = 0 ∨ o = 1 ∨ o = 2 ∨ o = 3 := by omega
  rcases this with rfl | rfl | rfl | rfl <;> rfl

/-- The `|` of R141 is a `+`, since the shifted prefix has zeros below `bits`. -/
theorem headerValue_eq (o p n : Nat) : headerValue o p n = (o ||| startMarker) * 2 ^ n + p % 2 ^ n := by
  have h : p % 2 ^ n < 2 ^ n := Nat.mod_lt _ (Nat.two_pow_pos n)
  rw [headerValue, mask_and, ← Nat.shiftLeft_add_eq_or_of_lt h, Nat.shiftLeft_eq]

theorem headerValue_eq_add {o : Nat} (h : o < 4) (p n : Nat) : headerValue o p n = (o + 4) * 2 ^ n + p % 2 ^ n := by
  rw [headerValue_eq, or_startMarker h]

theorem headerValue_lt {o : Nat} (h : o < 4) (p n : Nat) : headerValue o p n < 2 ^ (n + 3) := by
  have hp : p % 2 ^ n < 2 ^ n := Nat.mod_lt _ (Nat.two_pow_pos n)
  rw [headerValue_eq_add h, Nat.pow_add]
  nlinarith [Nat.two_pow_pos n]

/-- A header value of ENCODE's domain fits two bytes (R147). -/
theorem headerValue_lt_word {o n : Nat} (h : o < 4) (hn : n ≤ 13) (p : Nat) : headerValue o p n < 65536 :=
  lt_of_lt_of_le (headerValue_lt h p n) (by
    calc 2 ^ (n + 3) ≤ 2 ^ 16 := Nat.pow_le_pow_right (by omega) (by omega)
      _ = 65536 := by norm_num)

theorem headerValue_mod (o p n : Nat) : headerValue o (p % 2 ^ n) n = headerValue o p n := by
  simp [headerValue_eq]

theorem headerValue_add_mul (o p k n : Nat) : headerValue o (p + k * 2 ^ n) n = headerValue o p n := by
  simp [headerValue_eq]

theorem beValue_be16 {v : Nat} (h : v < 65536) :
    beValue (BitVec.ofNat 8 (v / 256)) (BitVec.ofNat 8 v) = v := by
  simp only [beValue, BitVec.toNat_ofNat]
  omega

theorem decodeHeaderBytes_be16 {v : Nat} (h : v < 65536) : decodeHeaderBytes (be16 v) = decodeH16 v := by
  simp only [be16, decodeHeaderBytes, beValue_be16 h]

@[simp] theorem be16_length (v : Nat) : (be16 v).length = 2 := rfl

theorem topBit_eq_some {n v k : Nat} (hk : v.testBit k = true) (hn : k < n)
    (h : ∀ j, k < j → v.testBit j = false) : topBit n v = some k := by
  induction n with
  | zero => omega
  | succ n ih =>
    rw [topBit]
    by_cases e : n = k
    · subst e
      simp [hk]
    · rw [h n (by omega)]
      exact ih (by omega)

theorem testBit_top {v k : Nat} (h1 : 2 ^ k ≤ v) (h2 : v < 2 ^ (k + 1)) :
    v.testBit k = true ∧ ∀ j, k < j → v.testBit j = false := by
  constructor
  · rw [Nat.testBit_eq_decide_div_mod_eq]
    have : v / 2 ^ k = 1 := by
      rw [Nat.pow_succ] at h2
      exact Nat.div_eq_of_lt_le (by omega) (by omega)
    simp [this]
  · intro j hj
    exact Nat.testBit_lt_two_pow (lt_of_lt_of_le h2 (Nat.pow_le_pow_right (by omega) hj))

/-- Reading a value whose highest set bit is bit `n + 2` (R103). -/
theorem decodeH16_of_range {v n : Nat} (hn : n ≤ 13) (h1 : 2 ^ (n + 2) ≤ v) (h2 : v < 2 ^ (n + 3)) :
    decodeH16 v = .ok { opcode := v / 2 ^ n % 4, bits := n, payload := v % 2 ^ n } := by
  obtain ⟨ht, hr⟩ := testBit_top h1 h2
  rw [decodeH16, topBit_eq_some ht (by omega) hr]

theorem headerValue_ge {o : Nat} (h : o < 4) (p n : Nat) : 2 ^ (n + 2) ≤ headerValue o p n := by
  rw [headerValue_eq_add h, Nat.pow_add]
  nlinarith [Nat.two_pow_pos n, Nat.zero_le (p % 2 ^ n)]

/-- Reading a composed header back (R103). -/
theorem decodeH16_headerValue {o n : Nat} (h : o < 4) (hn : n ≤ 13) (p : Nat) :
    decodeH16 (headerValue o p n) = .ok { opcode := o, bits := n, payload := p % 2 ^ n } := by
  rw [decodeH16_of_range hn (headerValue_ge h p n) (headerValue_lt h p n)]
  have hp : p % 2 ^ n < 2 ^ n := Nat.mod_lt _ (Nat.two_pow_pos n)
  rw [headerValue_eq_add h]
  have hd : ((o + 4) * 2 ^ n + p % 2 ^ n) / 2 ^ n = o + 4 := by
    rw [Nat.add_comm, Nat.add_mul_div_right _ _ (Nat.two_pow_pos n), Nat.div_eq_of_lt hp, Nat.zero_add]
  have hm : ((o + 4) * 2 ^ n + p % 2 ^ n) % 2 ^ n = p % 2 ^ n := by simp
  rw [hd, hm, show (o + 4) % 4 = o by omega]

theorem specialPayload_mod {a s : Nat} (ha : 2 ≤ a) :
    specialPayload a s % 2 ^ a = s % 4 * 2 ^ (a - 2) := by
  have : 2 ^ a = 4 * 2 ^ (a - 2) := by
    rw [← Nat.pow_sub_mul_pow 2 ha, Nat.mul_comm]
  rw [specialPayload, Nat.shiftLeft_eq, this, Nat.mul_mod_mul_right]

theorem specialHeader_eq {a o : Nat} (ha : 2 ≤ a) (ho : o < 4) (s : Nat) :
    specialHeader a o s = (o + 4) * 2 ^ a + s % 4 * 2 ^ (a - 2) := by
  rw [specialHeader, specialDummy, Nat.add_zero, headerValue_eq_add ho, specialPayload_mod ha]

theorem unitAddr_eq (p : Params) (org16 : Bool) (a : Nat) : unitAddr p org16 a = Machine.unitOf p org16 a := by
  simp only [unitAddr, Machine.unitOf, Bool.and_eq_true, decide_eq_true_eq, Nat.shiftRight_one]

theorem readPayload_eq (p : Params) (org16 : Bool) (a : Nat) :
    readPayload p org16 a = Machine.readPayloadOf p org16 a := by
  rw [readPayload, unitAddr_eq, Machine.readPayloadOf]
  split <;> simp [Nat.shiftLeft_eq, Nat.mul_comm]

end Sys2Proof
end

