-- ==== Sys2Proof/Laws/Memory.lean ====
section
/-! SUPPORT. The image buffer: reading after writing, the canonical form, and the bytes of a range. -/

namespace Sys2Proof.Machine

open Sys2Proof Config

/-! ### The canonical form -/

theorem Memory.wfFrom_mono {lo lo' : Nat} (h : lo' ≤ lo) {m : Memory} (hm : Memory.wfFrom lo m = true) :
    Memory.wfFrom lo' m = true := by
  cases m with
  | nil => rfl
  | cons c m =>
    simp only [Memory.wfFrom, Bool.and_eq_true, decide_eq_true_eq] at hm ⊢
    exact ⟨⟨le_trans h hm.1.1, hm.1.2⟩, hm.2⟩

/-- An address below the first listed one reads as the unlisted byte. -/
theorem readByte_below {lo a : Nat} {m : Memory} (hm : Memory.wfFrom lo m = true) (h : a < lo) :
    readByte m a = unlistedByte := by
  induction m generalizing lo with
  | nil => rfl
  | cons c m ih =>
    obtain ⟨x, y⟩ := c
    simp only [Memory.wfFrom, Bool.and_eq_true, decide_eq_true_eq] at hm
    have hx : a ≠ x := by omega
    rw [readByte, if_neg hx]
    exact ih hm.2 (by omega)

theorem writeByte_wfFrom {lo a : Nat} {b : Byte} {m : Memory} (hm : Memory.wfFrom lo m = true) (h : lo ≤ a) :
    Memory.wfFrom lo (writeByte m a b) = true := by
  induction m generalizing lo with
  | nil =>
    by_cases hb : b = unlistedByte <;> simp [writeByte, hb, Memory.wfFrom, h]
  | cons c m ih =>
    obtain ⟨x, y⟩ := c
    simp only [Memory.wfFrom, Bool.and_eq_true, decide_eq_true_eq] at hm
    obtain ⟨⟨hx, hy⟩, ht⟩ := hm
    rw [writeByte]
    split
    · split <;> simp_all [Memory.wfFrom]
    · split
      · subst_vars
        split
        · exact Memory.wfFrom_mono (by omega) ht
        · simp_all [Memory.wfFrom]
      · simp only [Memory.wfFrom, Bool.and_eq_true, decide_eq_true_eq]
        exact ⟨⟨hx, hy⟩, ih ht (by omega)⟩

/-- A write keeps the canonical form. -/
theorem writeByte_wf {m : Memory} (hm : Memory.wf m = true) (a : Nat) (b : Byte) : Memory.wf (writeByte m a b) = true :=
  writeByte_wfFrom hm (Nat.zero_le a)

theorem writeBytes_wf {m : Memory} (hm : Memory.wf m = true) (a : Nat) (bs : List Byte) :
    Memory.wf (writeBytes m a bs) = true := by
  induction bs generalizing m a with
  | nil => exact hm
  | cons b bs ih => exact ih (writeByte_wf hm a b) (a + 1)

theorem memWrite_wf {s t : State} {a : Nat} {bs : List Byte} (hm : Memory.wf s.img = true)
    (h : memWrite a bs s = some t) : Memory.wf t.img = true := by
  unfold memWrite at h
  split at h
  · cases h
    exact writeBytes_wf hm a bs
  · cases h

theorem loadImage_wf (bs : List Byte) (s : State) : Memory.wf (loadImage bs s).img = true :=
  writeBytes_wf (m := []) rfl 0 bs

theorem reset_img_wf : Memory.wf State.reset.img = true := rfl

/-! ### Inside the buffer -/

theorem Memory.inside_cons {n : Nat} {c : Host.Cell} {m : Memory} :
    Memory.inside n (c :: m) ↔ c.1 < n ∧ Memory.inside n m := List.forall_mem_cons

theorem Memory.inside_nil (n : Nat) : Memory.inside n [] := fun _ h => nomatch h

theorem writeByte_inside {n a : Nat} {b : Byte} {m : Memory} (hm : Memory.inside n m) (h : a < n) :
    Memory.inside n (writeByte m a b) := by
  induction m with
  | nil =>
    rw [writeByte]
    split
    · exact Memory.inside_nil n
    · exact Memory.inside_cons.2 ⟨h, Memory.inside_nil n⟩
  | cons c m ih =>
    obtain ⟨hx, ht⟩ := Memory.inside_cons.1 hm
    rw [writeByte]
    split
    · split
      · exact hm
      · exact Memory.inside_cons.2 ⟨h, hm⟩
    · split
      · split
        · exact ht
        · exact Memory.inside_cons.2 ⟨h, ht⟩
      · exact Memory.inside_cons.2 ⟨hx, ih ht⟩

theorem writeBytes_inside {n a : Nat} {bs : List Byte} {m : Memory} (hm : Memory.inside n m) (h : a + bs.length ≤ n) :
    Memory.inside n (writeBytes m a bs) := by
  induction bs generalizing m a with
  | nil => exact hm
  | cons b bs ih =>
    simp only [List.length_cons] at h
    exact ih (writeByte_inside hm (by omega)) (by omega)

/-! ### Reading after writing -/

theorem readByte_writeByte {lo a : Nat} {b : Byte} {m : Memory} (hm : Memory.wfFrom lo m = true) (x : Nat) :
    readByte (writeByte m a b) x = if x = a then b else readByte m x := by
  induction m generalizing lo with
  | nil =>
    by_cases hb : b = unlistedByte <;> by_cases hx : x = a <;> simp [writeByte, readByte, hb, hx]
  | cons c m ih =>
    obtain ⟨k, y⟩ := c
    simp only [Memory.wfFrom, Bool.and_eq_true, decide_eq_true_eq] at hm
    obtain ⟨⟨hk, hy⟩, ht⟩ := hm
    have hlow : ∀ z, z < k + 1 → readByte m z = unlistedByte := fun z hz => readByte_below ht hz
    rw [writeByte]
    by_cases h1 : a < k
    · rw [if_pos h1]
      by_cases hb : b = unlistedByte
      · rw [if_pos hb]
        by_cases hx : x = a
        · rw [if_pos hx, readByte, if_neg (by omega), hlow x (by omega), hb]
        · rw [if_neg hx]
      · rw [if_neg hb, readByte]
    · rw [if_neg h1]
      by_cases h2 : a = k
      · rw [if_pos h2]
        by_cases hb : b = unlistedByte
        · rw [if_pos hb]
          by_cases hx : x = a
          · rw [if_pos hx, hlow x (by omega), hb]
          · rw [if_neg hx, readByte, if_neg (by omega)]
        · rw [if_neg hb, readByte, readByte]
          by_cases hx : x = a
          · rw [if_pos hx, if_pos hx]
          · rw [if_neg hx, if_neg hx, if_neg (by omega)]
      · rw [if_neg h2, readByte, ih ht, readByte]
        by_cases hx : x = k
        · rw [if_pos hx, if_pos hx, if_neg (by omega)]
        · rw [if_neg hx, if_neg hx]

/-- Reading the byte just written. -/
theorem readByte_writeByte_same {m : Memory} (hm : Memory.wf m = true) (a : Nat) (b : Byte) :
    readByte (writeByte m a b) a = b := by
  rw [readByte_writeByte hm, if_pos rfl]

/-- A write leaves every other address alone. -/
theorem readByte_writeByte_other {m : Memory} (hm : Memory.wf m = true) {a x : Nat} (b : Byte) (h : x ≠ a) :
    readByte (writeByte m a b) x = readByte m x := by
  rw [readByte_writeByte hm, if_neg h]

/-- The bytes stored by `writeBytes`, and the others left alone. -/
theorem readByte_writeBytes {m : Memory} (hm : Memory.wf m = true) (a : Nat) (bs : List Byte) (x : Nat) :
    readByte (writeBytes m a bs) x = if h : a ≤ x ∧ x < a + bs.length then bs[x - a] else readByte m x := by
  induction bs generalizing m a with
  | nil =>
    rw [dif_neg (by rw [List.length_nil]; omega)]
    rfl
  | cons b bs ih =>
    rw [writeBytes, ih (writeByte_wf hm a b)]
    simp only [List.length_cons]
    by_cases hx : x = a
    · subst hx
      rw [dif_neg (by omega), dif_pos (by omega), readByte_writeByte_same hm]
      simp
    · by_cases h : a + 1 ≤ x ∧ x < a + 1 + bs.length
      · rw [dif_pos h, dif_pos (by omega)]
        obtain ⟨k, rfl⟩ : ∃ k, x = a + 1 + k := ⟨x - (a + 1), by omega⟩
        have e1 : a + 1 + k - (a + 1) = k := by omega
        have e2 : a + 1 + k - a = k + 1 := by omega
        simp [e1, e2]
      · rw [dif_neg h, dif_neg (by omega), readByte_writeByte_other hm b hx]

/-- Outside the stored range nothing changes. -/
theorem readByte_writeBytes_outside {m : Memory} (hm : Memory.wf m = true) {a x : Nat} (bs : List Byte)
    (h : x < a ∨ a + bs.length ≤ x) : readByte (writeBytes m a bs) x = readByte m x := by
  rw [readByte_writeBytes hm, dif_neg (by omega)]

@[simp] theorem readBytes_length (m : Memory) (a n : Nat) : (readBytes m a n).length = n := by
  induction n generalizing a with
  | zero => rfl
  | succ n ih => simp [readBytes, ih]

theorem readBytes_getElem (m : Memory) (a n k : Nat) (h : k < (readBytes m a n).length) :
    (readBytes m a n)[k] = readByte m (a + k) := by
  induction n generalizing a k with
  | zero => simp at h
  | succ n ih =>
    cases k with
    | zero => simp [readBytes]
    | succ k =>
      simp only [readBytes, List.getElem_cons_succ]
      rw [ih]
      congr 1
      omega

theorem readBytes_append (m : Memory) (a n k : Nat) :
    readBytes m a (n + k) = readBytes m a n ++ readBytes m (a + n) k := by
  induction n generalizing a with
  | zero => simp [readBytes]
  | succ n ih =>
    have e : n + 1 + k = (n + k) + 1 := by omega
    have e2 : a + 1 + n = a + (n + 1) := by omega
    rw [e, readBytes, ih, readBytes, e2]
    rfl

/-- The stored range reads back what was stored. -/
theorem readBytes_writeBytes_same {m : Memory} (hm : Memory.wf m = true) (a : Nat) (bs : List Byte) :
    readBytes (writeBytes m a bs) a bs.length = bs := by
  refine List.ext_getElem (by simp) (fun k h1 h2 => ?_)
  rw [readBytes_getElem, readByte_writeBytes hm, dif_pos (by omega)]
  congr 1
  omega

/-- A range below the stored one reads as before. -/
theorem readBytes_writeBytes_below {m : Memory} (hm : Memory.wf m = true) {a x n : Nat} (bs : List Byte)
    (h : x + n ≤ a) : readBytes (writeBytes m a bs) x n = readBytes m x n := by
  refine List.ext_getElem (by simp) (fun k h1 h2 => ?_)
  simp only [readBytes_length] at h1
  rw [readBytes_getElem, readBytes_getElem, readByte_writeBytes_outside hm bs (by omega)]

/-- The host's image is the buffer it supplied. -/
theorem image_loadImage (bs : List Byte) (s : State) : image (loadImage bs s) = bs :=
  readBytes_writeBytes_same (m := []) rfl 0 bs

/-- What `memWrite` can do: store inside `IMG`, and change nothing but `IMG`. -/
theorem memWrite_eq_some {s t : State} {a : Nat} {bs : List Byte} (h : memWrite a bs s = some t) :
    a + bs.length ≤ s.imgLen ∧ t = { s with img := writeBytes s.img a bs } := by
  unfold memWrite at h
  split at h
  · exact ⟨‹_›, by cases h; rfl⟩
  · cases h

theorem memWrite_of_le {s : State} {a : Nat} {bs : List Byte} (h : a + bs.length ≤ s.imgLen) :
    memWrite a bs s = some { s with img := writeBytes s.img a bs } := if_pos h

theorem memRead_of_le {s : State} {a n : Nat} (h : a + n ≤ s.imgLen) : memRead a n s = some (readBytes s.img a n) :=
  if_pos h

end Sys2Proof.Machine
end

