-- ==== Sys2Proof/Laws/Ops.lean ====
section
/-! SUPPORT. One lemma per shared operation: what it does when its precondition holds, and all it can have done when it
answers. -/

namespace Sys2Proof.Machine

open Sys2Proof Config

/-! ### Acceptance -/

theorem whenIdle_idle {s : State} {run : Host.Outcome State Fault Refusal} (h : s.st.busy = false) :
    whenIdle s run = run := by simp [whenIdle, h]

theorem whenIdle_busy {s : State} {run : Host.Outcome State Fault Refusal} (h : s.st.busy = true) :
    whenIdle s run = .next s := by simp [whenIdle, h]

/-- All a guarded command can answer as a next state. -/
theorem whenIdle_next {s t : State} {run : Host.Outcome State Fault Refusal} (h : whenIdle s run = .next t) :
    (s.st.busy = true ∧ t = s) ∨ (s.st.busy = false ∧ run = .next t) := by
  unfold whenIdle at h
  split at h
  · exact .inl ⟨‹_›, by cases h; rfl⟩
  · exact .inr ⟨Bool.eq_false_iff.2 ‹_›, h⟩

/-! ### Primitives -/

theorem toNat_lt_four (x : BitVec 2) : x.toNat < 4 := x.isLt

theorem inDomain_of {o b : Nat} (ho : o < 4) (hb : b ≤ 13) : inDomain o b = true := by
  simp [inDomain, encBitsMax, ho, hb]

theorem headerPrim_ok {o d v : Nat} {c : Chain} {s : State} (hf : s.cfg.finalized = true) (ho : o < 4)
    (hd : s.cfg.aEff.toNat + d ≤ 13) : headerPrim o d v c s = .ok (bus c (setHdr v s)) := by
  simp [headerPrim, hf, inDomain_of ho hd]

/-- All a header-bearing primitive can have done when it ran. -/
theorem headerPrim_inv {o d v : Nat} {c : Chain} {s : State} {out : BusAnswer × State}
    (h : headerPrim o d v c s = .ok out) :
    s.cfg.finalized = true ∧ o < 4 ∧ s.cfg.aEff.toNat + d ≤ 13 ∧ out = bus c (setHdr v s) := by
  unfold headerPrim at h
  split at h
  · cases h
  · split at h
    · rename_i hf hd
      rw [inDomain, Bool.and_eq_true] at hd
      exact ⟨by simpa using hf, of_decide_eq_true hd.1, of_decide_eq_true hd.2, by cases h; rfl⟩
    · cases h

theorem primRead_ok {a n : Nat} {s : State} (hf : s.cfg.finalized = true) (ha : s.cfg.aEff.toNat ≤ 9) (hn : 1 ≤ n) :
    primRead a n s = .ok (bus (readChain a n s) (setHdr (readHdr a s) s)) := by
  rw [primRead, if_neg (by simp [hf]), if_neg (by omega)]
  exact headerPrim_ok hf (toNat_lt_four _) (by simp only [readDummy]; omega)

theorem primRead_inv {a n : Nat} {s : State} {out : BusAnswer × State} (h : primRead a n s = .ok out) :
    s.cfg.finalized = true ∧ 1 ≤ n ∧ out = bus (readChain a n s) (setHdr (readHdr a s) s) := by
  unfold primRead at h
  split at h
  · cases h
  · split at h
    · cases h
    · obtain ⟨hf, -, -, ho⟩ := headerPrim_inv h
      exact ⟨hf, by omega, ho⟩

theorem primWrite_ok {a : Nat} {data : List Byte} {s : State} (hf : s.cfg.finalized = true)
    (ha : s.cfg.aEff.toNat ≤ 9) (hn : 1 ≤ data.length) :
    primWrite a data s = .ok (bus (writeChain a data s) (setHdr (writeHdr a s) s)) := by
  rw [primWrite, if_neg (by simp [hf]), if_neg (by omega)]
  exact headerPrim_ok hf (toNat_lt_four _) (by simp only [writeDummy]; omega)

theorem primWrite_inv {a : Nat} {data : List Byte} {s : State} {out : BusAnswer × State}
    (h : primWrite a data s = .ok out) :
    s.cfg.finalized = true ∧ 1 ≤ data.length ∧ out = bus (writeChain a data s) (setHdr (writeHdr a s) s) := by
  unfold primWrite at h
  split at h
  · cases h
  · split at h
    · cases h
    · obtain ⟨hf, -, -, ho⟩ := headerPrim_inv h
      exact ⟨hf, by omega, ho⟩

theorem primSpecial_ok {o sub : Nat} {s : State} (hf : s.cfg.finalized = true) (ha : s.cfg.aEff.toNat ≤ 9)
    (ho : o < 4) : primSpecial o sub s = .ok (bus (specialChain o sub s) (setHdr (specialHdr o sub s) s)) :=
  headerPrim_ok hf ho (by simp only [specialDummy]; omega)

theorem primSpecial_inv {o sub : Nat} {s : State} {out : BusAnswer × State} (h : primSpecial o sub s = .ok out) :
    s.cfg.finalized = true ∧ o < 4 ∧ out = bus (specialChain o sub s) (setHdr (specialHdr o sub s) s) := by
  obtain ⟨hf, ho, -, e⟩ := headerPrim_inv h
  exact ⟨hf, ho, e⟩

/-! ### The end of a directly issued primitive -/

/-- What an exchange by a primitive at the port leaves: one chain, its outcome, and nothing else of the visible
state. -/
theorem portEnd_ran {result : List Byte → ResVal} {c : Chain} {s u : State} {a : BusAnswer}
    (hlog : u.busLog = { chain := c, answer := a } :: s.busLog) (hscr : u.script = s.script.tail)
    (hans : AnswerOf c s a) (hcond : u.st.cond = .none) (himg : u.st.imgValid = s.st.imgValid)
    (hcfg : u.cfg = s.cfg) (hctr : KeepsCounters s u) (hsur : KeepsSurroundings noByte s u) :
    PortPrimRan c result a s (portEnd result (a, u)) := by
  cases a with
  | ok rx =>
    refine ⟨⟨hlog, hscr⟩, hans, fun rx' h => ?_, fun k h => (nomatch h), ⟨hcfg, himg⟩, hctr, hsur⟩
    cases h
    exact ⟨⟨rfl, rfl, hcond, rfl, rfl⟩, rfl⟩
  | fail k =>
    refine ⟨⟨hlog, hscr⟩, hans, fun rx h => (nomatch h), fun k' h => ?_, ⟨hcfg, himg⟩, hctr, hsur⟩
    cases h
    exact ⟨⟨rfl, rfl, rfl, rfl, rfl⟩, rfl⟩

theorem portEnd_w (result : List Byte → ResVal) (a : BusAnswer) (u : State) : (portEnd result (a, u)).w = u.w := by
  cases a <;> rfl

/-- A header-bearing primitive at the port ran. -/
theorem portPrim_header_ran (result : List Byte → ResVal) (c : Chain) (v : Nat) (s : State) :
    ∃ t a, portPrim result (.ok (bus c (setHdr v (accept .prim s)))) = .next t ∧ PortPrimRan c result a s t ∧
      t.w.hdr = BitVec.ofNat 16 v ∧ t.w.status = s.w.status := by
  refine ⟨_, _, rfl, portEnd_ran rfl rfl
    (AnswerOf.congr (t := setHdr v (accept .prim s)) rfl rfl (answerOf_answerTo _ _)) rfl rfl rfl
    ⟨rfl, rfl, rfl⟩ ⟨rfl, rfl, rfl, rfl, fun _ _ => rfl⟩, ?_, ?_⟩ <;> simp [bus, portEnd_w]

/-! ### Primitives inside an operation -/

/-- All an operation's primitive can lead to when the operation answers a next state: the abort, or the continuation
on the received bytes. -/
theorem orchPrim_next {c : Chain} {u t : State} {next : List Byte → State → Host.Outcome State Fault Refusal}
    (h : orchPrim (.ok (bus c u)) next = .next t) :
    (∃ k, answerTo c u = .fail k ∧ t = raise .transferFailed k (afterChain c u)) ∨
      (∃ rx, answerTo c u = .ok rx ∧ next rx (afterChain c u) = .next t) := by
  unfold orchPrim bus at h
  cases ha : answerTo c u with
  | ok rx =>
    rw [ha] at h
    exact .inr ⟨rx, rfl, h⟩
  | fail k =>
    rw [ha] at h
    cases h
    exact .inl ⟨k, rfl, rfl⟩

theorem orchPrim_ok {c : Chain} {u : State} {next : List Byte → State → Host.Outcome State Fault Refusal}
    {rx : List Byte} (h : answerTo c u = .ok rx) :
    orchPrim (.ok (bus c u)) next = next rx (afterChain c u) := by
  simp only [orchPrim, bus, h]

theorem orchPrim_fail {c : Chain} {u : State} {next : List Byte → State → Host.Outcome State Fault Refusal}
    {k : Cause} (h : answerTo c u = .fail k) :
    orchPrim (.ok (bus c u)) next = .next (raise .transferFailed k (afterChain c u)) := by
  simp only [orchPrim, bus, h]

/-! ### The poll loop -/

/-- One turn of the poll loop at the bound. -/
theorem pollTurn_bound {f : State → State} {s : State} (h : s.par.pollMax = some s.w.pollCnt) :
    pollTurn f s = raiseBare .timedOut s := by
  rw [pollTurn, if_pos (by simp [pollBoundReached, h])]

/-- The state after a status chain that answered the byte `b`, counted. -/
def polled (b : Byte) (s : State) : State := setPollCnt (s.w.pollCnt + 1) (setStatus b (afterChain chainR s))

/-- One turn of the poll loop below the bound: the status chain answers one byte or fails. -/
theorem pollTurn_below {f : State → State} {s : State} (h : s.par.pollMax ≠ some s.w.pollCnt) :
    (∃ b, answerTo chainR s = .ok [b] ∧
      pollTurn f s = if b = readyByte then f (polled b s) else polled b s) ∨
    (∃ k, answerTo chainR s = .fail k ∧
      pollTurn f s = raise .transferFailed k (setPollCnt (s.w.pollCnt + 1) (setStatus s.w.status (afterChain chainR s)))) := by
  rw [pollTurn, if_neg (by simp [pollBoundReached, h])]
  cases ha : answerTo chainR s with
  | ok rx =>
    obtain ⟨b, rfl⟩ : ∃ b, rx = [b] := List.length_eq_one_iff.1 ((answerOf_answerTo chainR s).1 rx ha).1
    refine .inl ⟨b, rfl, ?_⟩
    simp [primStatus, ha, statusAfter, ready, polled]
  | fail k =>
    refine .inr ⟨k, rfl, ?_⟩
    simp [primStatus, ha, statusAfter]

end Sys2Proof.Machine
end

