-- ==== Sys2Proof/Laws/PerInstr.lean ====
section
/-! SUPPORT. Laws stated per instruction: the shape of the chain an instruction is encoded as (R94, R161). -/

namespace Sys2Proof.Laws.ChainShape

open Sys2Proof Config

/-- A well-formed instruction's chain, where it has one, has one or two transfers, each of at least one 8-bit unit at
100 kHz; it is the header-less status poll, or its first transfer transmits the two bytes of the instruction's header. -/
def Statement (i : Instr) : Prop :=
  wellFormed i = true →
    ∀ (p : Params) (org16 : Bool) (aEff : Nat) (c : Chain), encodeChain p org16 aEff i = some c →
      (c.length = 1 ∨ c.length = 2) ∧ (∀ t ∈ c, t.bits = 8 ∧ t.hz = 100000 ∧ 1 ≤ t.len) ∧
        (c = chainR ∨ ∃ v rest, encodeHeader p org16 aEff i = some v ∧ c = txTransfer (be16 v) :: rest)

/-- A header-only chain has the shape. -/
theorem chainH_shape (v : Nat) :
    ((chainH v).length = 1 ∨ (chainH v).length = 2) ∧ ∀ t ∈ chainH v, t.bits = 8 ∧ t.hz = 100000 ∧ 1 ≤ t.len := by
  refine ⟨.inl rfl, fun t h => ?_⟩
  obtain rfl : t = txTransfer (be16 v) := by simpa [chainH] using h
  exact ⟨rfl, rfl, by simp [txTransfer, be16]⟩

theorem encode (opcode payload dummy aEff : Nat) : Statement (.encode opcode payload dummy aEff) :=
  fun _ _ _ _ _ h => nomatch h

theorem read (address length : Nat) : Statement (.read address length) := by
  intro hw p org16 aEff c h
  cases h
  have hl : 1 ≤ length := by simpa [wellFormed] using hw
  refine ⟨.inr rfl, fun t ht => ?_, .inr ⟨_, _, rfl, rfl⟩⟩
  simp only [chainHR, List.mem_cons, List.not_mem_nil, or_false] at ht
  rcases ht with rfl | rfl
  · exact ⟨rfl, rfl, by simp [txTransfer, be16]⟩
  · exact ⟨rfl, rfl, hl⟩

theorem write (address : Nat) (data : List Byte) : Statement (.write address data) := by
  intro hw p org16 aEff c h
  cases h
  have hl : 1 ≤ data.length := by simpa [wellFormed] using hw
  refine ⟨.inr rfl, fun t ht => ?_, .inr ⟨_, _, rfl, rfl⟩⟩
  simp only [chainHW, List.mem_cons, List.not_mem_nil, or_false] at ht
  rcases ht with rfl | rfl
  · exact ⟨rfl, rfl, by simp [txTransfer, be16]⟩
  · exact ⟨rfl, rfl, hl⟩

theorem special (opcode subcode : Nat) : Statement (.special opcode subcode) := by
  intro _ p org16 aEff c h
  cases h
  exact ⟨(chainH_shape _).1, (chainH_shape _).2, .inr ⟨_, _, rfl, rfl⟩⟩

theorem ewen : Statement .ewen := by
  intro _ p org16 aEff c h
  cases h
  exact ⟨(chainH_shape _).1, (chainH_shape _).2, .inr ⟨_, _, rfl, rfl⟩⟩

theorem ewds : Statement .ewds := by
  intro _ p org16 aEff c h
  cases h
  exact ⟨(chainH_shape _).1, (chainH_shape _).2, .inr ⟨_, _, rfl, rfl⟩⟩

theorem eral : Statement .eral := by
  intro _ p org16 aEff c h
  cases h
  exact ⟨(chainH_shape _).1, (chainH_shape _).2, .inr ⟨_, _, rfl, rfl⟩⟩

theorem status : Statement .status := by
  intro _ p org16 aEff c h
  cases h
  refine ⟨.inl rfl, fun t ht => ?_, .inl rfl⟩
  obtain rfl : t = rxTransfer 1 := by simpa [chainR] using ht
  exact ⟨rfl, rfl, le_rfl⟩

theorem finalize (name : Option Name) (sizeBytes addrBits : Option Nat) (orgSup : Option OrgSup) (mode : AccessMode) :
    Statement (.finalize name sizeBytes addrBits orgSup mode) :=
  fun _ _ _ _ _ h => nomatch h

theorem readArray (burst : Bool) : Statement (.readArray burst) :=
  fun _ _ _ _ _ h => nomatch h

theorem writeArray : Statement .writeArray :=
  fun _ _ _ _ _ h => nomatch h

theorem eraseArray : Statement .eraseArray :=
  fun _ _ _ _ _ h => nomatch h

end Sys2Proof.Laws.ChainShape
end

