-- ==== Sys2Proof/Laws/Profile.lean ====
section
/-! SUPPORT. The catalog lookup of FINALIZE: what it finds, and when it is refused. -/

namespace Sys2Proof.Machine

open Sys2Proof Config

/-- In a catalog whose names are distinct, the lookup finds exactly the entry with the name (R122). -/
theorem catalogLookup_eq_some {cat : List CatalogEntry} {n : Name} {e : CatalogEntry}
    (h : catalogDistinct cat = true) : catalogLookup cat n = some e ↔ e ∈ cat ∧ foldName e.name = foldName n := by
  induction cat with
  | nil => simp [catalogLookup]
  | cons d cat ih =>
    simp only [catalogDistinct, decide_eq_true_eq, List.map_cons, List.nodup_cons, List.mem_map, not_exists,
      not_and] at h ih
    by_cases hd : foldName d.name = foldName n
    · simp only [catalogLookup, List.find?_cons, hd, decide_true, Option.some.injEq, List.mem_cons]
      constructor
      · rintro rfl
        exact ⟨.inl rfl, hd⟩
      · rintro ⟨rfl | he, hn⟩
        · rfl
        · exact absurd (hn.trans hd.symm) (h.1 e he)
    · have hl : catalogLookup (d :: cat) n = catalogLookup cat n := by simp [catalogLookup, hd]
      rw [hl, ih h.2, List.mem_cons]
      constructor
      · exact fun ⟨he, hn⟩ => ⟨.inr he, hn⟩
      · rintro ⟨rfl | he, hn⟩
        · exact absurd hn hd
        · exact ⟨he, hn⟩

/-- No entry has the name: the lookup misses (R122). -/
theorem catalogLookup_eq_none {cat : List CatalogEntry} {n : Name} :
    catalogLookup cat n = none ↔ ∀ e ∈ cat, foldName e.name ≠ foldName n := by
  simp [catalogLookup]

/-- Two entries whose names fold to one: the catalog is none of R122's. -/
theorem catalogDistinct_collision {a b c : List CatalogEntry} {d e : CatalogEntry}
    (h : foldName d.name = foldName e.name) : catalogDistinct (a ++ d :: b ++ e :: c) = false := by
  simp [catalogDistinct, List.nodup_append, h]

/-- A lookup is refused exactly where the catalog's names are not distinct, whatever the name (R122, U23). -/
theorem chooseProfile_name {cat : List CatalogEntry} {n : Name} :
    chooseProfile cat (some n) none none none = .ambiguous ↔ catalogDistinct cat = false := by
  constructor
  · intro h
    by_contra hd
    simp only [chooseProfile, Option.isSome_none, Bool.or_false, Bool.false_eq_true, if_false, hd] at h
    cases hl : catalogLookup cat n <;> simp [hl] at h
  · intro h
    simp [chooseProfile, h]

end Sys2Proof.Machine
end

