-- ==== Sys2Proof/Laws/Step.lean ====
section
/-! SUPPORT. What a step can do: one lemma for the step, one for each row of R208, one for each accepted command; each
says all the next states there are. -/

namespace Sys2Proof.Machine

open Sys2Proof Config

/-! ### The step -/

theorem step_reset {s : State} (h : s.resetIn = true) : step s = resetStep s := by simp [step, h]

theorem step_busy {s : State} (hr : s.resetIn = false) (hb : s.st.busy = true) : step s = advance s := by
  simp [step, hr, hb]

/-- All a step can do when it answers a next state. -/
theorem step_cases {s t : State} (h : step s = .next t) :
    (s.resetIn = true ∧ s.st.busy = false ∧ t = applyReset s) ∨
    (s.resetIn = false ∧ s.st.busy = true ∧ advance s = .next t) ∨
    (s.resetIn = false ∧ s.st.busy = false ∧ s.host = [] ∧ t = s) ∨
    (s.resetIn = false ∧ s.st.busy = false ∧ ∃ i rest, s.host = .command i :: rest ∧ exec i (popHost s) = .next t) ∨
    (s.resetIn = false ∧ s.st.busy = false ∧ ∃ bs rest, s.host = .image bs :: rest ∧ t = loadImage bs (popHost s)) ∨
    (s.resetIn = false ∧ s.st.busy = false ∧ ∃ rest, s.host = .assertReset :: rest ∧ t = raiseReset (popHost s)) := by
  unfold step at h
  split at h
  · unfold resetStep at h
    split at h
    · cases h
    · exact .inl ⟨‹_›, Bool.eq_false_iff.2 ‹_›, by cases h; rfl⟩
  · have hr : s.resetIn = false := Bool.eq_false_iff.2 ‹_›
    split at h
    · exact .inr (.inl ⟨hr, ‹_›, h⟩)
    · have hb : s.st.busy = false := Bool.eq_false_iff.2 ‹_›
      cases hh : s.host with
      | nil =>
        rw [hh] at h
        exact .inr (.inr (.inl ⟨hr, hb, rfl, by cases h; rfl⟩))
      | cons a rest =>
        rw [hh] at h
        cases a with
        | command i => exact .inr (.inr (.inr (.inl ⟨hr, hb, i, rest, rfl, h⟩)))
        | image bs => exact .inr (.inr (.inr (.inr (.inl ⟨hr, hb, bs, rest, rfl, by cases h; rfl⟩))))
        | assertReset => exact .inr (.inr (.inr (.inr (.inr ⟨hr, hb, rest, rfl, by cases h; rfl⟩))))

/-! ### The rows of R208 -/

/-- The row Reading. -/
theorem advReading_next {s t : State} (h : advReading s = .next t) :
    ∃ u c, u = afterChain c (setHdr (readHdr s.w.addr s) s) ∧ c = readChain s.w.addr (stepLen s) s ∧
      ((∃ k, answerTo c (setHdr (readHdr s.w.addr s) s) = .fail k ∧ t = raise .transferFailed k u) ∨
        (∃ rx, answerTo c (setHdr (readHdr s.w.addr s) s) = .ok rx ∧ rx.length = stepLen s ∧
          s.w.addr + rx.length ≤ s.imgLen ∧ t = afterStore { u with img := writeBytes s.img s.w.addr rx })) := by
  refine ⟨_, _, rfl, rfl, ?_⟩
  unfold advReading at h
  cases hp : primRead s.w.addr (stepLen s) s with
  | error r =>
    rw [hp] at h
    cases h
  | ok out =>
    obtain ⟨-, -, rfl⟩ := primRead_inv hp
    rw [hp] at h
    rcases orchPrim_next h with ⟨k, hk, ht⟩ | ⟨rx, hrx, ht⟩
    · exact .inl ⟨k, hk, ht⟩
    · refine .inr ⟨rx, hrx, ?_, ?_⟩
      · have := ((answerOf_answerTo _ _).1 rx hrx).1
        rwa [readChain, rxTotal_chainHR] at this
      · split at ht
        · cases ht
        · rename_i u hm
          obtain ⟨hl, rfl⟩ := memWrite_eq_some hm
          exact ⟨hl, by cases ht; rfl⟩

/-- The row Enabling. -/
theorem advEnabling_next {s t : State} (h : advEnabling s = .next t) :
    ∃ u v, u = afterChain (specialChain opcCtrl s.par.subEwen.toNat s) (setHdr v s) ∧
      ((∃ k, answerTo (specialChain opcCtrl s.par.subEwen.toNat s) (setHdr v s) = .fail k ∧
          t = raise .transferFailed k u) ∨
        (s.orchOp = .write ∧ t = goto .writing (setIdx 0 u)) ∨ (s.orchOp = .erase ∧ t = goto .erasing u)) := by
  refine ⟨_, specialHdr opcCtrl s.par.subEwen.toNat s, rfl, ?_⟩
  unfold advEnabling at h
  cases hp : primEwen s with
  | error r =>
    rw [hp] at h
    split at h <;> cases h
  | ok out =>
    obtain ⟨-, -, rfl⟩ := primSpecial_inv hp
    rw [hp] at h
    split at h
    · rcases orchPrim_next h with ⟨k, hk, ht⟩ | ⟨rx, -, ht⟩
      · exact .inl ⟨k, hk, ht⟩
      · exact .inr (.inl ⟨‹_›, by cases ht; rfl⟩)
    · rcases orchPrim_next h with ⟨k, hk, ht⟩ | ⟨rx, -, ht⟩
      · exact .inl ⟨k, hk, ht⟩
      · exact .inr (.inr ⟨‹_›, by cases ht; rfl⟩)
    · cases h

/-- The row Writing. -/
theorem advWriting_next {s t : State} (h : advWriting s = .next t) :
    ∃ s' u c data, s' = setAddr (s.w.idx * wordSize s) s ∧ c = writeChain (s.w.idx * wordSize s) data s' ∧
      data = readBytes s.img (s.w.idx * wordSize s) (wordSize s) ∧
      u = afterChain c (setHdr (writeHdr (s.w.idx * wordSize s) s') s') ∧
      ((∃ k, answerTo c (setHdr (writeHdr (s.w.idx * wordSize s) s') s') = .fail k ∧
          t = raise .transferFailed k u) ∨
        t = goto .waitingReady (setPollCnt 0 u)) := by
  refine ⟨_, _, _, _, rfl, rfl, rfl, rfl, ?_⟩
  unfold advWriting at h
  simp only at h
  cases hm : memRead (setAddr (s.w.idx * wordSize s) s).w.addr (wordSize (setAddr (s.w.idx * wordSize s) s))
      (setAddr (s.w.idx * wordSize s) s) with
  | none =>
    rw [hm] at h
    cases h
  | some data =>
    rw [hm] at h
    simp only at h
    have hd : data = readBytes s.img (s.w.idx * wordSize s) (wordSize s) := by
      unfold memRead at hm
      split at hm
      · cases hm
        rfl
      · cases hm
    subst hd
    cases hp : primWrite (setAddr (s.w.idx * wordSize s) s).w.addr
        (readBytes s.img (s.w.idx * wordSize s) (wordSize s)) (setAddr (s.w.idx * wordSize s) s) with
    | error r =>
      rw [hp] at h
      cases h
    | ok out =>
      obtain ⟨-, -, rfl⟩ := primWrite_inv hp
      rw [hp] at h
      rcases orchPrim_next h with ⟨k, hk, ht⟩ | ⟨rx, -, ht⟩
      · exact .inl ⟨k, hk, ht⟩
      · exact .inr (by cases ht; rfl)

/-- One turn of the poll loop. -/
theorem pollTurn_cases (f : State → State) (s : State) :
    (s.par.pollMax = some s.w.pollCnt ∧ pollTurn f s = raiseBare .timedOut s) ∨
    (∃ k, answerTo chainR s = .fail k ∧ pollTurn f s =
      raise .transferFailed k (setPollCnt (s.w.pollCnt + 1) (setStatus s.w.status (afterChain chainR s)))) ∨
    (∃ b, answerTo chainR s = .ok [b] ∧ b ≠ readyByte ∧ pollTurn f s = polled b s) ∨
    (answerTo chainR s = .ok [readyByte] ∧ pollTurn f s = f (polled readyByte s)) := by
  by_cases hb : s.par.pollMax = some s.w.pollCnt
  · exact .inl ⟨hb, pollTurn_bound hb⟩
  · rcases pollTurn_below (f := f) hb with ⟨b, ha, ht⟩ | ⟨k, ha, ht⟩
    · by_cases hr : b = readyByte
      · subst hr
        rw [if_pos rfl] at ht
        exact .inr (.inr (.inr ⟨ha, ht⟩))
      · rw [if_neg hr] at ht
        exact .inr (.inr (.inl ⟨b, ha, hr, ht⟩))
    · exact .inr (.inl ⟨k, ha, ht⟩)

/-- The row Erasing. -/
theorem advErasing_next {s t : State} (h : advErasing s = .next t) :
    (s.erasePolling = true ∧ t = pollTurn finish s) ∨
    (s.erasePolling = false ∧ ∃ u v, u = afterChain (specialChain opcCtrl s.par.subEral.toNat s) (setHdr v s) ∧
      ((∃ k, answerTo (specialChain opcCtrl s.par.subEral.toNat s) (setHdr v s) = .fail k ∧
          t = raise .transferFailed k u) ∨
        (s.par.erasePoll = true ∧ t = { setPollCnt 0 u with erasePolling := true }) ∨
        (s.par.erasePoll = false ∧ t = finish u))) := by
  unfold advErasing at h
  split at h
  · exact .inl ⟨‹_›, by cases h; rfl⟩
  · refine .inr ⟨Bool.eq_false_iff.2 ‹_›, _, specialHdr opcCtrl s.par.subEral.toNat s, rfl, ?_⟩
    cases hp : primEral s with
    | error r =>
      rw [hp] at h
      cases h
    | ok out =>
      obtain ⟨-, -, rfl⟩ := primSpecial_inv hp
      rw [hp] at h
      rcases orchPrim_next h with ⟨k, hk, ht⟩ | ⟨rx, -, ht⟩
      · exact .inl ⟨k, hk, ht⟩
      · split at ht
        · exact .inr (.inl ⟨‹_›, by cases ht; rfl⟩)
        · exact .inr (.inr ⟨Bool.eq_false_iff.2 ‹_›, by cases ht; rfl⟩)

/-! ### The commands -/

/-- A primitive at the port that answered: the answer of its one chain, or the refusal. -/
theorem portPrim_next {result : List Byte → ResVal} {out : PrimOut} {t : State} (h : portPrim result out = .next t) :
    ∃ o, out = .ok o ∧ t = portEnd result o := by
  unfold portPrim at h
  split at h
  · cases h
  · exact ⟨_, rfl, by cases h; rfl⟩

/-- FINALIZE: the good end, or a condition. -/
theorem runFinalize_next {choice : ProfileChoice} {mode : AccessMode} {s t : State}
    (h : runFinalize choice mode s = .next t) :
    (∃ size ab sup, choice = .profile size ab sup ∧ geometryCond size ab sup mode = .none ∧
      t = finish { s with cfg := committedCfg size ab sup mode }) ∨
    (∃ c, c ≠ .none ∧ t = raiseBare c s) ∨ (choice = .raises .none ∧ t = raiseBare .none s) := by
  unfold runFinalize at h
  split at h
  · cases h
  · rename_i c
    cases h
    by_cases hc : c = .none
    · exact .inr (.inr ⟨by rw [hc], by rw [hc]⟩)
    · exact .inr (.inl ⟨c, hc, rfl⟩)
  · split at h
    · cases h
      exact .inl ⟨_, _, _, rfl, ‹_›, rfl⟩
    · rename_i hc
      cases h
      exact .inr (.inl ⟨_, hc, rfl⟩)

/-- READ_ARRAY at an idle port: the mismatch, or Reading. -/
theorem execReadArray_next {burst : Bool} {s t : State} (hb : s.st.busy = false)
    (h : execReadArray burst s = .next t) :
    s.cfg.finalized = true ∧ wordSize s ≤ s.cfg.sizeBytes ∧
      ((s.imgLen ≠ s.cfg.sizeBytes ∧ t = raiseBare .imageSizeMismatch (setImgValid false (accept .read s))) ∨
        (s.imgLen = s.cfg.sizeBytes ∧
          t = { goto .reading (setAddr 0 (setImgValid false (accept .read s))) with burst := burst })) := by
  rw [execReadArray, whenIdle_idle hb] at h
  split at h
  · cases h
  · split at h
    · cases h
    · refine ⟨by simpa using ‹¬ s.cfg.finalized = false›, by omega, ?_⟩
      simp only at h
      split at h
      · exact .inl ⟨‹_›, by cases h; rfl⟩
      · rename_i hl
        exact .inr ⟨not_not.1 hl, by cases h; rfl⟩

/-- WRITE_ARRAY at an idle port: the mismatch, or Enabling. -/
theorem execWriteArray_next {s t : State} (hb : s.st.busy = false) (h : execWriteArray s = .next t) :
    s.cfg.finalized = true ∧ wordSize s ≤ s.cfg.sizeBytes ∧
      ((s.imgLen ≠ s.cfg.sizeBytes ∧ t = raiseBare .imageSizeMismatch (accept .write s)) ∨
        (s.imgLen = s.cfg.sizeBytes ∧ t = goto .enabling (accept .write s))) := by
  rw [execWriteArray, whenIdle_idle hb] at h
  split at h
  · cases h
  · split at h
    · cases h
    · refine ⟨by simpa using ‹¬ s.cfg.finalized = false›, by omega, ?_⟩
      simp only at h
      split at h
      · exact .inl ⟨‹_›, by cases h; rfl⟩
      · rename_i hl
        exact .inr ⟨not_not.1 hl, by cases h; rfl⟩

/-- ERASE_ARRAY at an idle port: Enabling. -/
theorem execEraseArray_next {s t : State} (hb : s.st.busy = false) (h : execEraseArray s = .next t) :
    s.cfg.finalized = true ∧ t = goto .enabling (accept .erase s) := by
  rw [execEraseArray, whenIdle_idle hb] at h
  split at h
  · cases h
  · exact ⟨by simpa using ‹¬ s.cfg.finalized = false›, by cases h; rfl⟩

/-- The primitives at an idle port: ENCODE's result, or what one chain on some header value answered. -/
theorem prim_next {i : Instr} {s t : State} (hb : s.st.busy = false) (h : exec i s = .next t)
    (hi : needsProfile i = true ∨ i = .status) (ho : ∀ b, i ≠ .readArray b) (hw : i ≠ .writeArray)
    (he : i ≠ .eraseArray) :
    ∃ result a c u, t = portEnd result (a, u) ∧ a = answerTo c (accept .prim s) ∧
      u = { afterChain c (accept .prim s) with w := u.w } ∧ KeepsCounters s u := by
  have key : ∀ (v : Nat) (c : Chain), ∃ a u, bus c (setHdr v (accept .prim s)) = (a, u) ∧
      a = answerTo c (accept .prim s) ∧ u = { afterChain c (accept .prim s) with w := u.w } ∧ KeepsCounters s u :=
    fun v c => ⟨_, _, rfl, rfl, rfl, rfl, rfl, rfl⟩
  cases i with
  | read a n =>
    obtain ⟨o, hp, rfl⟩ := portPrim_next ((whenIdle_idle hb).symm.trans h)
    obtain ⟨-, -, rfl⟩ := primRead_inv hp
    obtain ⟨x, u, e, h1⟩ := key (readHdr a (accept .prim s)) (readChain a n (accept .prim s))
    exact ⟨_, _, _, _, congrArg _ e, h1⟩
  | write a data =>
    obtain ⟨o, hp, rfl⟩ := portPrim_next ((whenIdle_idle hb).symm.trans h)
    obtain ⟨-, -, rfl⟩ := primWrite_inv hp
    obtain ⟨x, u, e, h1⟩ := key (writeHdr a (accept .prim s)) (writeChain a data (accept .prim s))
    exact ⟨_, _, _, _, congrArg _ e, h1⟩
  | special o sub =>
    obtain ⟨o', hp, rfl⟩ := portPrim_next ((whenIdle_idle hb).symm.trans h)
    obtain ⟨-, -, rfl⟩ := primSpecial_inv hp
    obtain ⟨x, u, e, h1⟩ := key (specialHdr o sub (accept .prim s)) (specialChain o sub (accept .prim s))
    exact ⟨_, _, _, _, congrArg _ e, h1⟩
  | ewen =>
    obtain ⟨o', hp, rfl⟩ := portPrim_next ((whenIdle_idle hb).symm.trans h)
    obtain ⟨-, -, rfl⟩ := primSpecial_inv hp
    obtain ⟨x, u, e, h1⟩ := key (specialHdr opcCtrl s.par.subEwen.toNat (accept .prim s))
      (specialChain opcCtrl s.par.subEwen.toNat (accept .prim s))
    exact ⟨_, _, _, _, congrArg _ e, h1⟩
  | ewds =>
    obtain ⟨o', hp, rfl⟩ := portPrim_next ((whenIdle_idle hb).symm.trans h)
    obtain ⟨-, -, rfl⟩ := primSpecial_inv hp
    obtain ⟨x, u, e, h1⟩ := key (specialHdr opcCtrl s.par.subEwds.toNat (accept .prim s))
      (specialChain opcCtrl s.par.subEwds.toNat (accept .prim s))
    exact ⟨_, _, _, _, congrArg _ e, h1⟩
  | eral =>
    obtain ⟨o', hp, rfl⟩ := portPrim_next ((whenIdle_idle hb).symm.trans h)
    obtain ⟨-, -, rfl⟩ := primSpecial_inv hp
    obtain ⟨x, u, e, h1⟩ := key (specialHdr opcCtrl s.par.subEral.toNat (accept .prim s))
      (specialChain opcCtrl s.par.subEral.toNat (accept .prim s))
    exact ⟨_, _, _, _, congrArg _ e, h1⟩
  | status =>
    have h' := (whenIdle_idle hb).symm.trans h
    cases h'
    exact ⟨_, _, chainR, (primStatus (accept .prim s)).2, rfl, rfl, rfl, rfl, rfl, rfl⟩
  | encode _ _ _ _ => simp [needsProfile] at hi
  | finalize _ _ _ _ _ => simp [needsProfile] at hi
  | readArray b => exact absurd rfl (ho b)
  | writeArray => exact absurd rfl hw
  | eraseArray => exact absurd rfl he

/-- ENCODE at an idle port: its header in `W.HDR` and `RES`. -/
theorem execEncode_next {opcode payload dummy aEff : Nat} {s t : State} (hb : s.st.busy = false)
    (h : execEncode opcode payload dummy aEff s = .next t) :
    ∃ v, v = headerValue opcode payload (aEff + dummy) ∧
      t = finish (setRes (.bytes (be16 v)) (setHdr v (accept .prim s))) := by
  rw [execEncode, whenIdle_idle hb] at h
  split at h
  · exact ⟨_, rfl, by cases h; rfl⟩
  · cases h

end Sys2Proof.Machine
end

