-- ==== Sys2Proof/Laws/Run.lean ====
section
/-! SUPPORT. What the invariant gives each orchestrator state, and runs of several steps. -/

namespace Sys2Proof.Machine

open Sys2Proof Config

/-! ### What a legal profile gives -/

theorem loadImage_inside (bs : List Byte) (s : State) : Memory.inside (loadImage bs s).imgLen (loadImage bs s).img :=
  writeBytes_inside (Memory.inside_nil _) (by simp [loadImage])

theorem isPowerOfTwo_iff (n : Nat) : isPowerOfTwo n = true ↔ ∃ k, n = 2 ^ k := by
  simp only [isPowerOfTwo, decide_eq_true_eq]
  constructor
  · intro h
    exact ⟨_, h.symm⟩
  · rintro ⟨k, rfl⟩
    simp

/-- The profile of a FINALIZE whose checks passed is legal (R123 to R127). -/
theorem committedCfg_legal {size ab : Nat} {sup : OrgSup} {mode : AccessMode}
    (h : geometryCond size ab sup mode = .none) : (committedCfg size ab sup mode).Legal := by
  unfold geometryCond at h
  split at h
  · cases h
  · split at h
    · cases h
    · split at h
      · cases h
      · rename_i h1 h2 h3
        simp only [addrBitsMin, addrBitsMax] at h2
        have hab : (BitVec.ofNat 4 ab).toNat = ab := by
          simp
          omega
        have hm : currentMode (committedCfg size ab sup mode) = mode := by cases mode <;> rfl
        refine ⟨?_, ?_, ?_, ?_, ?_⟩
        · show isPowerOfTwo size = true
          simpa using h1
        · show 5 ≤ (BitVec.ofNat 4 ab).toNat
          omega
        · show (BitVec.ofNat 4 ab).toNat ≤ 9
          omega
        · rw [hm]
          show supports sup mode = true
          simpa using h3
        · rw [hm]
          show (BitVec.ofNat 4 _).toNat = effectiveBits (BitVec.ofNat 4 ab).toNat mode
          rw [hab]
          cases mode <;> simp [effectiveBits] <;> omega

theorem State.Inv.aEff_range {s : State} (h : s.Inv) (hf : s.cfg.finalized = true) :
    4 ≤ s.cfg.aEff.toNat ∧ s.cfg.aEff.toNat ≤ 9 := by
  obtain ⟨-, h5, h9, -, he⟩ := h.profile hf
  unfold effectiveBits at he
  split at he <;> omega

theorem wordSize_pos (s : State) : 1 ≤ wordSize s := by
  unfold wordSize
  split <;> omega

/-- The word size divides a size that holds at least one word (R64). -/
theorem wordSize_dvd {s : State} (hp : isPowerOfTwo s.cfg.sizeBytes = true) (h : wordSize s ≤ s.cfg.sizeBytes) :
    wordSize s ∣ s.cfg.sizeBytes := by
  obtain ⟨k, hk⟩ := (isPowerOfTwo_iff _).1 hp
  unfold wordSize at *
  split
  · rename_i h2
    rw [if_pos h2, hk] at h
    rw [hk]
    cases k with
    | zero => simp at h
    | succ k => exact ⟨2 ^ k, by ring⟩
  · exact one_dvd _

/-- A word below the word count lies inside the device. -/
theorem word_inside {s : State} (h : s.w.idx < wordCount s) :
    s.w.idx * wordSize s + wordSize s ≤ s.cfg.sizeBytes := by
  have : (s.w.idx + 1) * wordSize s ≤ s.cfg.sizeBytes := (Nat.le_div_iff_mul_le (wordSize_pos s)).1 h
  rwa [Nat.succ_mul] at this

theorem readBytes_eq_map (m : Memory) (a n : Nat) :
    readBytes m a n = (List.range n).map (fun k => readByte m (a + k)) := by
  refine List.ext_getElem (by simp) fun k h1 h2 => ?_
  rw [readBytes_getElem]
  simp

/-- The chain of a wrapper, as an arithmetic expression. -/
theorem specialChain_control {s : State} (h : 4 ≤ s.cfg.aEff.toNat) (sub : BitVec 2) :
    specialChain 0 sub.toNat s =
      chainH (4 * 2 ^ s.cfg.aEff.toNat + sub.toNat * 2 ^ (s.cfg.aEff.toNat - 2)) := by
  rw [specialChain, specialHdr, specialHeader_eq (by omega) (by omega), Nat.mod_eq_of_lt (toNat_lt_four _)]

/-! ### The ends of a transition -/

/-- Storing a step's bytes and the end of a word change none of these. -/
theorem afterStore_keeps (t : State) :
    (afterStore t).host = t.host ∧ (afterStore t).cfg = t.cfg ∧ (afterStore t).imgLen = t.imgLen ∧
      (afterStore t).par = t.par ∧ (afterStore t).resetIn = t.resetIn ∧ (afterStore t).busLog = t.busLog ∧
      (afterStore t).script = t.script ∧ (afterStore t).img = t.img := by
  unfold afterStore
  simp only
  split <;> exact ⟨rfl, rfl, rfl, rfl, rfl, rfl, rfl, rfl⟩

theorem wordDone_keeps (t : State) :
    (wordDone t).host = t.host ∧ (wordDone t).cfg = t.cfg ∧ (wordDone t).imgLen = t.imgLen ∧
      (wordDone t).par = t.par ∧ (wordDone t).resetIn = t.resetIn ∧ (wordDone t).busLog = t.busLog ∧
      (wordDone t).script = t.script ∧ (wordDone t).img = t.img := by
  unfold wordDone
  simp only
  split <;> exact ⟨rfl, rfl, rfl, rfl, rfl, rfl, rfl, rfl⟩

/-! ### Runs -/

theorem chainsSince_append {s t : State} {l : List BusEvent} (h : t.busLog = l ++ s.busLog) :
    chainsSince s t = (l.map BusEvent.chain).reverse := by
  simp [chainsSince, h]

theorem runSteps_succ {s t : State} (h : step s = .next t) (n : Nat) : runSteps (n + 1) s = runSteps n t := by
  simp [runSteps, h]

theorem runSteps_add {m : Nat} {s t : State} (n : Nat) (h : runSteps m s = .next t) :
    runSteps (m + n) s = runSteps n t := by
  induction m generalizing s with
  | zero =>
    cases h
    simp
  | succ m ih =>
    rw [Nat.succ_add]
    simp only [runSteps] at h ⊢
    cases hs : step s with
    | next x =>
      rw [hs] at h
      exact ih h
    | fault r =>
      rw [hs] at h
      cases h
    | refused r =>
      rw [hs] at h
      cases h

end Sys2Proof.Machine
end

