-- ==== Sys2Proof/Laws/Wire.lean ====
section
/-! SUPPORT. The wire-level view: the number of levels of a unit, a transfer and a trace, and a unit's bits and byte are
inverse to each other. -/

namespace Sys2Proof.Machine

open Sys2Proof Config

@[simp] theorem unitBits_length (b : Byte) : (unitBits b).length = 8 := by simp [unitBits]

/-- A unit's bit at clock `j` of its eight. -/
theorem unitBits_getElem? {j : Nat} (b : Byte) (h : j < 8) : (unitBits b)[j]? = some (b.getMsbD j) := by
  simp [unitBits, h]

/-- Sampling the bits of a unit gives the unit. -/
theorem unitOfBits_unitBits : ∀ b : Byte, unitOfBits (unitBits b) = b := by decide

/-- Eight levels are the bits of the unit they make. -/
theorem unitBits_unitOfBits : ∀ b0 b1 b2 b3 b4 b5 b6 b7 : Bool,
    unitBits (unitOfBits [b0, b1, b2, b3, b4, b5, b6, b7]) = [b0, b1, b2, b3, b4, b5, b6, b7] := by decide

/-- A transmitted sequence takes eight clocks a byte. -/
theorem flatMap_unitBits_length (bs : List Byte) : (bs.flatMap unitBits).length = 8 * bs.length := by
  simp [Nat.mul_comm]

@[simp] theorem transferDi_txTransfer (bs : List Byte) : transferDi (txTransfer bs) = bs.flatMap unitBits := rfl

@[simp] theorem transferDi_rxTransfer (n : Nat) : transferDi (rxTransfer n) = List.replicate (8 * n) false := rfl

@[simp] theorem clockLevels_length (b : Bool) : (clockLevels b).length = 2 := rfl

/-- Two levels of `SCK` a clock, and the two after the last. -/
theorem chainTrace_length (c : Chain) : (chainTrace c).length = 2 * (chainDi c).length + 2 := by
  simp [chainTrace, Nat.mul_comm]

@[simp] theorem unitsOf_length (n : Nat) (levels : List Bool) : (unitsOf n levels).length = n := by
  induction n generalizing levels with
  | zero => rfl
  | succ n ih => simp [unitsOf, ih]

@[simp] theorem transferRx_length (t : Transfer) (levels : List Bool) : (transferRx t levels).length = t.rxLen := by
  simp [transferRx]

/-- A transfer that asks for nothing ignores `DO` (R172). -/
@[simp] theorem transferRx_txTransfer (bs : List Byte) (levels : List Bool) : transferRx (txTransfer bs) levels = [] := rfl

/-- The bits of a byte sequence, sampled, give the sequence. -/
theorem unitsOf_flatMap_unitBits (rx : List Byte) : unitsOf rx.length (rx.flatMap unitBits) = rx := by
  induction rx with
  | nil => rfl
  | cons b rx ih =>
    simp only [List.length_cons, unitsOf, List.flatMap_cons]
    rw [List.take_left' (unitBits_length b), List.drop_left' (unitBits_length b), ih, unitOfBits_unitBits]

/-- A chain receives as many bytes as it asks for, whatever `DO` is (R14). -/
@[simp] theorem chainRx_length (c : Chain) (levels : List Bool) : (chainRx c levels).length = rxTotal c := by
  induction c generalizing levels with
  | nil => rfl
  | cons t c ih => simp [chainRx, ih, rxTotal]

end Sys2Proof.Machine
end

