-- ==== Sys2Proof/Tests/Slice0.lean ====
section
/-! SUPPORT. The model's own tests: ill-formed terms, words written out from the encoding tables, one step per vector of
95_test_vectors.md, and for every statement with hypotheses a state that meets them. -/

namespace Sys2Proof.Tests

open Sys2Proof Machine Config

set_option maxRecDepth 4000

/-! ### Ill-formed terms -/

/-- R145: an opcode of 4 (E25). -/
theorem test_wf_encode_opcode : wellFormed (.encode 4 0 0 7) = false := by decide

/-- R145: `bits = 14` (E24). -/
theorem test_wf_encode_bits : wellFormed (.encode 0 0 1 13) = false := by decide

/-- R174 (T31). -/
theorem test_wf_read_length : wellFormed (.read 0 0) = false := by decide

/-- R174 (T32). -/
theorem test_wf_write_data : wellFormed (.write 0 []) = false := by decide

/-- D33: SPECIAL's opcode is a 2-bit value. -/
theorem test_wf_special_opcode : wellFormed (.special 4 0) = false := by decide

/-- E10: the edge of the domain is well-formed. -/
theorem test_wf_encode_edge : wellFormed (.encode 3 0x1FFF 4 9) = true := by decide

/-! ### The state the tests run on -/

/-- The catalog made up in section 2 of 95_test_vectors.md. -/
def demoCatalog : List CatalogEntry :=
  [{ name := ['d', 'e', 'm', 'o'], sizeBytes := 256, addrBits := 8, orgSup := 3 },
   { name := ['o', 'n', 'l', 'y', '8'], sizeBytes := 128, addrBits := 7, orgSup := 1 }]

/-- The default parameters with that catalog. -/
def par : Params := { Config.params with catalog := demoCatalog }

/-- An idle machine with a profile, its collaborator's next answers, and an image. -/
def idleAt (c : Cfg) (answers : List BusAnswer) (bytes : List Byte) : State :=
  loadImage bytes { State.reset with par := par, cfg := c, script := answers }

/-- The profiles of the vectors: 8-bit mode with `A_EFF` 7, 5 and 9, 16-bit mode with `A_EFF` 6 and 4. -/
def p7 : Cfg := committedCfg 128 7 3 .x8
def p5 : Cfg := committedCfg 4 5 1 .x8
def p9 : Cfg := committedCfg 512 9 3 .x8
def p6w : Cfg := committedCfg 128 7 3 .x16
def p4w : Cfg := committedCfg 8 5 3 .x16

/-- Whether an outcome is a next state of which `q` holds. -/
def nextIs (o : Host.Outcome State Fault Refusal) (q : State → Bool) : Bool :=
  match o with
  | .next t => q t
  | .fault _ => false
  | .refused _ => false

/-- Whether an outcome is this refusal. -/
def refusedIs (o : Host.Outcome State Fault Refusal) (r : Refusal) : Bool :=
  match o with
  | .refused r' => decide (r' = r)
  | .next _ => false
  | .fault _ => false

/-- The chain last issued. -/
def lastChain (s : State) : Option Chain := s.busLog.head?.map BusEvent.chain

/-! ### Words written out from the tables of R92 and R99 -/

/-- READ at `A_EFF = 7`, payload 5: `00000110 pppppppp` (K1). -/
theorem test_decode_read :
    decodeChain par false 7 [txTransfer [0b00000110#8, 0b00000101#8], rxTransfer 1] = .ok (.read 5 1) := by decide

/-- WRITE at `A_EFF = 7`, address 5: `00000010 1aaaaaaa` (K2). -/
theorem test_decode_write :
    decodeChain par false 7 [txTransfer [0b00000010#8, 0b10000101#8], txTransfer [0xAA]] = .ok (.write 5 [0xAA]) := by
  decide

/-- SPECIAL with the opcode and subcode no primitive uses, `A_EFF = 7`: `00000011 10100000` (T20). -/
theorem test_decode_special :
    decodeChain par false 7 [txTransfer [0b00000011#8, 0b10100000#8]] = .ok (.special 3 1) := by decide

/-- EWEN at `A_EFF = 4`: `00000000 01001100` (K4). -/
theorem test_decode_ewen :
    decodeChain par true 4 [txTransfer [0b00000000#8, 0b01001100#8]] = .ok .ewen := by decide

/-- EWDS at `A_EFF = 9`: `00001000 00000000`. -/
theorem test_decode_ewds :
    decodeChain par false 9 [txTransfer [0b00001000#8, 0b00000000#8]] = .ok .ewds := by decide

/-- ERAL at `A_EFF = 8`: `00000100 10000000`. -/
theorem test_decode_eral :
    decodeChain par false 8 [txTransfer [0b00000100#8, 0b10000000#8]] = .ok .eral := by decide

/-- STATUS: one received byte and no header (R94, shape `T_R`). -/
theorem test_decode_status :
    decodeChain par false 7 [{ tx := none, rxLen := 1, len := 1, bits := 8, hz := 100000 }] = .ok .status := by decide

/-- ENCODE's row `bits = 13`: `sooppppp pppppppp`. -/
theorem test_decode_encode : decodeTableWord 16 0b1110000000000001 = some (.encode 3 1 0 13) := by decide

/-- The table's numbering: the header's 16 bits, for READ at `A_EFF = 9` with payload 1: `000110pp pppppppp`. -/
theorem test_decode_table_word : decodeTableWord 16 0b0001100000000001 = some (.read 1 1) := by decide

/-- R103: no `START` bit with two opcode bits below it. -/
theorem test_decode_no_start : decodeTableWord 16 3 = none := by decide

/-- FINALIZE and the operations are command symbols without a binary code (R23); ENCODE causes no chain (R146). -/
theorem test_encode_no_chain :
    encodeChain par false 7 (.encode 0 0 0 7) = none ∧ encodeChain par false 7 (.readArray true) = none := by decide

/-- The encoder on the table of section 3 of the vectors, `A_EFF = 9`: READ max and WRITE max. -/
theorem test_encode_bytes :
    encode par false 9 (.read 0x3FF 1) = some [0x1B, 0xFF] ∧ encode par false 9 (.write 0x1FF [0]) = some [0x0B, 0xFF] := by
  decide

/-! ### One step per instruction -/

/-- E12: truncation at `bits = 13`. -/
theorem test_encode_truncates :
    nextIs (exec (.encode 3 0xFFFFFFFF 4 9) State.reset)
      (fun t => decide (t.res = .bytes [0xFF, 0xFF]) && decide (t.w.hdr = 0xFFFF) && t.st.done) = true := by decide

/-- E15: a payload one bit too wide. -/
theorem test_encode_masks :
    nextIs (exec (.encode 1 0x85 0 7) State.reset) (fun t => decide (t.res = .bytes [0x02, 0x85])) = true := by decide

/-- T4: address bit 8 truncated, two bytes received. -/
theorem test_read :
    nextIs (exec (.read 0x105 2) (idleAt p7 [.ok [0x11, 0x22]] []))
      (fun t => decide (t.res = .bytes [0x11, 0x22]) && decide (t.w.hdr = 0x0605) &&
        decide (lastChain t = some [txTransfer [0x06, 0x05], rxTransfer 2])) = true := by decide

/-- T16: `word_index` and `READ_PRESHIFT = 1`. -/
theorem test_read_preshift :
    nextIs (exec (.read 6 2)
        { idleAt p6w [.ok [0x12, 0x34]] [] with par := { par with addrUnitX16 := .wordIndex, readPreshift := true } })
      (fun t => decide (t.res = .bytes [0x12, 0x34]) && decide (t.w.hdr = 0x0306)) = true := by decide

/-- T14: `word_index`, 16-bit mode. -/
theorem test_write :
    nextIs (exec (.write 0x46 [0x12, 0x34])
        { idleAt p6w [.ok []] [] with par := { par with addrUnitX16 := .wordIndex } })
      (fun t => decide (t.res = .success) && decide (t.w.hdr = 0x0163) &&
        decide (lastChain t = some [txTransfer [0x01, 0x63], txTransfer [0x12, 0x34]])) = true := by decide

/-- T29: a failed chain. -/
theorem test_write_fails :
    nextIs (exec (.write 5 [0xAA]) (idleAt p7 [.fail { code := 9 }] []))
      (fun t => decide (t.st.cond = .transferFailed) && decide (t.st.cause = { code := 9 }) && !t.st.done &&
        decide (t.w.hdr = 0x0285)) = true := by decide

/-- T19: subcode 7 loses its high bit. -/
theorem test_special :
    nextIs (exec (.special 0 7) (idleAt p7 [.ok []] []))
      (fun t => decide (t.w.hdr = 0x0260) && decide (lastChain t = some [txTransfer [0x02, 0x60]])) = true := by decide

/-- T25: EWEN at `A_EFF = 4`. -/
theorem test_ewen :
    nextIs (exec .ewen (idleAt p4w [.ok []] [])) (fun t => decide (t.w.hdr = 0x004C) && t.st.done) = true := by decide

/-- EWDS at `A_EFF = 9` (section 3 of the vectors). -/
theorem test_ewds :
    nextIs (exec .ewds (idleAt p9 [.ok []] [])) (fun t => decide (t.w.hdr = 0x0800) && t.st.done) = true := by decide

/-- T24's shape at `A_EFF = 7`: ERAL fails. -/
theorem test_eral :
    nextIs (exec .eral (idleAt p7 [.fail { code := 3 }] []))
      (fun t => decide (t.w.hdr = 0x0240) && decide (t.st.cond.code = 5) && !t.st.busy) = true := by decide

/-- T7: one bit short of ready, before any FINALIZE. -/
theorem test_status :
    nextIs (exec .status { State.reset with script := [.ok [0xFE]] })
      (fun t => decide (t.res = .byte 0xFE) && decide (t.w.status = 0xFE) && !ready t && t.st.done) = true := by decide

/-- T8: a failed status chain leaves `W.STATUS`. -/
theorem test_status_fails :
    nextIs (exec .status { State.reset with script := [.fail { code := 1 }] })
      (fun t => decide (t.st.cond = .transferFailed) && decide (t.w.status = 0)) = true := by decide

/-- F4: case folding and the multiplexer. -/
theorem test_finalize_catalog :
    nextIs (exec (.finalize (some ['D', 'E', 'M', 'O']) none none none .x16) (idleAt State.reset.cfg [] []))
      (fun t => decide (t.cfg = { sizeBytes := 256, addrBits := 8, orgSup := 3, org16 := true, aEff := 7,
                                  finalized := true }) && t.st.done) = true := by decide

/-- F36: a failed FINALIZE after a good one changes nothing. -/
theorem test_finalize_fails :
    nextIs (exec (.finalize none (some 100) (some 8) (some 3) .x8) (idleAt p7 [] []))
      (fun t => decide (t.cfg = p7) && decide (t.st.cond.code = 3)) = true := by decide

/-- O1, acceptance: Reading from byte offset 0. -/
theorem test_read_array :
    nextIs (exec (.readArray false) (idleAt p5 [] [0, 0, 0, 0]))
      (fun t => decide (t.orchState = .reading) && decide (t.w.addr = 0) && t.st.busy) = true := by decide

/-- O7: an image buffer one byte short. -/
theorem test_read_array_short :
    nextIs (exec (.readArray false) (idleAt p5 [] [0, 0, 0]))
      (fun t => decide (t.st.cond.code = 6) && decide (t.busLog = []) && !t.st.busy) = true := by decide

/-- O11: an image one byte long; no EWEN is sent. -/
theorem test_write_array_long :
    nextIs (exec .writeArray (idleAt p5 [] [1, 2, 3, 4, 5]))
      (fun t => decide (t.st.cond.code = 6) && decide (t.busLog = [])) = true := by decide

/-- O8, acceptance: Enabling. -/
theorem test_write_array :
    nextIs (exec .writeArray (idleAt p5 [] [1, 2, 3, 4]))
      (fun t => decide (t.orchState = .enabling) && decide (t.orchOp = .write)) = true := by decide

/-- P2: ERASE_ARRAY needs no image. -/
theorem test_erase_array :
    nextIs (exec .eraseArray (idleAt p4w [] []))
      (fun t => decide (t.orchState = .enabling) && decide (t.orchOp = .erase)) = true := by decide

/-! ### One step of each row of R208 -/

/-- A machine that executes an operation. -/
def busyAt (q : OrchState) (op : OrchOp) (s : State) : State :=
  { s with orchState := q, orchOp := op, st := { s.st with busy := true } }

/-- P3, chain 2: two bytes stored at byte offset 2. -/
theorem test_reading :
    nextIs (step (setAddr 2 (busyAt .reading .read (idleAt (committedCfg 8 6 2 .x16) [.ok [3, 4]] [1, 2, 0, 0, 0, 0, 0, 0]))))
      (fun t => decide (image t = [1, 2, 3, 4, 0, 0, 0, 0]) && decide (t.w.addr = 4) &&
        decide (t.w.hdr = 0x0182)) = true := by decide

/-- P5, chain 1: EWEN, then word 0. -/
theorem test_enabling :
    nextIs (step (busyAt .enabling .write (idleAt p5 [.ok []] [1, 2, 3, 4])))
      (fun t => decide (t.orchState = .writing) && decide (t.w.hdr = 0x0098)) = true := by decide

/-- P1, chain 8: word 2 of the image is sent. -/
theorem test_writing :
    nextIs (step (setIdx 2 (busyAt .writing .write (idleAt p5 [.ok []] [0xDE, 0xAD, 0xBE, 0xEF]))))
      (fun t => decide (lastChain t = some [txTransfer [0x00, 0xA2], txTransfer [0xBE]]) &&
        decide (t.orchState = .waitingReady)) = true := by decide

/-- O14: a poll transfer fails, and is counted. -/
theorem test_poll_fails :
    nextIs (step (setPollCnt 1 (busyAt .waitingReady .write (idleAt p5 [.fail { code := 2 }] [1, 2, 3, 4]))))
      (fun t => decide (t.st.cond = .transferFailed) && decide (t.w.pollCnt = 2)) = true := by decide

/-- O15: the bound reached, no third poll. -/
theorem test_poll_bound :
    nextIs (step { setPollCnt 2 (busyAt .waitingReady .write (idleAt p5 [.ok [0xFF]] [1, 2, 3, 4])) with
        par := { par with pollMax := some 2 } })
      (fun t => decide (t.st.cond = .timedOut) && decide (t.busLog = []) && decide (t.w.pollCnt = 2)) = true := by decide

/-- P2, chain 2: ERAL ends ERASE_ARRAY. -/
theorem test_erasing :
    nextIs (step (busyAt .erasing .erase (idleAt p4w [.ok []] [])))
      (fun t => decide (t.w.hdr = 0x0048) && t.st.done && !t.st.busy) = true := by decide

/-! ### The command port -/

/-- U1: a command presented while busy has no effect. -/
theorem test_busy_port (s : State) (h : s.st.busy = true) : exec .ewen s = .next s := whenIdle_busy h

/-- T33: before a FINALIZE. -/
theorem test_not_finalized : refusedIs (exec (.read 0 1) State.reset) .notFinalized = true := by decide

/-- U8: size 1 in 16-bit mode. -/
theorem test_size_below_word :
    refusedIs (exec .writeArray (idleAt (committedCfg 1 5 3 .x16) [] [0])) .sizeBelowWord = true := by decide

/-- U23: two names equal after case folding; neither of them is looked up. -/
theorem test_ambiguous_catalog :
    refusedIs (exec (.finalize (some ['b']) none none none .x8)
      { State.reset with par := { par with catalog :=
          [{ name := ['a'], sizeBytes := 1, addrBits := 5, orgSup := 1 },
           { name := ['A'], sizeBytes := 2, addrBits := 6, orgSup := 1 },
           { name := ['b'], sizeBytes := 1, addrBits := 5, orgSup := 1 }] } }) .catalogAmbiguous = true := by decide

/-- U10: reset while a command executes. -/
theorem test_reset_while_busy :
    refusedIs (step { busyAt .enabling .write (idleAt p5 [] []) with resetIn := true }) .resetWhileBusy = true := by
  decide

/-- The host's table word for EWEN at `A_EFF = 7` runs as the first command after reset. -/
theorem test_fetch_word :
    nextIs (step (State.withFetchWord { State.reset with script := [.ok []] } 16 0b0000001001100000)) (fun t => decide (t.w.hdr = 0x0260)) = true := by
  decide

/-- R172: the sixteen `DI` levels of E3's header, `00000110 00000101`. -/
theorem test_wire :
    chainDi (chainH 0x0605) = [false, false, false, false, false, true, true, false,
      false, false, false, false, false, true, false, true] := by decide

/-- R172: eight pulses of `SCK` in one select assertion of a status poll, `DI` low. -/
theorem test_trace :
    chainTrace chainR =
      (List.replicate 8 [BusPins.mk true false false, .mk true true false]).flatten ++
        [.mk true false false, .mk false false false] := by decide

/-- R172, R61: `DO` during the header of a READ is ignored; the received byte's first level is bit 7. -/
theorem test_sample :
    chainRx (chainHR 0x0605 1) (List.replicate 16 true ++ [false, true, false, true, true, false, true, false]) =
      [0x5A] := by decide

/-- R230: the codes of the conditions. -/
theorem test_condition_codes :
    [Cond.none, .configurationConflict, .unknownCatalogEntry, .invalidGeometry, .unsupportedMode, .transferFailed,
      .imageSizeMismatch, .timedOut].map Cond.code = [0, 1, 2, 3, 4, 5, 6, 7] := by decide

/-! ### Witnesses: concrete states and operands that meet a statement's hypotheses -/

theorem legal_p7 : p7.Legal := committedCfg_legal (by decide)
theorem legal_p5 : p5.Legal := committedCfg_legal (by decide)
theorem legal_p4w : p4w.Legal := committedCfg_legal (by decide)

/-- An idle machine with a legal profile meets the invariant. -/
theorem idleAt_inv {c : Cfg} (h : c.Legal) (a : List BusAnswer) (bs : List Byte) : (idleAt c a bs).Inv :=
  ⟨loadImage_wf _ _, loadImage_inside _ _, fun _ => h, ⟨rfl, rfl, rfl, rfl⟩, (fun h => nomatch h), (fun h => nomatch h), rfl⟩

/-- A machine in one of the states of R208 meets the invariant when its registers fit that state. -/
theorem busyAt_inv {c : Cfg} {a : List BusAnswer} {bs : List Byte} {s : State} (h : c.Legal)
    (hc : s.cfg = c) (hi : s.img = (idleAt c a bs).img) (hl : s.imgLen = bs.length) (ho : OrchLegal s)
    (hd : s.st.done = false) (hn : s.st.cond = .none) (hp : s.pins = .idle) : s.Inv := by
  refine ⟨?_, ?_, fun _ => hc ▸ h, ho, fun _ => ⟨hd, hn⟩, fun hx => by simp [hd] at hx, hp⟩
  · rw [hi]
    exact loadImage_wf _ _
  · rw [hi, hl]
    exact loadImage_inside bs _

/-- ENCODE at the edge of its domain. -/
theorem witness_EncodeAnswersTheHeader : State.reset.st.busy = false ∧ 3 < 4 ∧ 9 + 4 ≤ 13 := by decide

theorem witness_HeaderValueLaws :
    (3 < 4 ∧ 13 = 9 + 4 ∧ 13 ≤ 13) ∧ (3 < 4 ∧ headerValue 3 (0xFFFF + 1) 13 = headerValue 3 0x10000 13) := by decide

theorem witness_EncodeTruncatesThePayload : 3 < 4 ∧ 9 + 4 ≤ 13 := by decide

theorem witness_EncoderDomainIsEnforced :
    (State.reset.st.busy = false ∧ (4 ≤ 4 ∨ 13 < 0 + 7)) ∧ (State.reset.st.busy = false ∧ (4 ≤ 3 ∨ 13 < 9 + 5)) ∧
      ((idleAt p7 [] []).st.busy = false ∧ (idleAt p7 [] []).cfg.finalized = true ∧ 4 ≤ 4) := by decide

theorem witness_DecodedHeadersEncodeBack : (4 < 2 ^ 16 ∧ 4 ≤ 4) ∧ (65535 < 2 ^ 16 ∧ 4 ≤ 65535) ∧ (3 < 2 ^ 16 ∧ 3 < 4) := by
  decide

theorem codes_distinct : CodesDistinct par := ⟨by decide, by decide, by decide, by decide, by decide, by decide⟩

/-- One instruction of each shape, at the ends of the range of `A_EFF` and of the payload fields. -/
theorem witness_PrimitiveChainsDecodeBack :
    CodesDistinct par ∧ (4 ≤ 4 ∧ 4 ≤ 9) ∧ (4 ≤ 9 ∧ 9 ≤ 9) ∧
      (EncodingAdmits par true 4 (.read 31 1) ∧ ∃ c, encodeChain par true 4 (.read 31 1) = some c) ∧
      (EncodingAdmits par false 9 (.write 511 [0]) ∧ ∃ c, encodeChain par false 9 (.write 511 [0]) = some c) ∧
      (EncodingAdmits { par with addrUnitX16 := .wordIndex } true 4 (.write 30 [0, 0]) ∧
        ∃ c, encodeChain { par with addrUnitX16 := .wordIndex } true 4 (.write 30 [0, 0]) = some c) ∧
      (EncodingAdmits par false 9 (.special 0 1) ∧ ∃ c, encodeChain par false 9 (.special 0 1) = some c) ∧
      (EncodingAdmits par false 4 .ewen ∧ ∃ c, encodeChain par false 4 .ewen = some c) ∧
      (EncodingAdmits par false 4 .ewds ∧ ∃ c, encodeChain par false 4 .ewds = some c) ∧
      (EncodingAdmits par false 9 .eral ∧ ∃ c, encodeChain par false 9 .eral = some c) ∧
      (EncodingAdmits par false 9 .status ∧ ∃ c, encodeChain par false 9 .status = some c) := by
  refine ⟨codes_distinct, by decide, by decide, ⟨?_, _, rfl⟩, ⟨?_, _, rfl⟩, ⟨?_, _, rfl⟩, ⟨?_, _, rfl⟩, ⟨trivial, _, rfl⟩,
    ⟨trivial, _, rfl⟩, ⟨trivial, _, rfl⟩, ⟨trivial, _, rfl⟩⟩ <;> unfold EncodingAdmits <;> decide

/-- K1, and one level of `DO` for each of its 24 clocks. -/
theorem witness_ChainOnTheWire :
    encodeChain par false 7 (.read 5 1) = some [txTransfer [0x06, 0x05], rxTransfer 1] := by decide

theorem witness_SampledLevelsMakeTheAnswer :
    encodeChain par false 7 (.read 5 1) = some [txTransfer [0x06, 0x05], rxTransfer 1] ∧
      (List.replicate 24 true).length = chainClocks [txTransfer [0x06, 0x05], rxTransfer 1] ∧
      0 < rxTotal [txTransfer [0x06, 0x05], rxTransfer 1] ∧
      [0x5A#8].length = rxTotal [txTransfer [0x06, 0x05], rxTransfer 1] := by decide

theorem witness_HeaderOnTheWire : (3 < 4 ∧ 13 ≤ 13) ∧ (0 < 4 ∧ 0 ≤ 13) := by decide

/-- The reset input asserted on an idle machine. -/
def resetAsserted : State := { idleAt p7 [] [1, 2] with resetIn := true }

theorem witness_ResetInputSetsTheListedState : resetAsserted.resetIn = true ∧ resetAsserted.st.busy = false := by decide

/-- WRITE_ARRAY waiting for word 0 of four, a device not ready twice and then ready. -/
def waiting : State := busyAt .waitingReady .write (idleAt p5 [.ok [0x00], .ok [0x7F], .ok [0xFF]] [1, 2, 3, 4])

theorem waiting_inv : waiting.Inv :=
  busyAt_inv (bs := [1, 2, 3, 4]) (a := []) legal_p5 rfl rfl rfl
    ⟨rfl, rfl, rfl, rfl, by decide, rfl, rfl, rfl⟩ rfl rfl rfl

theorem witness_ResetWhileBusyIsRefused :
    { waiting with resetIn := true }.resetIn = true ∧ { waiting with resetIn := true }.st.busy = true := by decide

theorem witness_StepRunsThePresentedCommand :
    ((presentCommand .status State.reset).resetIn = false ∧ (presentCommand .status State.reset).st.busy = false ∧
      (presentCommand .status State.reset).host = .command .status :: []) ∧
    decodeTableWord 16 0b0000001001100000 = some .ewen := by decide

theorem witness_BusyPortTakesNothing : waiting.st.busy = true ∧ ∃ t, step waiting = .next t := ⟨rfl, _, rfl⟩

/-- A machine at whose port the host supplies an image. -/
def imageOffered : State := { State.reset with host := [.image [0xDE, 0x00, 0xBE], .assertReset] }

theorem witness_IdleWaitsForTheHost :
    (State.reset.resetIn = false ∧ State.reset.st.busy = false ∧ State.reset.host = []) ∧
    (imageOffered.resetIn = false ∧ imageOffered.st.busy = false ∧
      imageOffered.host = .image [0xDE, 0x00, 0xBE] :: [.assertReset]) := by decide

/-- F1 and F2, and each lone field. -/
theorem witness_NameBesideExplicitFieldConflicts :
    State.reset.st.busy = false ∧
      ((some 128 : Option Nat) ≠ none ∨ (none : Option Nat) ≠ none ∨ (none : Option OrgSup) ≠ none) ∧
      ((none : Option Nat) ≠ none ∨ (some 7 : Option Nat) ≠ none ∨ (none : Option OrgSup) ≠ none) ∧
      ((none : Option Nat) ≠ none ∨ (none : Option Nat) ≠ none ∨ (some 1 : Option OrgSup) ≠ none) := by decide

/-- F6, and a catalog with two names that fold to one. -/
theorem witness_CatalogLookup :
    ((idleAt p7 [] []).st.busy = false ∧
      ((idleAt p7 [] []).par.catalog.map (fun e => foldName e.name)).Nodup ∧
      ∀ e ∈ (idleAt p7 [] []).par.catalog, foldName e.name ≠ foldName ['d', 'e', 'm']) ∧
    (demoCatalog ++ demoCatalog = [] ++ demoCatalog[0] :: [demoCatalog[1]] ++ demoCatalog[0] :: [demoCatalog[1]] ∧
      foldName demoCatalog[0].name = foldName demoCatalog[0].name) := by decide

theorem not_pow (n : Nat) (h : isPowerOfTwo n = false) : ∀ k, n ≠ 2 ^ k := by
  intro k e
  rw [Bool.eq_false_iff, Ne, isPowerOfTwo_iff] at h
  exact h ⟨k, e⟩

/-- F27 and F11, and the same from a catalog entry. -/
theorem witness_SizeMustBeAPowerOfTwo :
    (idleAt p7 [] []).st.busy = false ∧
    (Chosen demoCatalog none (some 0) (some 7) (some 1) 0 7 1 ∧ ∀ k, 0 ≠ 2 ^ k) ∧
    (Chosen demoCatalog none (some 100) none none 100 0 0 ∧ ∀ k, 100 ≠ 2 ^ k) ∧
    (Chosen [{ name := ['x'], sizeBytes := 300, addrBits := 7, orgSup := 1 }] (some ['X']) none none none 300 7 1 ∧
      ∀ k, 300 ≠ 2 ^ k) :=
  ⟨rfl, ⟨.inl ⟨rfl, rfl, rfl, rfl⟩, not_pow 0 (by decide)⟩, ⟨.inl ⟨rfl, rfl, rfl, rfl⟩, not_pow 100 (by decide)⟩,
    ⟨.inr ⟨['X'], { name := ['x'], sizeBytes := 300, addrBits := 7, orgSup := 1 }, by decide⟩, not_pow 300 (by decide)⟩⟩

/-- F21 and F22, the values next to the range. -/
theorem witness_AddrBitsMustBeFiveToNine :
    (idleAt p7 [] []).st.busy = false ∧
    (Chosen demoCatalog none (some 256) (some 4) (some 3) (2 ^ 8) 4 3 ∧ (4 < 5 ∨ 9 < 4)) ∧
    (Chosen demoCatalog none (some 256) (some 10) (some 3) (2 ^ 8) 10 3 ∧ (10 < 5 ∨ 9 < 10)) :=
  ⟨rfl, ⟨.inl ⟨rfl, rfl, rfl, rfl⟩, by decide⟩, ⟨.inl ⟨rfl, rfl, rfl, rfl⟩, by decide⟩⟩

/-- F23, F24 and, from the catalog, F7. -/
theorem witness_ModeMustBeSupported :
    (idleAt p7 [] []).st.busy = false ∧
    (Chosen demoCatalog none (some 256) (some 8) (some 1) (2 ^ 8) 8 1 ∧ 5 ≤ 8 ∧ 8 ≤ 9 ∧
      (AccessMode.x16 = .x8 → (1 : OrgSup).getLsbD 0 = false) ∧
      (AccessMode.x16 = .x16 → (1 : OrgSup).getLsbD 1 = false)) ∧
    (Chosen demoCatalog none (some 256) (some 8) (some 2) (2 ^ 8) 8 2 ∧
      (AccessMode.x8 = .x8 → (2 : OrgSup).getLsbD 0 = false) ∧
      (AccessMode.x8 = .x16 → (2 : OrgSup).getLsbD 1 = false)) ∧
    Chosen demoCatalog (some ['o', 'n', 'l', 'y', '8']) none none none (2 ^ 7) 7 1 :=
  ⟨rfl, ⟨.inl ⟨rfl, rfl, rfl, rfl⟩, by decide⟩, ⟨.inl ⟨rfl, rfl, rfl, rfl⟩, by decide⟩,
    .inr ⟨['o', 'n', 'l', 'y', '8'], demoCatalog[1], by decide⟩⟩

/-- F26 (5 bits), F9 (9 bits, 16-bit mode) and F3 (from the catalog). -/
theorem witness_FinalizeCommitsTheProfile :
    (idleAt p7 [] []).st.busy = false ∧
    (Chosen demoCatalog none (some 1) (some 5) (some 1) (2 ^ 0) 5 1 ∧ 5 ≤ 5 ∧ 5 ≤ 9 ∧
      (AccessMode.x8 = .x8 → (1 : OrgSup).getLsbD 0 = true) ∧
      (AccessMode.x8 = .x16 → (1 : OrgSup).getLsbD 1 = true)) ∧
    (Chosen demoCatalog none (some 512) (some 9) (some 3) (2 ^ 9) 9 3 ∧ 5 ≤ 9 ∧ 9 ≤ 9 ∧
      (AccessMode.x16 = .x8 → (3 : OrgSup).getLsbD 0 = true) ∧
      (AccessMode.x16 = .x16 → (3 : OrgSup).getLsbD 1 = true)) ∧
    Chosen demoCatalog (some ['D', 'e', 'M', 'o']) none none none (2 ^ 8) 8 3 :=
  ⟨rfl, ⟨.inl ⟨rfl, rfl, rfl, rfl⟩, by decide⟩, ⟨.inl ⟨rfl, rfl, rfl, rfl⟩, by decide⟩,
    .inr ⟨['D', 'e', 'M', 'o'], demoCatalog[0], by decide⟩⟩

/-- F36: the 16-bit FINALIZE that is repeated. -/
theorem witness_RepeatedFinalizeGivesTheSameProfile :
    ∃ t, exec (.finalize none (some 256) (some 8) (some 3) .x16) (idleAt p7 [] []) = .next t := ⟨_, rfl⟩

/-- T26 at the widest profile, answered and failed. -/
theorem witness_ReadRuns :
    (idleAt p9 [.ok [0x77]] []).st.busy = false ∧ (idleAt p9 [.ok [0x77]] []).cfg.finalized = true ∧
      (idleAt p9 [.ok [0x77]] []).cfg.aEff.toNat ≤ 9 ∧ 1 ≤ 1 := by decide

theorem witness_WriteRuns :
    (idleAt p9 [.ok []] []).st.busy = false ∧ (idleAt p9 [.ok []] []).cfg.finalized = true ∧
      (idleAt p9 [.ok []] []).cfg.aEff.toNat ≤ 9 ∧ 1 ≤ [0xAA#8].length := by decide

/-- The narrowest and the widest profile, the highest opcode. -/
theorem witness_SpecialRuns :
    ((idleAt p4w [.ok []] []).st.busy = false ∧ (idleAt p4w [.ok []] []).cfg.finalized = true ∧
      4 ≤ (idleAt p4w [.ok []] []).cfg.aEff.toNat ∧ (idleAt p4w [.ok []] []).cfg.aEff.toNat ≤ 9 ∧ 3 < 4) ∧
    ((idleAt p9 [.ok []] []).cfg.finalized = true ∧ 4 ≤ (idleAt p9 [.ok []] []).cfg.aEff.toNat ∧
      (idleAt p9 [.ok []] []).cfg.aEff.toNat ≤ 9) := by decide

theorem witness_WrappersRun :
    ((idleAt p4w [.ok []] []).st.busy = false ∧ (idleAt p4w [.ok []] []).cfg.finalized = true ∧
      4 ≤ (idleAt p4w [.ok []] []).cfg.aEff.toNat ∧ (idleAt p4w [.ok []] []).cfg.aEff.toNat ≤ 9) ∧
    (Instr.ewen = .ewen ∧ par.subEwen = 3) ∧ (Instr.ewds = .ewds ∧ par.subEwds = 0) ∧
    (Instr.eral = .eral ∧ par.subEral = 2) := by decide

theorem witness_StatusRuns : State.reset.st.busy = false := by decide

/-- T1, answered; T28, failed; T5 before any FINALIZE. -/
theorem witness_PrimitivesIssueTheirEncoding :
    ((idleAt p7 [.ok [0x5A]] []).st.busy = false ∧ wellFormed (.read 5 1) = true ∧
      (idleAt p7 [.ok [0x5A]] []).cfg.finalized = true ∧ 4 ≤ (idleAt p7 [.ok [0x5A]] []).cfg.aEff.toNat ∧
      (idleAt p7 [.ok [0x5A]] []).cfg.aEff.toNat ≤ 9 ∧
      encodeChain par false 7 (.read 5 1) = some [txTransfer [0x06, 0x05], rxTransfer 1] ∧
      (idleAt p7 [.ok [0x5A]] []).script = .ok [0x5A] :: [] ∧
      [0x5A#8].length = rxTotal [txTransfer [0x06, 0x05], rxTransfer 1] ∧
      withinLimit par [txTransfer [0x06, 0x05], rxTransfer 1] = true) ∧
    (idleAt p7 [.fail { code := 1 }] []).script = .fail { code := 1 } :: [] ∧
    (needsProfile .status = false ∧ encodeChain State.reset.par false 0 .status = some chainR) := by decide

theorem witness_CommandsNeedTheProfile :
    State.reset.st.busy = false ∧ State.reset.cfg.finalized = false ∧
      [Instr.read 0 1, .write 0 [0], .special 0 3, .ewen, .ewds, .eral, .readArray true, .writeArray,
        .eraseArray].all needsProfile = true := by decide

theorem witness_ZeroLengthDataIsRefused :
    (idleAt p7 [] []).st.busy = false ∧ (idleAt p7 [] []).cfg.finalized = true := by decide

theorem witness_AddressesWrapSilently :
    (idleAt p7 [] []).cfg.org16 = false ∧ (idleAt p7 [] []).par.readPreshift = false := by decide

theorem witness_RaiseWritesTheOutcomeOnly : Cond.transferFailed = .transferFailed ∧ Cond.timedOut ≠ .transferFailed := by
  decide

/-- An image of the device's size; the smallest device of two-byte words. -/
theorem witness_ReadArrayStartsReading :
    ((idleAt p5 [] [1, 2, 3, 4]).st.busy = false ∧ (idleAt p5 [] [1, 2, 3, 4]).cfg.finalized = true ∧
      wordSize (idleAt p5 [] [1, 2, 3, 4]) ≤ (idleAt p5 [] [1, 2, 3, 4]).cfg.sizeBytes ∧
      (idleAt p5 [] [1, 2, 3, 4]).imgLen = (idleAt p5 [] [1, 2, 3, 4]).cfg.sizeBytes) ∧
    (wordSize (idleAt (committedCfg 2 5 2 .x16) [] [1, 2]) ≤ (idleAt (committedCfg 2 5 2 .x16) [] [1, 2]).cfg.sizeBytes ∧
      (idleAt (committedCfg 2 5 2 .x16) [] [1, 2]).imgLen =
        (idleAt (committedCfg 2 5 2 .x16) [] [1, 2]).cfg.sizeBytes) := by decide

theorem witness_WriteAndEraseStartEnabling :
    (idleAt p5 [] [1, 2, 3, 4]).st.busy = false ∧ (idleAt p5 [] [1, 2, 3, 4]).cfg.finalized = true ∧
      wordSize (idleAt p5 [] [1, 2, 3, 4]) ≤ (idleAt p5 [] [1, 2, 3, 4]).cfg.sizeBytes ∧
      (idleAt p5 [] [1, 2, 3, 4]).imgLen = (idleAt p5 [] [1, 2, 3, 4]).cfg.sizeBytes := by decide

/-- O7: one byte short. -/
theorem witness_WrongImageLengthIsMismatch :
    (idleAt p5 [] [1, 2, 3]).st.busy = false ∧ (idleAt p5 [] [1, 2, 3]).cfg.finalized = true ∧
      wordSize (idleAt p5 [] [1, 2, 3]) ≤ (idleAt p5 [] [1, 2, 3]).cfg.sizeBytes ∧
      (idleAt p5 [] [1, 2, 3]).imgLen ≠ (idleAt p5 [] [1, 2, 3]).cfg.sizeBytes := by decide

/-- U8: one byte, two-byte words. -/
theorem witness_SizeBelowWordIsRefused :
    (idleAt (committedCfg 1 5 3 .x16) [] [0]).st.busy = false ∧
      (idleAt (committedCfg 1 5 3 .x16) [] [0]).cfg.finalized = true ∧
      (idleAt (committedCfg 1 5 3 .x16) [] [0]).cfg.sizeBytes < wordSize (idleAt (committedCfg 1 5 3 .x16) [] [0]) := by
  decide

/-- READ_ARRAY at byte offset `a` of four, with this answer to come. -/
def readingAt (a : Nat) (ans : BusAnswer) : State := setAddr a (busyAt .reading .read (idleAt p5 [ans] [1, 2, 3, 4]))

theorem readingAt_inv {a : Nat} (h : a + 1 ≤ 4) (ans : BusAnswer) : (readingAt a ans).Inv :=
  busyAt_inv (bs := [1, 2, 3, 4]) (a := []) legal_p5 rfl rfl rfl
    ⟨rfl, rfl, rfl, rfl, by show 1 ≤ 4; decide, h, one_dvd _, rfl, rfl⟩ rfl rfl rfl

/-- The step before the last, the last, and a failure. -/
theorem witness_ReadingTransition :
    ((readingAt 2 (.ok [9])).Inv ∧ (readingAt 2 (.ok [9])).resetIn = false ∧
      (readingAt 2 (.ok [9])).orchState = .reading ∧ 2 + 1 < 4) ∧
    ((readingAt 3 (.ok [9])).Inv ∧ 4 ≤ 3 + 1) ∧ (readingAt 3 (.fail { code := 1 })).Inv :=
  ⟨⟨readingAt_inv (by decide) _, rfl, rfl, by decide⟩, ⟨readingAt_inv (by decide) _, by decide⟩,
    readingAt_inv (by decide) _⟩

/-- An operation that is about to issue EWEN. -/
def enablingFor (op : OrchOp) : State := busyAt .enabling op (idleAt p5 [.ok []] [1, 2, 3, 4])

theorem witness_EnablingTransition :
    ((enablingFor .write).Inv ∧ (enablingFor .write).resetIn = false ∧ (enablingFor .write).orchState = .enabling) ∧
    ((enablingFor .erase).Inv ∧ (enablingFor .erase).resetIn = false ∧ (enablingFor .erase).orchState = .enabling) :=
  ⟨⟨busyAt_inv (bs := [1, 2, 3, 4]) (a := []) legal_p5 rfl rfl rfl
      ⟨rfl, rfl, rfl, rfl, .inr ⟨rfl, rfl, by decide⟩⟩ rfl rfl rfl, rfl, rfl⟩,
    ⟨busyAt_inv (bs := [1, 2, 3, 4]) (a := []) legal_p5 rfl rfl rfl ⟨rfl, rfl, rfl, rfl, .inl rfl⟩ rfl rfl rfl, rfl,
      rfl⟩⟩

/-- WRITE_ARRAY about to send the last word. -/
def writingLast : State := setIdx 3 (busyAt .writing .write (idleAt p5 [.ok []] [1, 2, 3, 4]))

theorem writingLast_inv : writingLast.Inv :=
  busyAt_inv (bs := [1, 2, 3, 4]) (a := []) legal_p5 rfl rfl rfl ⟨rfl, rfl, rfl, rfl, by decide, rfl, rfl⟩ rfl rfl rfl

theorem witness_WritingTransition :
    writingLast.Inv ∧ writingLast.resetIn = false ∧ writingLast.orchState = .writing := ⟨writingLast_inv, rfl, rfl⟩

/-- The last word's poll, with this answer to come. -/
def waitingLast (ans : BusAnswer) : State :=
  setAddr 3 (setIdx 3 (busyAt .waitingReady .write (idleAt p5 [ans] [1, 2, 3, 4])))

theorem waitingLast_inv (ans : BusAnswer) : (waitingLast ans).Inv :=
  busyAt_inv (bs := [1, 2, 3, 4]) (a := []) legal_p5 rfl rfl rfl
    ⟨rfl, rfl, rfl, rfl, by show 3 < 4 / 1; decide, rfl, rfl, rfl⟩ rfl rfl rfl

/-- A word before the last, the last word ready, and a failed poll. -/
theorem witness_WaitingTransition :
    (waiting.Inv ∧ waiting.resetIn = false ∧ waiting.orchState = .waitingReady ∧
      waiting.par.pollMax ≠ some waiting.w.pollCnt ∧ waiting.w.idx + 1 < wordCount waiting) ∧
    ((waitingLast (.ok [0xFF])).Inv ∧
      (waitingLast (.ok [0xFF])).w.idx + 1 = wordCount (waitingLast (.ok [0xFF]))) ∧
    (waitingLast (.fail { code := 1 })).Inv :=
  ⟨⟨waiting_inv, rfl, rfl, by decide, by decide⟩, ⟨waitingLast_inv _, by decide⟩, waitingLast_inv _⟩

/-- O15's bound reached, in WaitingReady and in ERASE_ARRAY's poll loop. -/
def bounded (s : State) : State := setPollCnt 2 { s with par := { par with pollMax := some 2, erasePoll := true } }

def erasePoll (answers : List BusAnswer) : State :=
  { busyAt .erasing .erase (idleAt p4w answers []) with erasePolling := true, par := { par with erasePoll := true } }

theorem witness_PollBoundRaisesTimedOut :
    ((bounded waiting).st.busy = true ∧ (bounded waiting).resetIn = false ∧
      (bounded waiting).par.pollMax = some (bounded waiting).w.pollCnt ∧ (bounded waiting).orchState = .waitingReady) ∧
    ((bounded (erasePoll [])).st.busy = true ∧ (bounded (erasePoll [])).resetIn = false ∧
      (bounded (erasePoll [])).par.pollMax = some (bounded (erasePoll [])).w.pollCnt ∧
      (bounded (erasePoll [])).orchState = .erasing ∧ (bounded (erasePoll [])).erasePolling = true) := by decide

def erasing (answers : List BusAnswer) : State := busyAt .erasing .erase (idleAt p4w answers [])

theorem erasing_inv (answers : List BusAnswer) : (erasing answers).Inv :=
  busyAt_inv (bs := []) (a := []) legal_p4w rfl rfl rfl ⟨rfl, rfl, rfl, rfl, fun h => nomatch h⟩ rfl rfl rfl

theorem erasePoll_inv (answers : List BusAnswer) : (erasePoll answers).Inv :=
  busyAt_inv (bs := []) (a := []) legal_p4w rfl rfl rfl ⟨rfl, rfl, rfl, rfl, fun _ => rfl⟩ rfl rfl rfl

/-- Both settings of `ERASE_POLL`. -/
theorem witness_ErasingTransition :
    ((erasing [.ok []]).Inv ∧ (erasing [.ok []]).resetIn = false ∧ (erasing [.ok []]).orchState = .erasing ∧
      (erasing [.ok []]).erasePolling = false ∧ (erasing [.ok []]).par.erasePoll = false) ∧
    ({ erasePoll [.ok []] with erasePolling := false }.Inv ∧
      { erasePoll [.ok []] with erasePolling := false }.par.erasePoll = true) :=
  ⟨⟨erasing_inv _, rfl, rfl, rfl, rfl⟩,
    ⟨busyAt_inv (bs := []) (a := []) legal_p4w rfl rfl rfl ⟨rfl, rfl, rfl, rfl, fun _ => rfl⟩ rfl rfl rfl, rfl⟩⟩

theorem witness_ErasePollTransition :
    (erasePoll [.ok [0xFF]]).Inv ∧ (erasePoll [.ok [0xFF]]).resetIn = false ∧
      (erasePoll [.ok [0xFF]]).orchState = .erasing ∧ (erasePoll [.ok [0xFF]]).erasePolling = true ∧
      (erasePoll [.ok [0xFF]]).par.pollMax ≠ some (erasePoll [.ok [0xFF]]).w.pollCnt :=
  ⟨erasePoll_inv _, rfl, rfl, rfl, by decide⟩

/-- O2's machine before the command. -/
def beforeBurst : State := idleAt p5 [.ok [0x10, 0x11, 0x12, 0x13]] [0, 0, 0, 0]

theorem witness_BurstReadFillsTheImage :
    beforeBurst.Inv ∧ beforeBurst.resetIn = false ∧ beforeBurst.st.busy = false ∧ beforeBurst.cfg.finalized = true ∧
      wordSize beforeBurst ≤ beforeBurst.cfg.sizeBytes ∧ beforeBurst.imgLen = beforeBurst.cfg.sizeBytes ∧
      beforeBurst.par.maxXfer = none ∧ beforeBurst.script = .ok [0x10, 0x11, 0x12, 0x13] :: [] ∧
      [0x10#8, 0x11, 0x12, 0x13].length = beforeBurst.cfg.sizeBytes :=
  ⟨idleAt_inv legal_p5 _ _, by decide⟩

/-- The four words of P2's device, read one by one. -/
def fourWords : List (List Byte) := [[1, 2], [3, 4], [5, 6], [7, 8]]

def beforeStepped : State := idleAt p4w (fourWords.map .ok ++ [.ok [9]]) [0, 0, 0, 0, 0, 0, 0, 0]

theorem witness_SteppedReadFillsTheImage :
    beforeStepped.Inv ∧ beforeStepped.resetIn = false ∧ beforeStepped.st.busy = false ∧
      beforeStepped.cfg.finalized = true ∧ wordSize beforeStepped ≤ beforeStepped.cfg.sizeBytes ∧
      beforeStepped.imgLen = beforeStepped.cfg.sizeBytes ∧ beforeStepped.par.maxXfer = none ∧
      beforeStepped.script = fourWords.map .ok ++ [.ok [9]] ∧ fourWords.length = wordCount beforeStepped ∧
      ∀ rx ∈ fourWords, rx.length = wordSize beforeStepped :=
  ⟨idleAt_inv legal_p4w _ _, by decide⟩

/-- A device ready at once (O8), of four words. -/
def beforeWrite : State :=
  idleAt p5 (.ok [] :: (List.replicate 4 [BusAnswer.ok [], .ok [0xFF]]).flatten ++ [.ok [9]]) [1, 2, 3, 4]

theorem witness_WriteArrayWithReadyDevice :
    beforeWrite.Inv ∧ beforeWrite.resetIn = false ∧ beforeWrite.st.busy = false ∧ beforeWrite.cfg.finalized = true ∧
      wordSize beforeWrite ≤ beforeWrite.cfg.sizeBytes ∧ beforeWrite.imgLen = beforeWrite.cfg.sizeBytes ∧
      beforeWrite.par.maxXfer = none ∧ beforeWrite.par.pollMax ≠ some 0 ∧
      beforeWrite.script =
        .ok [] :: (List.replicate (wordCount beforeWrite) [BusAnswer.ok [], .ok [0xFF]]).flatten ++ [.ok [9]] :=
  ⟨idleAt_inv legal_p5 _ _, by decide⟩

theorem witness_UnboundedPollNeverGivesUp :
    waiting.Inv ∧ waiting.resetIn = false ∧ waiting.orchState = .waitingReady ∧ waiting.par.pollMax = none ∧
      waiting.par.maxXfer = none ∧
      waiting.script = [0x00#8, 0x7F].map (fun b => .ok [b]) ++ [.ok [0xFF]] ∧
      ∀ b ∈ [0x00#8, 0x7F], b ≠ 0xFF :=
  ⟨waiting_inv, by decide⟩

/-- O15: `POLL_MAX = 2`. -/
def waitingBounded : State := { waiting with par := { par with pollMax := some 2 } }

theorem witness_BoundedPollTimesOut :
    waitingBounded.Inv ∧ waitingBounded.resetIn = false ∧ waitingBounded.orchState = .waitingReady ∧
      waitingBounded.w.pollCnt = 0 ∧ waitingBounded.par.pollMax = some [0x00#8, 0x7F].length ∧
      waitingBounded.par.maxXfer = none ∧
      waitingBounded.script = [0x00#8, 0x7F].map (fun b => .ok [b]) ++ [.ok [0xFF]] ∧
      ∀ b ∈ [0x00#8, 0x7F], b ≠ 0xFF :=
  ⟨busyAt_inv (bs := [1, 2, 3, 4]) (a := []) legal_p5 rfl rfl rfl
    ⟨rfl, rfl, rfl, rfl, by decide, rfl, rfl, rfl⟩ rfl rfl rfl, by decide⟩

def beforeErase : State := idleAt p7 [.ok [], .ok [], .ok [9]] []

theorem witness_EraseArrayEndsAfterTwoChains :
    beforeErase.Inv ∧ beforeErase.resetIn = false ∧ beforeErase.st.busy = false ∧ beforeErase.cfg.finalized = true ∧
      beforeErase.par.maxXfer = none ∧ beforeErase.par.erasePoll = false ∧
      beforeErase.script = .ok [] :: .ok [] :: [.ok [9]] :=
  ⟨idleAt_inv legal_p7 _ _, by decide⟩

theorem witness_StepKeepsTheInvariant : waiting.Inv ∧ ∃ t, step waiting = .next t := ⟨waiting_inv, _, rfl⟩

theorem witness_LegalStatesNeverFault : waiting.Inv ∧ waiting.resetIn = false ∧ waiting.st.busy = true :=
  ⟨waiting_inv, rfl, rfl⟩

/-- A running command, and one that ends with the step: the last word of WRITE_ARRAY, and ENCODE at the port. -/
theorem witness_EndedCommandsShowOneOutcome :
    ((waitingLast (.ok [0xFF])).Inv ∧ (waitingLast (.ok [0xFF])).resetIn = false ∧
      (waitingLast (.ok [0xFF])).st.busy = true ∧
      nextIs (step (waitingLast (.ok [0xFF]))) (fun t => !t.st.busy) = true) ∧
    ((presentCommand (.encode 0 0 0 7) (idleAt p7 [] [])).Inv ∧
      (presentCommand (.encode 0 0 0 7) (idleAt p7 [] [])).host = .command (.encode 0 0 0 7) :: [] ∧
      nextIs (step (presentCommand (.encode 0 0 0 7) (idleAt p7 [] []))) (fun t => !t.st.busy) = true) :=
  ⟨⟨waitingLast_inv _, by decide⟩,
    ⟨⟨rfl, Memory.inside_nil _, fun _ => legal_p7, ⟨rfl, rfl, rfl, rfl⟩, (fun h => nomatch h), (fun h => nomatch h), rfl⟩,
      by decide⟩⟩

theorem witness_OnlyFinalizeWritesTheProfile :
    (∃ t, step (presentCommand .status State.reset) = .next t) ∧ (presentCommand .status State.reset).resetIn = false ∧
      (presentCommand .status State.reset).host.head? = some (.command .status) := ⟨⟨_, rfl⟩, rfl, rfl⟩

theorem witness_OneChainAtMostPerStep :
    (∃ t, step waiting = .next t) ∧ nextIs (step waiting) (fun t => decide (t.busLog.length = 1)) = true ∧
      nextIs (step State.reset) (fun t => decide (t.busLog = [])) = true := ⟨⟨_, rfl⟩, by decide, by decide⟩

/-- A store by READ_ARRAY, and an image supplied by the host. -/
theorem witness_ImageWritersAndParameters :
    nextIs (step (readingAt 3 (.ok [9]))) (fun t => decide (t.img ≠ (readingAt 3 (.ok [9])).img)) = true ∧
      nextIs (step imageOffered) (fun t => decide (t.imgLen ≠ imageOffered.imgLen)) = true := by decide

theorem witness_OperationsNeverDisableWrites :
    (enablingFor .write).Inv ∧ CodesDistinct (enablingFor .write).par ∧ (enablingFor .write).resetIn = false ∧
      (enablingFor .write).st.busy = true ∧
      nextIs (step (enablingFor .write)) (fun t => decide (t.busLog.length = 1)) = true :=
  ⟨witness_EnablingTransition.1.1, codes_distinct, rfl, rfl, by decide⟩

end Sys2Proof.Tests
end

section
/-! PROOFS. FINALIZE that fails (R121 to R128): which condition the operands lead to, and what every failure leaves. -/

namespace Sys2Proof.Machine

open Sys2Proof Config

/-! ### What the operands denote -/

/-- R121: the presence of one explicit field beside the name decides, before the catalog is looked at. -/
theorem chooseProfile_conflict {cat : List CatalogEntry} {n : Name} {size ab : Option Nat} {sup : Option OrgSup}
    (h : size ≠ none ∨ ab ≠ none ∨ sup ≠ none) :
    chooseProfile cat (some n) size ab sup = .raises .configurationConflict := by
  have hsome : (size.isSome || ab.isSome || sup.isSome) = true := by
    simpa [Option.isSome_iff_ne_none, or_assoc] using h
  exact if_pos hsome

/-- D16: an absent number reads as 0 and an absent set as empty. -/
theorem chooseProfile_explicit (cat : List CatalogEntry) (size ab : Option Nat) (sup : Option OrgSup) :
    chooseProfile cat none size ab sup = .profile (size.getD 0) (ab.getD 0) (sup.getD 0) := rfl

/-! ### The size check -/

theorem isPowerOfTwo_zero : isPowerOfTwo 0 = false := by decide

/-- The size is checked first (R123, R128): a bad one decides whatever the other operands are. -/
theorem geometryCond_of_bad_size {size : Nat} (h : isPowerOfTwo size = false) (ab : Nat) (sup : OrgSup)
    (mode : AccessMode) : geometryCond size ab sup mode = .invalidGeometry := if_pos h

/-! ### How a FINALIZE fails -/

theorem exec_finalize_idle {name : Option Name} {size ab : Option Nat} {sup : Option OrgSup} {mode : AccessMode}
    {s : State} (hb : s.st.busy = false) :
    exec (.finalize name size ab sup mode) s =
      runFinalize (chooseProfile s.par.catalog name size ab sup) mode (accept .finalize s) := whenIdle_idle hb

theorem runFinalize_raises (c : Cond) (mode : AccessMode) (s : State) :
    runFinalize (.raises c) mode s = .next (raiseBare c s) := rfl

theorem runFinalize_of_geometryCond {size ab : Nat} {sup : OrgSup} {mode : AccessMode} {c : Cond}
    (h : geometryCond size ab sup mode = c) (hc : c ≠ .none) (s : State) :
    runFinalize (.profile size ab sup) mode s = .next (raiseBare c s) := by
  simp only [runFinalize, h]

/-- The one frame of every failed FINALIZE: accepted, then aborted, with nothing written in between (R127, R245). -/
theorem raiseBare_accept_finalizeFailed (c : Cond) (s : State) :
    FinalizeFailed c s (raiseBare c (accept .finalize s)) := by
  refine ⟨?ended, ?profile, raiseBare_w _ c, ?chains, ?surroundings⟩
  case ended => simp [EndedWith]
  case profile => simp [KeepsProfile]
  case chains => simp [NoChain]
  case surroundings => simp [KeepsSurroundings]

/-- A condition of the construction path (R121, R122) is the command's end. -/
theorem finalize_fails_of_raises {name : Option Name} {size ab : Option Nat} {sup : Option OrgSup} {mode : AccessMode}
    {s : State} {c : Cond} (hb : s.st.busy = false)
    (h : chooseProfile s.par.catalog name size ab sup = .raises c) :
    ∃ t, exec (.finalize name size ab sup mode) s = .next t ∧ FinalizeFailed c s t :=
  ⟨_, by rw [exec_finalize_idle hb, h, runFinalize_raises], raiseBare_accept_finalizeFailed c s⟩

/-- A condition of the geometry and mode checks (R123 to R125) is the command's end. -/
theorem finalize_fails_of_geometryCond {name : Option Name} {size? ab? : Option Nat} {sup? : Option OrgSup}
    {mode : AccessMode} {s : State} {size ab : Nat} {sup : OrgSup} {c : Cond} (hb : s.st.busy = false)
    (h : chooseProfile s.par.catalog name size? ab? sup? = .profile size ab sup)
    (hg : geometryCond size ab sup mode = c) (hc : c ≠ .none) :
    ∃ t, exec (.finalize name size? ab? sup? mode) s = .next t ∧ FinalizeFailed c s t :=
  ⟨_, by rw [exec_finalize_idle hb, h, runFinalize_of_geometryCond hg hc], raiseBare_accept_finalizeFailed c s⟩

/-- Settles O16: a name beside an explicit field conflicts before the lookup; with neither, the absent size reads as 0,
which is no power of two. -/
theorem nameBesideExplicitFieldConflicts : Obligations.NameBesideExplicitFieldConflicts := by
  constructor
  · intro n size ab sup mode s hb hfield
    exact finalize_fails_of_raises hb (chooseProfile_conflict hfield)
  · intro mode s hb
    exact finalize_fails_of_geometryCond hb (chooseProfile_explicit _ none none none)
      (geometryCond_of_bad_size isPowerOfTwo_zero _ _ _) (by decide)

end Sys2Proof.Machine
end

section
/-! PROOFS. ENCODE, the header encoder (R140 to R148): the composed value taken apart again, and what the port leaves. -/

namespace Sys2Proof

open Config

/-! ### The header value taken apart -/

/-- The prefix stands alone above the payload field: no payload disturbs it (R144). -/
theorem headerValue_div_two_pow (o p n : Nat) : headerValue o p n / 2 ^ n = o ||| startMarker := by
  rw [headerValue_eq, Nat.mul_comm, Nat.mul_add_div (Nat.two_pow_pos n), Nat.mod_div_self, Nat.add_zero]

/-- Below the prefix stands the masked payload. -/
theorem headerValue_mod_two_pow (o p n : Nat) : headerValue o p n % 2 ^ n = p % 2 ^ n := by
  rw [headerValue_eq, Nat.mul_add_mod_self_right, Nat.mod_mod]

theorem headerValue_zero (o n : Nat) : headerValue o 0 n = (o ||| startMarker) <<< n := by
  rw [headerValue_eq, Nat.zero_mod, Nat.add_zero, Nat.shiftLeft_eq]

/-- A payload of `2 ^ bits` is the payload 0 with one wrap (R144). -/
theorem headerValue_two_pow (o n : Nat) : headerValue o (2 ^ n) n = headerValue o 0 n := by
  simpa using headerValue_add_mul o 0 1 n

/-- The start marker is the highest set bit (R148). -/
theorem headerValue_testBit_top {o : Nat} (h : o < 4) (p n : Nat) :
    (headerValue o p n).testBit (n + 2) = true ∧
      ∀ j, n + 2 < j → (headerValue o p n).testBit j = false :=
  testBit_top (headerValue_ge h p n) (headerValue_lt h p n)

/-- Distinct opcodes or masked payloads give distinct values (R148), since a value's quotient and remainder by `2 ^ n`
are its prefix and its masked payload. -/
theorem headerValue_inj {o o' p p' n : Nat} (h : o < 4) (h' : o' < 4)
    (he : headerValue o' p' n = headerValue o p n) : o' = o ∧ p' % 2 ^ n = p % 2 ^ n := by
  have hprefix : o' + 4 = o + 4 := by
    rw [← or_startMarker h, ← or_startMarker h', ← headerValue_div_two_pow o p n,
      ← headerValue_div_two_pow o' p' n, he]
  have hpayload : p' % 2 ^ n = p % 2 ^ n := by
    rw [← headerValue_mod_two_pow o p n, ← headerValue_mod_two_pow o' p' n, he]
  exact ⟨Nat.add_right_cancel hprefix, hpayload⟩

end Sys2Proof

namespace Sys2Proof.Machine

open Sys2Proof Config

/-! ### ENCODE at the port -/

/-- The state ENCODE leaves when it composed the value `v`; `exec_encode_idle` ties it to the model. -/
def encodedState (v : Nat) (s : State) : State := finish (setRes (.bytes (be16 v)) (setHdr v (accept .prim s)))

theorem exec_encode_idle {opcode dummy aEff : Nat} {s : State} (hb : s.st.busy = false) (ho : opcode < 4)
    (hn : aEff + dummy ≤ 13) (payload : Nat) :
    exec (.encode opcode payload dummy aEff) s =
      .next (encodedState (headerValue opcode payload (aEff + dummy)) s) := by
  have hdomain : inDomain opcode (aEff + dummy) = true := by simp [inDomain, encBitsMax, ho, hn]
  exact (whenIdle_idle hb).trans (if_pos hdomain)

/-- ENCODE sees its payload through the header value only, in busy states and outside the domain too. -/
theorem exec_encode_congr {opcode payload payload' dummy aEff : Nat}
    (h : headerValue opcode payload' (aEff + dummy) = headerValue opcode payload (aEff + dummy)) (s : State) :
    exec (.encode opcode payload' dummy aEff) s = exec (.encode opcode payload dummy aEff) s := by
  simp only [exec, execEncode, h]

theorem encodedState_endedWell (v : Nat) (s : State) : EndedWell (encodedState v s) := by
  simp [EndedWell, encodedState]

theorem encodedState_res (v : Nat) (s : State) : (encodedState v s).res = .bytes (be16 v) := rfl

/-- `W.HDR` holds the whole value, which 16 bits can hold (R147). -/
theorem encodedState_hdr_toNat {v : Nat} (h : v < 65536) (s : State) : (encodedState v s).w.hdr.toNat = v := by
  simpa [encodedState] using h

/-- Settles O2: the value's bits come from its range `2 ^ (bits + 2) ≤ v < 2 ^ (bits + 3)`, its bytes and the decoder
from its fitting 16 bits. -/
theorem headerValueLaws : Obligations.HeaderValueLaws := by
  rintro opcode payload dummy aEff bits ho rfl hn
  have hword := headerValue_lt_word ho hn payload
  obtain ⟨htop, hpad⟩ := headerValue_testBit_top ho payload (aEff + dummy)
  refine ⟨⟨_, _, rfl, ?value, ?port⟩, htop, fun j hj => hpad j (by omega), ?injective, ?decoded⟩
  case value => exact beValue_be16 hword
  case port => exact fun s hb => ⟨_, exec_encode_idle hb ho hn payload, encodedState_res _ s⟩
  case injective =>
    intro opcode' payload' ho' he
    simpa only [Nat.and_two_pow_sub_one_eq_mod] using headerValue_inj ho ho' he
  case decoded =>
    rw [decodeHeaderBytes_be16 hword, decodeH16_headerValue ho hn, Nat.and_two_pow_sub_one_eq_mod]

/-- Settles O3: adding a multiple of `2 ^ bits` to the payload leaves the header value, and with it ENCODE. -/
theorem encodeTruncatesThePayload : Obligations.EncodeTruncatesThePayload := by
  intro opcode payload dummy aEff k ho hn
  refine ⟨?wrap, ?port, headerValue_div_two_pow _ _ _, headerValue_zero _ _, ?ones, headerValue_two_pow _ _⟩
  case wrap => exact exec_encode_congr (headerValue_add_mul opcode payload k (aEff + dummy))
  case port =>
    intro s hb
    exact ⟨_, exec_encode_idle hb ho hn payload, encodedState_endedWell _ s,
      encodedState_hdr_toNat (headerValue_lt_word ho hn payload) s⟩
  case ones =>
    have hlt : 2 ^ (aEff + dummy) - 1 < 2 ^ (aEff + dummy) := Nat.sub_one_lt (Nat.two_pow_pos _).ne'
    rw [headerValue_mod_two_pow, Nat.mod_eq_of_lt hlt]

end Sys2Proof.Machine
end

section
/-! PROOFS. READ of length 0 and WRITE of no data (R174): which refusal the primitive answers, in every state. -/

namespace Sys2Proof.Machine

open Sys2Proof Config

/-- The refusal a data phase of no bytes meets: of the two that apply, the missing profile comes first (log entry 20).
`primRead_zero_length` and `primWrite_nil` tie it to the model. -/
def zeroLengthRefusal (finalized : Bool) : Refusal := if finalized then .zeroLength else .notFinalized

/-! ### The primitives -/

theorem primRead_zero_length (a : Nat) (s : State) : primRead a 0 s = .error (zeroLengthRefusal s.cfg.finalized) := by
  cases hf : s.cfg.finalized with
  | false => exact if_pos hf
  | true => exact (if_neg (by simp [hf])).trans (if_pos rfl)

theorem primWrite_nil (a : Nat) (s : State) : primWrite a [] s = .error (zeroLengthRefusal s.cfg.finalized) := by
  cases hf : s.cfg.finalized with
  | false => exact if_pos hf
  | true => exact (if_neg (by simp [hf])).trans (if_pos rfl)

/-! ### At the port -/

/-- Acceptance keeps the profile, so the refusal is the idle state's own. -/
theorem exec_read_zero_length {s : State} (hb : s.st.busy = false) (a : Nat) :
    exec (.read a 0) s = .refused (zeroLengthRefusal s.cfg.finalized) :=
  (whenIdle_idle hb).trans (congrArg (portPrim .bytes) (primRead_zero_length a (accept .prim s)))

theorem exec_write_nil {s : State} (hb : s.st.busy = false) (a : Nat) :
    exec (.write a []) s = .refused (zeroLengthRefusal s.cfg.finalized) :=
  (whenIdle_idle hb).trans (congrArg (portPrim fun _ => .success) (primWrite_nil a (accept .prim s)))

/-- Settles O30: both commands meet the one refusal, which is `zeroLength` where a profile is finalized. -/
theorem zeroLengthDataIsRefused : Obligations.ZeroLengthDataIsRefused := by
  intro a s hb
  have hread := exec_read_zero_length hb a
  have hwrite := exec_write_nil hb a
  refine ⟨⟨_, hread⟩, ⟨_, hwrite⟩, fun hf => ?finalized⟩
  rw [hf] at hread hwrite
  exact ⟨hread, hwrite⟩

end Sys2Proof.Machine
end

section
/-! PROOFS. Taking a condition (R245): the cause is written for TransferFailed only, and the bus issues nothing. -/

namespace Sys2Proof.Machine

open Sys2Proof

theorem raise_st_cause_transferFailed (k : Cause) (s : State) : (raise .transferFailed k s).st.cause = k :=
  (raise_st_cause s _ k).trans (if_pos rfl)

theorem raise_st_cause_of_ne {c : Cond} (h : c ≠ .transferFailed) (k : Cause) (s : State) :
    (raise c k s).st.cause = s.st.cause :=
  (raise_st_cause s c k).trans (if_neg h)

theorem raise_noChain (c : Cond) (k : Cause) (s : State) : NoChain s (raise c k s) :=
  ⟨raise_busLog s c k, raise_script s c k⟩

/-- Settles O32: the cause splits on TransferFailed, every other field is one rule of `raise`. -/
theorem raiseWritesTheOutcomeOnly : Obligations.RaiseWritesTheOutcomeOnly := by
  intro c k s
  have hfailed : c = .transferFailed → (raise c k s).st.cause = k := by
    rintro rfl
    exact raise_st_cause_transferFailed k s
  have hother : c ≠ .transferFailed → (raise c k s).st.cause = s.st.cause :=
    fun h => raise_st_cause_of_ne h k s
  exact ⟨raise_st_cond s c k, hfailed, hother, raise_st_done s c k, raise_orchState s c k, raise_orchOp s c k,
    raise_st_busy s c k, raise_cfg s c k, raise_img s c k, raise_imgLen s c k, raise_st_imgValid s c k,
    raise_w s c k, raise_res s c k, raise_pins s c k, raise_par s c k, raise_noChain c k s⟩

end Sys2Proof.Machine
end

section
/-! PROOFS. The equations of the shared continuations of the operations: a step's bytes stored, a word acknowledged, and
what the invariant says in each state of the orchestrator. -/

namespace Sys2Proof.Machine

open Sys2Proof Config

/-! ### The two continuations of an operation -/

/-- Below the end of the device the read goes on (R193). -/
theorem afterStore_below {s : State} (h : s.w.addr + stepLen s < s.cfg.sizeBytes) :
    afterStore s = setAddr (s.w.addr + stepLen s) s := if_pos h

/-- At the end of the device the image is valid and the command done (R193). -/
theorem afterStore_end {s : State} (h : s.cfg.sizeBytes ≤ s.w.addr + stepLen s) :
    afterStore s = finish (setImgValid true (setAddr (s.w.addr + stepLen s) s)) := if_neg (Nat.not_lt.2 h)

/-- Words remain (R200). -/
theorem wordDone_more {s : State} (h : s.w.idx + 1 < wordCount s) :
    wordDone s = goto .writing (setIdx (s.w.idx + 1) s) := if_pos h

/-- The last word is acknowledged (R200). -/
theorem wordDone_last {s : State} (h : wordCount s ≤ s.w.idx + 1) :
    wordDone s = finish (setIdx (s.w.idx + 1) s) := if_neg (Nat.not_lt.2 h)

/-! ### The sequencer's legal registers, state by state -/

theorem orchLegal_idle {s : State} (h : s.orchState = .idle) :
    OrchLegal s ↔ s.st.busy = false ∧ s.orchOp = .none ∧ s.burst = false ∧ s.erasePolling = false := by
  simp only [OrchLegal, h]

theorem orchLegal_reading {s : State} (h : s.orchState = .reading) :
    OrchLegal s ↔ s.st.busy = true ∧ s.orchOp = .read ∧ s.cfg.finalized = true ∧ s.imgLen = s.cfg.sizeBytes ∧
      wordSize s ≤ s.cfg.sizeBytes ∧ s.w.addr + stepLen s ≤ s.cfg.sizeBytes ∧ stepLen s ∣ s.w.addr ∧
      s.st.imgValid = false ∧ s.erasePolling = false := by
  simp only [OrchLegal, h]

theorem orchLegal_enabling {s : State} (h : s.orchState = .enabling) :
    OrchLegal s ↔ s.st.busy = true ∧ s.cfg.finalized = true ∧ s.burst = false ∧ s.erasePolling = false ∧
      (s.orchOp = .erase ∨
        (s.orchOp = .write ∧ s.imgLen = s.cfg.sizeBytes ∧ wordSize s ≤ s.cfg.sizeBytes)) := by
  simp only [OrchLegal, h]

theorem orchLegal_writing {s : State} (h : s.orchState = .writing) :
    OrchLegal s ↔ s.st.busy = true ∧ s.orchOp = .write ∧ s.cfg.finalized = true ∧ s.imgLen = s.cfg.sizeBytes ∧
      s.w.idx < wordCount s ∧ s.burst = false ∧ s.erasePolling = false := by
  simp only [OrchLegal, h]

theorem orchLegal_waitingReady {s : State} (h : s.orchState = .waitingReady) :
    OrchLegal s ↔ s.st.busy = true ∧ s.orchOp = .write ∧ s.cfg.finalized = true ∧ s.imgLen = s.cfg.sizeBytes ∧
      s.w.idx < wordCount s ∧ s.w.addr = s.w.idx * wordSize s ∧ s.burst = false ∧ s.erasePolling = false := by
  simp only [OrchLegal, h]

theorem orchLegal_erasing {s : State} (h : s.orchState = .erasing) :
    OrchLegal s ↔ s.st.busy = true ∧ s.orchOp = .erase ∧ s.cfg.finalized = true ∧ s.burst = false ∧
      (s.erasePolling = true → s.par.erasePoll = true) := by
  simp only [OrchLegal, h]

theorem OrchLegal.ne_done {s : State} (h : OrchLegal s) : s.orchState ≠ .done := by
  intro hq
  simp [OrchLegal, hq] at h

/-- In a legal state a command executes exactly where the sequencer is not in Idle (R27, R37). -/
theorem OrchLegal.idle_iff {s : State} (h : OrchLegal s) : s.orchState = .idle ↔ s.st.busy = false := by
  unfold OrchLegal at h
  split at h <;> simp_all

theorem State.Inv.busy {s : State} (h : s.Inv) (hq : s.orchState ≠ .idle) : s.st.busy = true := by
  simpa [h.orch.idle_iff] using hq

theorem State.Inv.idle {s : State} (h : s.Inv) (hb : s.st.busy = false) : s.orchState = .idle :=
  h.orch.idle_iff.2 hb

/-- `STEP` divides the size: a whole number of steps fills the device (R9, R64). -/
theorem stepLen_dvd {s : State} (hp : isPowerOfTwo s.cfg.sizeBytes = true) (h : wordSize s ≤ s.cfg.sizeBytes) :
    stepLen s ∣ s.cfg.sizeBytes := by
  unfold stepLen
  split
  · exact dvd_rfl
  · exact wordSize_dvd hp h

/-- A multiple of a divisor below the size leaves room for one more. -/
theorem add_le_of_dvd_of_lt {a d n : Nat} (ha : d ∣ a) (hn : d ∣ n) (h : a < n) : a + d ≤ n := by
  have hd : d ≤ n - a := Nat.le_of_dvd (by omega) (Nat.dvd_sub hn ha)
  omega

end Sys2Proof.Machine
end

section
/-! PROOFS. Every step keeps the invariant (R27 to R39, R208): the states of an ended command, of a started operation
and of each row of R208 meet it. -/

namespace Sys2Proof.Machine

open Sys2Proof Config

/-! ### The part of the invariant that commands seldom touch -/

/-- The invariant without the sequencer and the outcome flags; `State.Inv.static`, `StaticLegal.inv_of_busy` and
`StaticLegal.raise_inv` tie it to `State.Inv`. -/
structure StaticLegal (s : State) : Prop where
  imgWf : Memory.wf s.img = true
  imgInside : Memory.inside s.imgLen s.img
  profile : s.cfg.finalized = true → s.cfg.Legal
  pins : s.pins = .idle

theorem State.Inv.static {s : State} (h : s.Inv) : StaticLegal s := ⟨h.imgWf, h.imgInside, h.profile, h.pins⟩

/-- Only the image, the profile and the lines enter. -/
theorem StaticLegal.congr {s t : State} (h : StaticLegal s) (himg : t.img = s.img) (hlen : t.imgLen = s.imgLen)
    (hcfg : t.cfg = s.cfg) (hpins : t.pins = .idle) : StaticLegal t := by
  refine ⟨?_, ?_, ?_, hpins⟩
  · rw [himg]; exact h.imgWf
  · rw [himg, hlen]; exact h.imgInside
  · rw [hcfg]; exact h.profile

/-- An executing command shows no outcome (R37 to R39). -/
theorem StaticLegal.inv_of_busy {s : State} (h : StaticLegal s) (ho : OrchLegal s) (hd : s.st.done = false)
    (hc : s.st.cond = .none) : s.Inv :=
  ⟨h.imgWf, h.imgInside, h.profile, ho, fun _ => ⟨hd, hc⟩, fun _ => hc, h.pins⟩

/-- A state at rest: the sequencer in Idle, at most one outcome shown (R38). -/
theorem StaticLegal.inv_of_rest {s : State} (h : StaticLegal s) (ho : OrchLegal s) (hb : s.st.busy = false)
    (hc : s.st.done = true → s.st.cond = .none) : s.Inv :=
  ⟨h.imgWf, h.imgInside, h.profile, ho, fun hbusy => absurd hbusy (by simp [hb]), hc, h.pins⟩

/-- Taking a condition leads to a legal state from anywhere in an operation (R245). -/
theorem StaticLegal.raise_inv {c : Cond} {k : Cause} {s : State} (h : StaticLegal s) : (raise c k s).Inv :=
  StaticLegal.inv_of_rest (h.congr rfl rfl rfl h.pins) ((orchLegal_idle rfl).2 ⟨rfl, rfl, rfl, rfl⟩) rfl (by simp)

theorem StaticLegal.raiseBare_inv {c : Cond} {s : State} (h : StaticLegal s) : (raiseBare c s).Inv := h.raise_inv

/-- The good end of a command that shows no condition (R209). -/
theorem StaticLegal.finish_inv {s : State} (h : StaticLegal s) (hc : s.st.cond = .none) : (finish s).Inv :=
  StaticLegal.inv_of_rest (h.congr rfl rfl rfl h.pins) ((orchLegal_idle rfl).2 ⟨rfl, rfl, rfl, rfl⟩) rfl
    (fun _ => hc)

/-- The end of a primitive at the port, good or failed (R175). -/
theorem StaticLegal.portEnd_inv {result : List Byte → ResVal} {a : BusAnswer} {u : State} (h : StaticLegal u)
    (hc : u.st.cond = .none) : (portEnd result (a, u)).Inv := by
  cases a with
  | ok rx => exact StaticLegal.finish_inv (h.congr rfl rfl rfl h.pins) hc
  | fail k => exact h.raise_inv

/-! ### Commands at an idle port -/

/-- READ_ARRAY as it starts: Reading from byte offset 0 (R192, R193). -/
def readStarted (burst : Bool) (s : State) : State :=
  { goto .reading (setAddr 0 (setImgValid false (accept .read s))) with burst := burst }

/-- All the next states `exec` has at an idle port, one constructor for each end or start of a command; `exec_accepted`
ties it to the model. -/
inductive Accepted (s : State) : Instr → State → Prop
  | encoded (o p d a v : Nat) : Accepted s (.encode o p d a) (encodedState v s)
  | primitive (i : Instr) (result : List Byte → ResVal) (c : Chain) (w : Work) :
      Accepted s i (portEnd result (answerTo c (accept .prim s), { afterChain c (accept .prim s) with w := w }))
  | committed (name : Option Name) (size? ab? : Option Nat) (sup? : Option OrgSup) (mode : AccessMode) (cfg : Cfg) :
      cfg.Legal → Accepted s (.finalize name size? ab? sup? mode) (finish { accept .finalize s with cfg := cfg })
  | notCommitted (name : Option Name) (size? ab? : Option Nat) (sup? : Option OrgSup) (mode : AccessMode) (c : Cond) :
      c ≠ .none → Accepted s (.finalize name size? ab? sup? mode) (raiseBare c (accept .finalize s))
  | readMismatch (burst : Bool) :
      Accepted s (.readArray burst) (raiseBare .imageSizeMismatch (setImgValid false (accept .read s)))
  | readStarted (burst : Bool) : s.cfg.finalized = true → wordSize s ≤ s.cfg.sizeBytes → s.imgLen = s.cfg.sizeBytes →
      Accepted s (.readArray burst) (readStarted burst s)
  | writeMismatch : Accepted s .writeArray (raiseBare .imageSizeMismatch (accept .write s))
  | writeStarted : s.cfg.finalized = true → wordSize s ≤ s.cfg.sizeBytes → s.imgLen = s.cfg.sizeBytes →
      Accepted s .writeArray (goto .enabling (accept .write s))
  | eraseStarted : s.cfg.finalized = true → Accepted s .eraseArray (goto .enabling (accept .erase s))

/-- The construction paths raise real conditions only (R121, R122). -/
theorem chooseProfile_ne_raises_none (cat : List CatalogEntry) (name : Option Name) (size ab : Option Nat)
    (sup : Option OrgSup) : chooseProfile cat name size ab sup ≠ .raises .none := by
  unfold chooseProfile
  split
  · split
    · simp
    · split
      · simp
      · split <;> simp
  · simp

/-- All a command at an idle port can answer as a next state. -/
theorem exec_accepted {i : Instr} {s t : State} (hb : s.st.busy = false) (h : exec i s = .next t) :
    Accepted s i t := by
  have primitive : (needsProfile i = true ∨ i = .status) → (∀ b, i ≠ .readArray b) → i ≠ .writeArray →
      i ≠ .eraseArray → Accepted s i t := by
    intro hi ho hw he
    obtain ⟨result, a, c, u, rfl, rfl, hu, -⟩ := prim_next hb h hi ho hw he
    rw [hu]
    exact .primitive i result c u.w
  cases i with
  | encode o p d a =>
    obtain ⟨v, -, rfl⟩ := execEncode_next hb h
    exact .encoded o p d a v
  | finalize name size? ab? sup? mode =>
    rw [exec_finalize_idle hb] at h
    rcases runFinalize_next h with ⟨size, ab, sup, -, hg, rfl⟩ | ⟨c, hc, rfl⟩ | ⟨hraise, -⟩
    · exact .committed name size? ab? sup? mode _ (committedCfg_legal hg)
    · exact .notCommitted name size? ab? sup? mode c hc
    · exact absurd hraise (chooseProfile_ne_raises_none _ _ _ _ _)
  | readArray burst =>
    obtain ⟨hf, hw, ⟨-, rfl⟩ | ⟨hl, rfl⟩⟩ := execReadArray_next hb h
    · exact .readMismatch burst
    · exact .readStarted burst hf hw hl
  | writeArray =>
    obtain ⟨hf, hw, ⟨-, rfl⟩ | ⟨hl, rfl⟩⟩ := execWriteArray_next hb h
    · exact .writeMismatch
    · exact .writeStarted hf hw hl
  | eraseArray =>
    obtain ⟨hf, rfl⟩ := execEraseArray_next hb h
    exact .eraseStarted hf
  | _ => exact primitive (by simp [needsProfile]) (by simp) (by simp) (by simp)

/-- A command accepted at a legal idle state leads to a legal state. -/
theorem Accepted.inv {i : Instr} {s t : State} (hs : s.Inv) (hb : s.st.busy = false) (h : Accepted s i t) : t.Inv := by
  obtain ⟨-, -, hburst, hpoll⟩ := (orchLegal_idle (hs.idle hb)).1 hs.orch
  have haccept (op : OrchOp) : StaticLegal (accept op s) := hs.static.congr rfl rfl rfl hs.pins
  cases h with
  | encoded o p d a v =>
    exact StaticLegal.finish_inv (hs.static.congr rfl rfl rfl hs.pins) rfl
  | primitive _ result c w => exact StaticLegal.portEnd_inv (hs.static.congr rfl rfl rfl rfl) rfl
  | committed _ _ _ _ _ cfg hcfg =>
    exact StaticLegal.finish_inv ⟨hs.imgWf, hs.imgInside, fun _ => hcfg, hs.pins⟩ rfl
  | notCommitted => exact (haccept .finalize).raiseBare_inv
  | readMismatch => exact StaticLegal.raiseBare_inv (hs.static.congr rfl rfl rfl hs.pins)
  | readStarted burst hf hw hl =>
    refine StaticLegal.inv_of_busy (hs.static.congr rfl rfl rfl hs.pins) ((orchLegal_reading rfl).2 ?_) rfl rfl
    refine ⟨rfl, rfl, hf, hl, hw, ?_, dvd_zero _, rfl, hpoll⟩
    show 0 + (if burst then s.cfg.sizeBytes else wordSize s) ≤ s.cfg.sizeBytes
    split <;> omega
  | writeMismatch => exact (haccept .write).raiseBare_inv
  | writeStarted hf hw hl =>
    exact StaticLegal.inv_of_busy (hs.static.congr rfl rfl rfl hs.pins)
      ((orchLegal_enabling rfl).2 ⟨rfl, hf, hburst, hpoll, .inr ⟨rfl, hl, hw⟩⟩) rfl rfl
  | eraseStarted hf =>
    exact StaticLegal.inv_of_busy (hs.static.congr rfl rfl rfl hs.pins)
      ((orchLegal_enabling rfl).2 ⟨rfl, hf, hburst, hpoll, .inl rfl⟩) rfl rfl

/-! ### The rows of R208 -/

/-- Reading: `W.ADDR` stays a multiple of `STEP`, and `STEP` divides the size, so the next step fits again. -/
theorem advReading_inv {s t : State} (hs : s.Inv) (hq : s.orchState = .reading) (h : advReading s = .next t) :
    t.Inv := by
  obtain ⟨hb, hop, hf, hl, hw, -, hdvd, hv, hp⟩ := (orchLegal_reading hq).1 hs.orch
  obtain ⟨hdone, hcond⟩ := hs.busyClear hb
  obtain ⟨u, c, rfl, -, ⟨k, -, rfl⟩ | ⟨rx, -, hrx, hin, rfl⟩⟩ := advReading_next h
  · exact StaticLegal.raise_inv (hs.static.congr rfl rfl rfl rfl)
  · have hwf : Memory.wf (writeBytes s.img s.w.addr rx) = true := writeBytes_wf hs.imgWf _ _
    have hinside : Memory.inside s.imgLen (writeBytes s.img s.w.addr rx) := writeBytes_inside hs.imgInside hin
    rcases Nat.lt_or_ge (s.w.addr + stepLen s) s.cfg.sizeBytes with hend | hend
    · rw [afterStore_below (by exact hend)]
      refine StaticLegal.inv_of_busy ⟨hwf, hinside, hs.profile, rfl⟩ ((orchLegal_reading (by exact hq)).2 ?_) hdone
        hcond
      have hnext : stepLen s ∣ s.w.addr + stepLen s := hdvd.add dvd_rfl
      exact ⟨hb, hop, hf, hl, hw, add_le_of_dvd_of_lt hnext (stepLen_dvd (hs.profile hf).size hw) hend, hnext, hv, hp⟩
    · rw [afterStore_end (by exact hend)]
      exact StaticLegal.finish_inv ⟨hwf, hinside, hs.profile, rfl⟩ hcond

theorem advEnabling_inv {s t : State} (hs : s.Inv) (hq : s.orchState = .enabling) (h : advEnabling s = .next t) :
    t.Inv := by
  obtain ⟨hb, hf, hburst, hp, hop⟩ := (orchLegal_enabling hq).1 hs.orch
  obtain ⟨hdone, hcond⟩ := hs.busyClear hb
  obtain ⟨u, v, rfl, ⟨k, -, rfl⟩ | ⟨hwrite, rfl⟩ | ⟨herase, rfl⟩⟩ := advEnabling_next h
  · exact StaticLegal.raise_inv (hs.static.congr rfl rfl rfl rfl)
  · obtain ⟨-, hl, hw⟩ := hop.resolve_left (by simp [hwrite])
    exact StaticLegal.inv_of_busy (hs.static.congr rfl rfl rfl rfl)
      ((orchLegal_writing rfl).2 ⟨hb, hwrite, hf, hl, Nat.div_pos hw (wordSize_pos s), hburst, hp⟩) hdone hcond
  · exact StaticLegal.inv_of_busy (hs.static.congr rfl rfl rfl rfl)
      ((orchLegal_erasing rfl).2 ⟨hb, herase, hf, hburst, fun hpoll => absurd (hp.symm.trans hpoll) (by simp)⟩)
      hdone hcond

theorem advWriting_inv {s t : State} (hs : s.Inv) (hq : s.orchState = .writing) (h : advWriting s = .next t) :
    t.Inv := by
  obtain ⟨hb, hop, hf, hl, hidx, hburst, hp⟩ := (orchLegal_writing hq).1 hs.orch
  obtain ⟨hdone, hcond⟩ := hs.busyClear hb
  obtain ⟨s', u, c, data, rfl, -, -, rfl, ⟨k, -, rfl⟩ | rfl⟩ := advWriting_next h
  · exact StaticLegal.raise_inv (hs.static.congr rfl rfl rfl rfl)
  · exact StaticLegal.inv_of_busy (hs.static.congr rfl rfl rfl rfl)
      ((orchLegal_waitingReady rfl).2 ⟨hb, hop, hf, hl, hidx, rfl, hburst, hp⟩) hdone hcond

/-- One turn of the poll loop keeps the invariant, if polling again and the loop's good end do. -/
theorem pollTurn_inv {f : State → State} {s : State} (hs : s.Inv) (hagain : ∀ b, (polled b s).Inv)
    (hready : (f (polled readyByte s)).Inv) : (pollTurn f s).Inv := by
  rcases pollTurn_cases f s with ⟨-, e⟩ | ⟨k, -, e⟩ | ⟨b, -, -, e⟩ | ⟨-, e⟩ <;> rw [e]
  · exact hs.static.raiseBare_inv
  · exact StaticLegal.raise_inv (hs.static.congr rfl rfl rfl rfl)
  · exact hagain b
  · exact hready

/-- A counted poll that ended nothing. -/
theorem polled_inv {s : State} (hs : s.Inv) (hb : s.st.busy = true) (b : Byte) : (polled b s).Inv :=
  StaticLegal.inv_of_busy (hs.static.congr rfl rfl rfl rfl) hs.orch (hs.busyClear hb).1 (hs.busyClear hb).2

theorem advWaiting_inv {s t : State} (hs : s.Inv) (hq : s.orchState = .waitingReady) (h : advWaiting s = .next t) :
    t.Inv := by
  obtain ⟨hb, hop, hf, hl, hidx, -, hburst, hp⟩ := (orchLegal_waitingReady hq).1 hs.orch
  obtain ⟨hdone, hcond⟩ := hs.busyClear hb
  obtain rfl : pollTurn wordDone s = t := by simpa [advWaiting] using h
  refine pollTurn_inv hs (polled_inv hs hb) ?_
  by_cases hmore : s.w.idx + 1 < wordCount s
  · rw [wordDone_more (s := polled readyByte s) hmore]
    exact StaticLegal.inv_of_busy (hs.static.congr rfl rfl rfl rfl)
      ((orchLegal_writing rfl).2 ⟨hb, hop, hf, hl, hmore, hburst, hp⟩) hdone hcond
  · rw [wordDone_last (s := polled readyByte s) (Nat.not_lt.1 hmore)]
    exact StaticLegal.finish_inv (hs.static.congr rfl rfl rfl rfl) hcond

theorem advErasing_inv {s t : State} (hs : s.Inv) (hq : s.orchState = .erasing) (h : advErasing s = .next t) :
    t.Inv := by
  obtain ⟨hb, hop, hf, hburst, -⟩ := (orchLegal_erasing hq).1 hs.orch
  obtain ⟨hdone, hcond⟩ := hs.busyClear hb
  rcases advErasing_next h with ⟨-, rfl⟩ | ⟨-, u, v, rfl, ⟨k, -, rfl⟩ | ⟨hpoll, rfl⟩ | ⟨-, rfl⟩⟩
  · exact pollTurn_inv hs (polled_inv hs hb) (StaticLegal.finish_inv (hs.static.congr rfl rfl rfl rfl) hcond)
  · exact StaticLegal.raise_inv (hs.static.congr rfl rfl rfl rfl)
  · exact StaticLegal.inv_of_busy (hs.static.congr rfl rfl rfl rfl)
      ((orchLegal_erasing (by exact hq)).2 ⟨hb, hop, hf, hburst, fun _ => hpoll⟩) hdone hcond
  · exact StaticLegal.finish_inv (hs.static.congr rfl rfl rfl rfl) hcond

/-- A transition of an operation keeps the invariant: Idle and Done are no states of an executing command. -/
theorem advance_inv {s t : State} (hs : s.Inv) (hb : s.st.busy = true) (h : advance s = .next t) : t.Inv := by
  unfold advance at h
  split at h
  next hq => exact absurd (hs.orch.idle_iff.1 hq) (by simp [hb])
  next hq => exact advReading_inv hs hq h
  next hq => exact advEnabling_inv hs hq h
  next hq => exact advWriting_inv hs hq h
  next hq => exact advWaiting_inv hs hq h
  next hq => exact advErasing_inv hs hq h
  next hq => exact absurd hq hs.orch.ne_done

/-! ### The host's other actions -/

theorem applyReset_inv {s : State} (hs : s.Inv) : (applyReset s).Inv :=
  StaticLegal.inv_of_rest ⟨hs.imgWf, hs.imgInside, (fun hf => nomatch hf), rfl⟩
    ((orchLegal_idle rfl).2 ⟨rfl, rfl, rfl, rfl⟩) rfl (fun _ => rfl)

theorem popHost_inv {s : State} (hs : s.Inv) : (popHost s).Inv :=
  ⟨hs.imgWf, hs.imgInside, hs.profile, hs.orch, hs.busyClear, hs.outcome, hs.pins⟩

theorem raiseReset_inv {s : State} (hs : s.Inv) : (raiseReset s).Inv :=
  ⟨hs.imgWf, hs.imgInside, hs.profile, hs.orch, hs.busyClear, hs.outcome, hs.pins⟩

/-- An image arrives only in Idle, where no register depends on `IMG_LEN`. -/
theorem loadImage_inv {s : State} (hs : s.Inv) (hb : s.st.busy = false) (bs : List Byte) : (loadImage bs s).Inv :=
  StaticLegal.inv_of_rest ⟨loadImage_wf bs s, loadImage_inside bs s, hs.profile, hs.pins⟩
    ((orchLegal_idle (s := loadImage bs s) (hs.idle hb)).2 ((orchLegal_idle (hs.idle hb)).1 hs.orch)) hb hs.outcome

/-- Settles O51: the reset input, a transition of R208, a command and the host's other actions, one by one. -/
theorem stepKeepsTheInvariant : Obligations.StepKeepsTheInvariant := by
  intro s t hs h
  rcases step_cases h with ⟨-, -, rfl⟩ | ⟨-, hb, hadv⟩ | ⟨-, -, -, rfl⟩ | ⟨-, hb, i, -, -, hexec⟩ |
    ⟨-, hb, bs, -, -, rfl⟩ | ⟨-, -, -, -, rfl⟩
  · exact applyReset_inv hs
  · exact advance_inv hs hb hadv
  · exact hs
  · exact (exec_accepted (s := popHost s) hb hexec).inv (popHost_inv hs) hb
  · exact loadImage_inv (popHost_inv hs) hb bs
  · exact raiseReset_inv (popHost_inv hs)

/-- Settles O50: the machine at reset is at rest with no profile and an empty image. -/
theorem resetMeetsTheInvariant : Obligations.ResetMeetsTheInvariant :=
  StaticLegal.inv_of_rest ⟨reset_img_wf, Memory.inside_nil _, (fun hf => nomatch hf), rfl⟩
    ((orchLegal_idle rfl).2 ⟨rfl, rfl, rfl, rfl⟩) rfl (fun h => nomatch h)

end Sys2Proof.Machine
end

section
/-! PROOFS. Reading headers and chains back (R94 to R105): the inverse of each operand form, then of each shape. -/

namespace Sys2Proof

open Config Machine

/-! ### Headers -/

/-- A value from its start marker down: opcode and payload put together again (R103). -/
theorem headerValue_of_range {v n : Nat} (h1 : 2 ^ (n + 2) ≤ v) (h2 : v < 2 ^ (n + 3)) :
    headerValue (v / 2 ^ n % 4) (v % 2 ^ n) n = v := by
  rw [Nat.pow_add] at h1 h2
  have hlow : 4 ≤ v / 2 ^ n := (Nat.le_div_iff_mul_le (Nat.two_pow_pos n)).2 (by omega)
  have hhigh : v / 2 ^ n < 8 := Nat.div_lt_of_lt_mul h2
  rw [headerValue_eq_add (Nat.mod_lt _ (by omega)), Nat.mod_mod, show v / 2 ^ n % 4 + 4 = v / 2 ^ n by omega,
    Nat.mul_comm, Nat.div_add_mod]

/-- The place of the start marker of a value that has one. -/
theorem exists_header_range {v : Nat} (h : 4 ≤ v) (hv : v < 2 ^ 16) :
    ∃ n, n ≤ 13 ∧ 2 ^ (n + 2) ≤ v ∧ v < 2 ^ (n + 3) := by
  have hlow : 2 ≤ v.log2 := (Nat.le_log2 (by omega)).2 h
  have hhigh : v.log2 < 16 := (Nat.log2_lt (by omega)).2 hv
  refine ⟨v.log2 - 2, by omega, ?_, ?_⟩
  · rw [Nat.sub_add_cancel hlow]
    exact Nat.log2_self_le (by omega)
  · rw [show v.log2 - 2 + 3 = v.log2 + 1 by omega]
    exact Nat.lt_log2_self

/-- Settles O5: the highest set bit gives the range `2 ^ (bits + 2) ≤ v < 2 ^ (bits + 3)`, and with it all that is
read. -/
theorem decodedHeadersEncodeBack : Obligations.DecodedHeadersEncodeBack := by
  refine fun v hv => ⟨fun h4 => ?marker, fun h4 => ?none⟩
  case marker =>
    obtain ⟨n, hn, h1, h2⟩ := exists_header_range h4 hv
    exact ⟨_, decodeH16_of_range hn h1 h2, Nat.mod_lt _ (by omega), Nat.mod_lt _ (Nat.two_pow_pos n), hn,
      (testBit_top h1 h2).1, h2, headerValue_of_range h1 h2⟩
  case none => interval_cases v <;> rfl

/-- A composed header's two bytes, read back. -/
theorem decodeHeaderBytes_headerValue {o n : Nat} (ho : o < 4) (hn : n ≤ 13) (p : Nat) :
    decodeHeaderBytes (be16 (headerValue o p n)) = .ok { opcode := o, bits := n, payload := p % 2 ^ n } := by
  rw [decodeHeaderBytes_be16 (headerValue_lt_word ho hn p), decodeH16_headerValue ho hn]

/-! ### Operands -/

/-- The unit address of a whole unit leads back to its byte offset (R163). -/
theorem offsetOfUnit_unitOf {p : Params} {org16 : Bool} {a : Nat}
    (h : org16 = true ∧ p.addrUnitX16 = .wordIndex → 2 ∣ a) : offsetOfUnit p org16 (unitOf p org16 a) = a := by
  by_cases hw : org16 = true ∧ p.addrUnitX16 = .wordIndex
  · have heven : a / 2 * 2 = a := Nat.div_mul_cancel (h hw)
    simp [offsetOfUnit, unitOf, hw, Nat.shiftLeft_eq, heven]
  · have hbyte : (org16 && decide (p.addrUnitX16 = .wordIndex)) = false := by
      simpa using hw
    simp [offsetOfUnit, unitOf, hw, hbyte]

theorem readAddress_readPayloadOf {p : Params} {org16 : Bool} {a : Nat}
    (h : org16 = true ∧ p.addrUnitX16 = .wordIndex → 2 ∣ a) : readAddress p org16 (readPayloadOf p org16 a) = a := by
  have hshift : readPayloadOf p org16 a >>> (if p.readPreshift then 1 else 0) = unitOf p org16 a := by
    unfold readPayloadOf
    split
    · rw [Nat.shiftRight_one, Nat.mul_div_cancel_left _ (by omega)]
    · rfl
  rw [readAddress, hshift, offsetOfUnit_unitOf h]

/-- A subcode shifted into the two highest bits of the payload field, and back (R96). -/
theorem specialPayload_split {aEff : Nat} (h : 2 ≤ aEff) (subcode : Nat) :
    specialPayload aEff subcode % 2 ^ aEff % 2 ^ (aEff - 2) = 0 ∧
      specialPayload aEff subcode % 2 ^ aEff / 2 ^ (aEff - 2) = subcode % 4 := by
  rw [specialPayload_mod h]
  exact ⟨Nat.mul_mod_left _ _, Nat.mul_div_cancel _ (Nat.two_pow_pos _)⟩

/-! ### Control headers -/

theorem controlInstr_ewen (p : Params) : controlInstr p opcCtrl p.subEwen.toNat = .ewen := by
  simp [controlInstr]

theorem controlInstr_ewds {p : Params} (h : CodesDistinct p) : controlInstr p opcCtrl p.subEwds.toNat = .ewds := by
  have h1 : p.subEwds.toNat ≠ p.subEwen.toNat := fun e => h.ewenEwds (BitVec.eq_of_toNat_eq e.symm)
  simp [controlInstr, h1]

theorem controlInstr_eral {p : Params} (h : CodesDistinct p) : controlInstr p opcCtrl p.subEral.toNat = .eral := by
  have h1 : p.subEral.toNat ≠ p.subEwen.toNat := fun e => h.ewenEral (BitVec.eq_of_toNat_eq e.symm)
  have h2 : p.subEral.toNat ≠ p.subEwds.toNat := fun e => h.ewdsEral (BitVec.eq_of_toNat_eq e.symm)
  simp [controlInstr, h1, h2]

theorem controlInstr_special {p : Params} {opcode subcode : Nat}
    (h : ¬ (opcode = 0 ∧ (subcode = p.subEwen.toNat ∨ subcode = p.subEwds.toNat ∨ subcode = p.subEral.toNat))) :
    controlInstr p opcode subcode = .special opcode subcode := by
  by_cases ho : opcode = 0
  · simp only [ho, true_and, not_or] at h
    simp [controlInstr, opcCtrl, ho, h]
  · exact if_neg ho

/-! ### Shapes -/

/-- A header-only chain reads back as the control instruction of its opcode and subcode (R94, R96). -/
theorem decodeChain_special {p : Params} {aEff opcode : Nat} (ha : 2 ≤ aEff) (ha' : aEff ≤ 13) (ho : opcode < 4)
    (org16 : Bool) (subcode : Nat) :
    decodeChain p org16 aEff (chainH (specialHeader aEff opcode subcode)) =
      .ok (controlInstr p opcode (subcode % 4)) := by
  obtain ⟨hbelow, hsub⟩ := specialPayload_split ha subcode
  have hdecode := decodeHeaderBytes_headerValue ho ha' (specialPayload aEff subcode)
  simp [decodeChain, chainH, txTransfer, specialHeader, specialDummy, hdecode, decodeControl, hbelow, hsub]

/-- The chain of a wrapper's subcode parameter, which two bits hold. -/
theorem decodeChain_wrapper {p : Params} {aEff : Nat} (ha : 2 ≤ aEff) (ha' : aEff ≤ 13) (org16 : Bool)
    (sub : BitVec 2) :
    decodeChain p org16 aEff (chainH (specialHeader aEff opcCtrl sub.toNat)) =
      .ok (controlInstr p opcCtrl sub.toNat) := by
  rw [decodeChain_special ha ha' (by decide), Nat.mod_eq_of_lt (toNat_lt_four sub)]

/-- A header and data read back as the WRITE of the payload's address (R94, R95). -/
theorem decodeChain_write {p : Params} {aEff : Nat} (ha : aEff ≤ 9) (org16 : Bool) (a : Nat) {data : List Byte}
    (hd : 1 ≤ data.length) :
    decodeChain p org16 aEff (chainHW (writeHeader p org16 aEff a) data) =
      .ok (.write (offsetOfUnit p org16 (unitOf p org16 a % 2 ^ aEff)) data) := by
  have hdecode := decodeHeaderBytes_headerValue (toNat_lt_four p.opcWrite) (n := aEff) (by omega) (unitOf p org16 a)
  simp [decodeChain, chainHW, txTransfer, writeHeader, writeDummy, unitAddr_eq, hdecode, decodeWrite, hd]

/-- A header and a receive-only transfer read back as the READ of the payload's address (R94, R95). -/
theorem decodeChain_read {p : Params} {aEff : Nat} (ha : aEff ≤ 9) (org16 : Bool) (a : Nat) {n : Nat} (hn : 1 ≤ n) :
    decodeChain p org16 aEff (chainHR (readHeader p org16 aEff a) n) =
      .ok (.read (readAddress p org16 (readPayloadOf p org16 a % 2 ^ (aEff + 1))) n) := by
  have hdecode := decodeHeaderBytes_headerValue (toNat_lt_four p.opcRead) (n := aEff + 1) (by omega)
    (readPayloadOf p org16 a)
  simp [decodeChain, chainHR, txTransfer, rxTransfer, readHeader, readDummy, readPayload_eq, hdecode, decodeRead, hn]

theorem decodeChain_status (p : Params) (org16 : Bool) (aEff : Nat) :
    decodeChain p org16 aEff chainR = .ok .status := rfl

/-- Settles O6: each primitive's shape is read back, and its operands come back because they fit their fields. -/
theorem primitiveChainsDecodeBack : Obligations.PrimitiveChainsDecodeBack := by
  intro p org16 aEff i c hp h4 h9 hadm hc
  cases i with
  | read a n =>
    obtain ⟨hn, hfit, hunit⟩ := hadm
    cases hc
    rw [decodeChain_read h9 org16 a hn, Nat.mod_eq_of_lt hfit, readAddress_readPayloadOf hunit]
  | write a data =>
    obtain ⟨hd, hfit, hunit⟩ := hadm
    cases hc
    rw [decodeChain_write h9 org16 a hd, Nat.mod_eq_of_lt hfit, offsetOfUnit_unitOf hunit]
  | special opcode subcode =>
    obtain ⟨ho, hs, hpair⟩ := hadm
    cases hc
    rw [decodeChain_special (by omega) (by omega) ho, Nat.mod_eq_of_lt hs, controlInstr_special hpair]
  | ewen =>
    cases hc
    rw [decodeChain_wrapper (by omega) (by omega), controlInstr_ewen]
  | ewds =>
    cases hc
    rw [decodeChain_wrapper (by omega) (by omega), controlInstr_ewds hp]
  | eral =>
    cases hc
    rw [decodeChain_wrapper (by omega) (by omega), controlInstr_eral hp]
  | status =>
    cases hc
    exact decodeChain_status p org16 aEff
  | encode | finalize | readArray | writeArray | eraseArray => cases hc

/-! ### Words of the opcode table -/

/-- A table word that is a composed header is the row its fields name. -/
theorem decodeTableWord_headerValue {o n : Nat} (ho : o < 4) (hn : n ≤ 13) (p : Nat) :
    decodeTableWord 16 (headerValue o p n) =
      some (decodeHeaderAlone Config.params { opcode := o, bits := n, payload := p % 2 ^ n }).1 := by
  simp [decodeTableWord, decodeTable, decodeHeaderBytes_headerValue ho hn]

/-- Settles O7: each word is a composed header, whose row `decodeHeaderAlone` computes. -/
theorem tableWordsDecode : Obligations.TableWordsDecode := by
  refine ⟨?_, ?_, ?_, ?_, ?_, ?_, ?_, ?_⟩
  · exact decodeTableWord_headerValue (o := 2) (n := 8) (by decide) (by decide) 5
  · exact decodeTableWord_headerValue (o := 1) (n := 7) (by decide) (by decide) 5
  · exact decodeTableWord_headerValue (o := 0) (n := 7) (by decide) (by decide) 0b1100000
  · exact decodeTableWord_headerValue (o := 0) (n := 7) (by decide) (by decide) 0
  · exact decodeTableWord_headerValue (o := 0) (n := 7) (by decide) (by decide) 0b1000000
  · exact decodeTableWord_headerValue (o := 0) (n := 4) (by decide) (by decide) 0b1100
  · exact decodeTableWord_headerValue (o := 3) (n := 7) (by decide) (by decide) 0b0100000
  · exact decodeTableWord_headerValue (o := 3) (n := 13) (by decide) (by decide) 1

end Sys2Proof
end

section
/-! PROOFS. The wire-level view (R172, R173, R298): the levels of `DI`, `SCK` and `SEL` over the four shapes of chain,
and what sampled levels of `DO` make of the receive buffer. -/

namespace Sys2Proof

open Config Machine

/-- A header value bit by bit: the payload below `bits`, marker and opcode from there on. -/
theorem headerValue_testBit (o p n j : Nat) :
    (headerValue o p n).testBit j = if j < n then p.testBit j else (o ||| startMarker).testBit (j - n) := by
  by_cases h : j < n <;> simp [headerValue, mask, Nat.testBit_shiftLeft, h]
  omega

/-- The three bits above the payload: the start marker and the opcode. -/
theorem prefix_testBits {o : Nat} (h : o < 4) :
    (o ||| startMarker).testBit 2 = true ∧ (o ||| startMarker).testBit 1 = o.testBit 1 ∧
      (o ||| startMarker).testBit 0 = o.testBit 0 := by
  interval_cases o <;> decide

end Sys2Proof

namespace Sys2Proof.Machine

open Sys2Proof Config

/-! ### Headers on the wire -/

/-- A unit's bits as bits of the number it holds. -/
theorem unitBits_ofNat (v : Nat) :
    unitBits (BitVec.ofNat 8 v) = (List.range 8).map (fun k => v.testBit (7 - k)) := by
  refine List.ext_getElem (by simp) fun k h1 h2 => ?_
  have hk : k < 8 := by simpa using h1
  have hk' : 7 - k < 8 := by omega
  have hbit : (BitVec.ofNat 8 v).getLsbD (7 - k) = v.testBit (7 - k) := by
    rw [BitVec.getLsbD_ofNat, decide_eq_true hk', Bool.true_and]
  simp only [unitBits, List.getElem_map, List.getElem_range, BitVec.getMsbD, hk, decide_true, Bool.true_and, hbit]

/-- The sixteen levels of a header: its bits, most significant first. -/
theorem chainDi_chainH (v : Nat) : chainDi (chainH v) = (List.range 16).map (fun k => v.testBit (15 - k)) := by
  have hhigh (j : Nat) : (v / 256).testBit j = v.testBit (j + 8) := by
    simpa using Nat.testBit_div_two_pow v j (n := 8)
  simp [chainDi, chainH, be16, unitBits_ofNat, List.range_succ, hhigh]

/-- Settles O8: clock by clock, the padding, the start marker, the opcode and the payload. -/
theorem headerOnTheWire : Obligations.HeaderOnTheWire := by
  intro opcode payload bits ho hn
  rw [chainDi_chainH]
  refine List.ext_getElem (by simp; omega) fun k h1 h2 => ?_
  have hk : k < 16 := by simpa using h1
  obtain ⟨-, hpad⟩ := headerValue_testBit_top ho payload bits
  simp only [List.getElem_map, List.getElem_range]
  rcases Nat.lt_or_ge k (13 - bits) with hzero | hzero
  · rw [List.getElem_append_left (by simp; omega), List.getElem_append_left (by simpa using hzero),
      List.getElem_replicate, hpad _ (by omega)]
  · rcases Nat.lt_or_ge k (16 - bits) with hprefix | hprefix
    · obtain ⟨hstart, hone, hzero'⟩ := prefix_testBits ho
      obtain ⟨j, hj, rfl⟩ : ∃ j, j < 3 ∧ k = 13 - bits + j := ⟨k - (13 - bits), by omega, by omega⟩
      rw [List.getElem_append_left (by simp; omega), List.getElem_append_right (by simp),
        headerValue_testBit, if_neg (by omega), show 15 - (13 - bits + j) - bits = 2 - j by omega]
      simp only [List.length_replicate, Nat.add_sub_cancel_left]
      match j with
      | 0 => exact hstart
      | 1 => exact hone
      | 2 => exact hzero'
    · rw [List.getElem_append_right (by simp; omega), headerValue_testBit, if_pos (by omega)]
      simp [show bits - 1 - (k - (13 - bits + 3)) = 15 - k by omega]

/-! ### Clocks and levels of the shapes -/

theorem chainClocks_chainH (v : Nat) : chainClocks (chainH v) = 16 := rfl

theorem chainClocks_chainHW (v : Nat) (data : List Byte) : chainClocks (chainHW v data) = 16 + 8 * data.length := by
  simp [chainClocks, chainHW, txTransfer]

theorem chainClocks_chainHR (v n : Nat) : chainClocks (chainHR v n) = 16 + 8 * n := by
  simp [chainClocks, chainHR, txTransfer, rxTransfer]

theorem chainClocks_chainR : chainClocks chainR = 8 := rfl

/-- A transfer of either kind has eight levels of `DI` a unit. -/
theorem transferDi_length {t : Transfer} (h : (∃ bs, t = txTransfer bs) ∨ ∃ n, t = rxTransfer n) :
    (transferDi t).length = 8 * t.len := by
  rcases h with ⟨bs, rfl⟩ | ⟨n, rfl⟩
  · exact flatMap_unitBits_length bs
  · exact List.length_replicate

/-- One level of `DI` for each clock, for chains of such transfers. -/
theorem chainDi_length {c : Chain} (h : ∀ t ∈ c, (∃ bs, t = txTransfer bs) ∨ ∃ n, t = rxTransfer n) :
    (chainDi c).length = chainClocks c := by
  induction c with
  | nil => rfl
  | cons t c ih =>
    obtain ⟨ht, hc⟩ := List.forall_mem_cons.1 h
    have ih' := ih hc
    simp only [chainDi, chainClocks, List.flatMap_cons, List.length_append, List.map_cons, List.sum_cons] at ih' ⊢
    rw [transferDi_length ht, ih']

theorem chainDi_chainHW_length (v : Nat) (data : List Byte) :
    (chainDi (chainHW v data)).length = chainClocks (chainHW v data) :=
  chainDi_length (by simp [chainHW])

theorem chainDi_chainHR_length (v n : Nat) : (chainDi (chainHR v n)).length = chainClocks (chainHR v n) :=
  chainDi_length (by simp [chainHR])

/-- Settles O9: the shapes' lengths, and the idle level of a receive-only transfer. -/
theorem clocksOfTheShapes : Obligations.ClocksOfTheShapes := by
  intro v n data
  refine ⟨chainClocks_chainH v, chainClocks_chainHW v data, chainClocks_chainHR v n, chainClocks_chainR,
    chainDi_chainHW_length v data, chainDi_chainHR_length v n, fun b hb => ?_⟩
  rw [transferDi_rxTransfer] at hb
  exact (List.mem_replicate.1 hb).2

/-- Every primitive's chain is one of the four shapes (R94). -/
theorem encodeChain_shape {p : Params} {org16 : Bool} {aEff : Nat} {i : Instr} {c : Chain}
    (h : encodeChain p org16 aEff i = some c) :
    (∃ v, c = chainH v) ∨ (∃ v data, c = chainHW v data) ∨ (∃ v n, c = chainHR v n) ∨ c = chainR := by
  cases i with
  | read a n => cases h; exact .inr (.inr (.inl ⟨_, n, rfl⟩))
  | write a data => cases h; exact .inr (.inl ⟨_, data, rfl⟩)
  | special | ewen | ewds | eral => cases h; exact .inl ⟨_, rfl⟩
  | status => cases h; exact .inr (.inr (.inr rfl))
  | encode | finalize | readArray | writeArray | eraseArray => cases h

theorem encodeChain_transfers {p : Params} {org16 : Bool} {aEff : Nat} {i : Instr} {c : Chain}
    (h : encodeChain p org16 aEff i = some c) :
    ∀ t ∈ c, (∃ bs, t = txTransfer bs) ∨ ∃ n, t = rxTransfer n := by
  rcases encodeChain_shape h with ⟨v, rfl⟩ | ⟨v, data, rfl⟩ | ⟨v, n, rfl⟩ | rfl
  · simp [chainH]
  · simp [chainHW]
  · simp [chainHR]
  · simp [chainR]

/-! ### The trace -/

/-- Clock `k` takes the two entries from `2 * k` on: `SCK` low, then high, `DI` at its bit (R172). -/
theorem flatMap_clockLevels_getElem? {di : List Bool} {k : Nat} {b : Bool} (h : di[k]? = some b)
    (rest : List BusPins) :
    (di.flatMap clockLevels ++ rest)[2 * k]? = some { sel := true, sck := false, di := b } ∧
      (di.flatMap clockLevels ++ rest)[2 * k + 1]? = some { sel := true, sck := true, di := b } := by
  induction di generalizing k with
  | nil => simp at h
  | cons d di ih =>
    cases k with
    | zero =>
      obtain rfl : d = b := by simpa using h
      exact ⟨rfl, rfl⟩
    | succ k => exact ih (by simpa using h)

/-- After the last clock: `SCK` low with select still high, then the lines at rest. -/
theorem chainTrace_end (c : Chain) :
    (chainTrace c)[2 * (chainDi c).length]? = some { sel := true, sck := false, di := false } ∧
      (chainTrace c)[2 * (chainDi c).length + 1]? = some BusPins.idle := by
  have hlen : ((chainDi c).flatMap clockLevels).length = 2 * (chainDi c).length := by simp [Nat.mul_comm]
  rw [chainTrace, ← hlen]
  constructor
  · simp
  · rw [List.getElem?_append_right (by omega)]
    simp

/-- Settles O58: the trace of any chain with one `DI` level a clock, as every primitive's has. -/
theorem chainOnTheWire : Obligations.ChainOnTheWire := by
  intro p org16 aEff i c hc
  have hlen : (chainDi c).length = chainClocks c := chainDi_length (encodeChain_transfers hc)
  obtain ⟨hlow, hidle⟩ := chainTrace_end c
  rw [hlen] at hlow hidle
  refine ⟨hlen, by rw [chainTrace_length, hlen], fun k hk => ?_, hlow, hidle⟩
  have hbit : (chainDi c)[k]? = some ((chainDi c)[k]'(by omega)) := List.getElem?_eq_getElem (by omega)
  exact ⟨_, hbit, flatMap_clockLevels_getElem? hbit _⟩

/-! ### Sampled levels -/

/-- Eight levels are the bits of the unit they make. -/
theorem unitBits_unitOfBits_of_length {l : List Bool} (h : l.length = 8) : unitBits (unitOfBits l) = l := by
  match l, h with
  | [b0, b1, b2, b3, b4, b5, b6, b7], _ => exact unitBits_unitOfBits b0 b1 b2 b3 b4 b5 b6 b7

/-- The levels of unit `k`, most significant bit first (R61). -/
theorem unitsOf_getElem? {n : Nat} {levels : List Bool} (hl : levels.length = 8 * n) {k : Nat} (hk : k < n) :
    ∃ b : Byte, (unitsOf n levels)[k]? = some b ∧ ∀ j < 8, levels[8 * k + j]? = some (b.getMsbD j) := by
  induction n generalizing levels k with
  | zero => omega
  | succ n ih =>
    cases k with
    | zero =>
      refine ⟨unitOfBits (levels.take 8), rfl, fun j hj => ?_⟩
      have hunit := unitBits_unitOfBits_of_length (l := levels.take 8) (by simp; omega)
      rw [← unitBits_getElem? _ hj, hunit, List.getElem?_take_of_lt hj]
      simp
    | succ k =>
      obtain ⟨b, hb, hbits⟩ := ih (levels := levels.drop 8) (by simp; omega) (k := k) (by omega)
      refine ⟨b, hb, fun j hj => ?_⟩
      rw [← hbits j hj, List.getElem?_drop]
      congr 1
      omega

/-- What a primitive's chain receives: the units of its last clocks, the levels before them ignored (R172). -/
theorem chainRx_eq_unitsOf {p : Params} {org16 : Bool} {aEff : Nat} {i : Instr} {c : Chain}
    (h : encodeChain p org16 aEff i = some c) {levels : List Bool} (hl : levels.length = chainClocks c) :
    chainRx c levels = unitsOf (rxTotal c) (levels.drop (chainClocks c - 8 * rxTotal c)) := by
  rcases encodeChain_shape h with ⟨v, rfl⟩ | ⟨v, data, rfl⟩ | ⟨v, n, rfl⟩ | rfl
  · rfl
  · rfl
  · rw [chainClocks_chainHR] at hl
    have hall : (levels.drop 16).take (8 * n) = levels.drop 16 := List.take_of_length_le (by simp; omega)
    rw [rxTotal_chainHR, chainClocks_chainHR, Nat.add_sub_cancel]
    simp [chainHR, chainRx, transferRx, txTransfer, rxTransfer, unitsOf, hall]
  · have hall : levels.take 8 = levels := List.take_of_length_le hl.le
    simp [chainR, chainRx, transferRx, rxTransfer, rxTotal, chainClocks, hall]

/-- A chain has at least the clocks of what it receives. -/
theorem rxTotal_le_chainClocks {p : Params} {org16 : Bool} {aEff : Nat} {i : Instr} {c : Chain}
    (h : encodeChain p org16 aEff i = some c) : 8 * rxTotal c ≤ chainClocks c := by
  rcases encodeChain_shape h with ⟨v, rfl⟩ | ⟨v, data, rfl⟩ | ⟨v, n, rfl⟩ | rfl
  · simp
  · simp
  · rw [rxTotal_chainHR, chainClocks_chainHR]
    omega
  · rw [rxTotal_chainR, chainClocks_chainR]

/-- Settles O59: the received units are the chain's last levels, and the bits of any bytes, put there, are received. -/
theorem sampledLevelsMakeTheAnswer : Obligations.SampledLevelsMakeTheAnswer := by
  intro p org16 aEff i c hc
  have hfit := rxTotal_le_chainClocks hc
  refine ⟨fun levels hl => ⟨chainRx_length c levels, fun k hk => ?sampled⟩, fun rx hrx => ?reached⟩
  case sampled =>
    have hlast : (levels.drop (chainClocks c - 8 * rxTotal c)).length = 8 * rxTotal c := by
      rw [List.length_drop]
      omega
    obtain ⟨b, hb, hbits⟩ := unitsOf_getElem? hlast hk
    refine ⟨b, by rw [chainRx_eq_unitsOf hc hl, hb], fun j hj => ?_⟩
    rw [← hbits j hj, List.getElem?_drop, Nat.add_assoc]
  case reached =>
    have hl : (List.replicate (chainClocks c - 8 * rxTotal c) false ++ rx.flatMap unitBits).length = chainClocks c := by
      rw [List.length_append, List.length_replicate, flatMap_unitBits_length]
      omega
    refine ⟨_, hl, ?_⟩
    rw [chainRx_eq_unitsOf hc hl, List.drop_left' (List.length_replicate), ← hrx, unitsOf_flatMap_unitBits]

end Sys2Proof.Machine
end

section
/-! PROOFS. FINALIZE (R120 to R130): the profile its operands denote, the outcome of the checks, and what a success
commits. -/

namespace Sys2Proof.Machine

open Sys2Proof Config

/-! ### What the operands denote -/

/-- The profile the operands denote is the one FINALIZE checks (R120 to R122). -/
theorem chooseProfile_of_chosen {cat : List CatalogEntry} {name : Option Name} {size? ab? : Option Nat}
    {sup? : Option OrgSup} {size ab : Nat} {sup : OrgSup} (h : Chosen cat name size? ab? sup? size ab sup) :
    chooseProfile cat name size? ab? sup? = .profile size ab sup := by
  rcases h with ⟨rfl, rfl, rfl, rfl⟩ | ⟨n, e, rfl, rfl, rfl, rfl, hd, he, hn, rfl, rfl, rfl⟩
  · exact chooseProfile_explicit cat size? ab? sup?
  · have hfound : catalogLookup cat n = some e := (catalogLookup_eq_some hd).2 ⟨he, hn⟩
    simp [chooseProfile, hd, hfound]

/-- In a catalog of distinct names, a name no entry has is unknown (R122). -/
theorem chooseProfile_miss {cat : List CatalogEntry} {n : Name} (hd : catalogDistinct cat = true)
    (h : ∀ e ∈ cat, foldName e.name ≠ foldName n) :
    chooseProfile cat (some n) none none none = .raises .unknownCatalogEntry := by
  have hmiss : catalogLookup cat n = none := catalogLookup_eq_none.2 h
  simp [chooseProfile, hd, hmiss]

/-- Case folding in the order of characters: the letters `A` to `Z` and no other (U23). -/
theorem foldChar_eq (c : Char) :
    foldChar c = if 'A' ≤ c ∧ c ≤ 'Z' then Char.ofNat (c.toNat + 32) else c := rfl

/-- Settles O17 (`catalogLookup` is the model's own function): the miss raises, the collision is refused before any entry
is looked at, and folding is ASCII's. -/
theorem catalogLookup_outcomes : Obligations.CatalogLookup := by
  refine ⟨fun n mode s hb hd hmiss => ?miss, fun n mode s a b c d e hb hcat hname => ?collision, foldChar_eq⟩
  case miss => exact finalize_fails_of_raises hb (chooseProfile_miss (decide_eq_true hd) hmiss)
  case collision =>
    rw [exec_finalize_idle hb, hcat, chooseProfile_name.2 (catalogDistinct_collision hname)]
    rfl

/-! ### The checks, in the order of R128 -/

theorem isPowerOfTwo_eq_false {n : Nat} (h : ∀ k, n ≠ 2 ^ k) : isPowerOfTwo n = false := by
  refine Bool.eq_false_iff.2 fun hp => ?_
  obtain ⟨k, hk⟩ := (isPowerOfTwo_iff n).1 hp
  exact h k hk

theorem isPowerOfTwo_two_pow (k : Nat) : isPowerOfTwo (2 ^ k) = true := (isPowerOfTwo_iff _).2 ⟨k, rfl⟩

theorem geometryCond_of_bad_addrBits {size ab : Nat} (hsize : isPowerOfTwo size = true) (h : ab < 5 ∨ 9 < ab)
    (sup : OrgSup) (mode : AccessMode) : geometryCond size ab sup mode = .invalidGeometry := by
  rw [geometryCond, if_neg (by simp [hsize])]
  exact if_pos h

/-- With a good geometry the mode alone decides. -/
theorem geometryCond_of_good_geometry {size ab : Nat} (hsize : isPowerOfTwo size = true) (h5 : 5 ≤ ab) (h9 : ab ≤ 9)
    (sup : OrgSup) (mode : AccessMode) :
    geometryCond size ab sup mode = if supports sup mode = false then .unsupportedMode else .none := by
  rw [geometryCond, if_neg (by simp [hsize]), if_neg (by simp only [addrBitsMin, addrBitsMax]; omega)]

/-- A mode is in the set when its own bit is (R32). -/
theorem supports_eq {sup : OrgSup} {mode : AccessMode} {b : Bool} (h8 : mode = .x8 → sup.getLsbD 0 = b)
    (h16 : mode = .x16 → sup.getLsbD 1 = b) : supports sup mode = b := by
  cases mode with
  | x8 => exact h8 rfl
  | x16 => exact h16 rfl

/-- Settles O18: the size is checked first. -/
theorem sizeMustBeAPowerOfTwo : Obligations.SizeMustBeAPowerOfTwo := by
  intro name size? ab? sup? mode s size ab sup hb hchosen hsize
  exact finalize_fails_of_geometryCond hb (chooseProfile_of_chosen hchosen)
    (geometryCond_of_bad_size (isPowerOfTwo_eq_false hsize) ab sup mode) (by decide)

/-- Settles O19: with a good size the address bits are checked next. -/
theorem addrBitsMustBeFiveToNine : Obligations.AddrBitsMustBeFiveToNine := by
  intro name size? ab? sup? mode s k ab sup hb hchosen hab
  exact finalize_fails_of_geometryCond hb (chooseProfile_of_chosen hchosen)
    (geometryCond_of_bad_addrBits (isPowerOfTwo_two_pow k) hab sup mode) (by decide)

/-- Settles O20: with a good geometry the mode is checked last. -/
theorem modeMustBeSupported : Obligations.ModeMustBeSupported := by
  intro name size? ab? sup? mode s k ab sup hb hchosen h5 h9 h8 h16
  have hg := geometryCond_of_good_geometry (isPowerOfTwo_two_pow k) h5 h9 sup mode
  rw [if_pos (supports_eq h8 h16)] at hg
  exact finalize_fails_of_geometryCond hb (chooseProfile_of_chosen hchosen) hg (by decide)

/-! ### The commit -/

theorem runFinalize_commits {size ab : Nat} {sup : OrgSup} {mode : AccessMode}
    (h : geometryCond size ab sup mode = .none) (s : State) :
    runFinalize (.profile size ab sup) mode s = .next (finish { s with cfg := committedCfg size ab sup mode }) := by
  simp only [runFinalize, h]

/-- The registers of four bits hold counts up to 9, and the one less of 16-bit mode (R126). -/
theorem committedCfg_widths {ab : Nat} (h9 : ab ≤ 9) (size : Nat) (sup : OrgSup) (mode : AccessMode) :
    (committedCfg size ab sup mode).addrBits.toNat = ab ∧
      (committedCfg size ab sup mode).aEff.toNat = effectiveBits ab mode := by
  have heff : effectiveBits ab mode ≤ ab := by
    cases mode with
    | x8 => exact le_rfl
    | x16 => exact Nat.sub_le ab 1
  constructor <;> exact Nat.mod_eq_of_lt (by omega)

/-- Settles O21: the checks pass, and the committed registers are read off. -/
theorem finalizeCommitsTheProfile : Obligations.FinalizeCommitsTheProfile := by
  intro name size? ab? sup? mode s k ab sup hb hchosen h5 h9 h8 h16
  have hg := geometryCond_of_good_geometry (isPowerOfTwo_two_pow k) h5 h9 sup mode
  rw [supports_eq h8 h16, if_neg (by simp)] at hg
  obtain ⟨hab, haEff⟩ := committedCfg_widths h9 (2 ^ k) sup mode
  have hrun := runFinalize_commits hg (accept .finalize s)
  rw [← chooseProfile_of_chosen hchosen, ← exec_finalize_idle hb] at hrun
  refine ⟨_, hrun, ?ended, rfl, hab, rfl, decide_eq_true_iff, ?x8, ?x16, rfl, rfl, rfl, ⟨rfl, rfl⟩,
    ⟨rfl, rfl, rfl, rfl, fun _ _ => rfl⟩⟩
  case ended => exact ⟨rfl, rfl, rfl, rfl, rfl⟩
  case x8 =>
    rintro rfl
    exact haEff
  case x16 =>
    rintro rfl
    exact haEff

/-- Running the same choice at the state it led to: the commit writes the same registers, a condition none (R130). -/
theorem runFinalize_repeat {choice : ProfileChoice} {mode : AccessMode} {s t : State}
    (h : runFinalize choice mode s = .next t) :
    ∃ u, runFinalize choice mode (accept .finalize t) = .next u ∧ u.cfg = t.cfg := by
  cases choice with
  | ambiguous => cases h
  | raises c => exact ⟨_, rfl, rfl⟩
  | profile size ab sup =>
    by_cases hg : geometryCond size ab sup mode = .none
    · rw [runFinalize_commits hg] at h ⊢
      cases h
      exact ⟨_, rfl, rfl⟩
    · exact ⟨_, runFinalize_of_geometryCond rfl hg _, rfl⟩

/-- A FINALIZE that ran leaves an idle port with the same parameters. -/
theorem runFinalize_idle {choice : ProfileChoice} {mode : AccessMode} {s t : State}
    (h : runFinalize choice mode s = .next t) : t.st.busy = false ∧ t.par = s.par := by
  rcases runFinalize_next h with ⟨size, ab, sup, -, -, rfl⟩ | ⟨c, -, rfl⟩ | ⟨-, rfl⟩ <;> exact ⟨rfl, rfl⟩

/-- Settles O22: the second run makes the same choice, since no FINALIZE writes the catalog. -/
theorem repeatedFinalizeGivesTheSameProfile : Obligations.RepeatedFinalizeGivesTheSameProfile := by
  intro name size ab sup mode s t h
  rcases whenIdle_next h with ⟨-, rfl⟩ | ⟨-, hrun⟩
  · exact ⟨_, h, rfl⟩
  · obtain ⟨hidle, hpar⟩ := runFinalize_idle hrun
    rw [exec_finalize_idle hidle, hpar]
    exact runFinalize_repeat hrun

end Sys2Proof.Machine
end

section
/-! PROOFS. ENCODE at the port (R141, R145, R175): the header it leaves, and its domain. -/

namespace Sys2Proof.Machine

open Sys2Proof Config

theorem encodedState_noChain (v : Nat) (s : State) : NoChain s (encodedState v s) := ⟨rfl, rfl⟩

/-- Settles O1: the composed value is in `W.HDR` and, in two bytes, in `RES`; every other field is one rule of an
update. -/
theorem encodeAnswersTheHeader : Obligations.EncodeAnswersTheHeader := by
  intro opcode payload dummy aEff s hb ho hn
  have hword := headerValue_lt_word ho hn payload
  have hvalue := beValue_be16 hword
  exact ⟨_, _, _, exec_encode_idle hb ho hn payload, encodedState_res _ s, hvalue,
    (encodedState_hdr_toNat hword s).trans hvalue.symm, encodedState_endedWell _ s, encodedState_noChain _ s,
    ⟨rfl, rfl⟩, ⟨rfl, rfl, rfl⟩, rfl, ⟨rfl, rfl, rfl, rfl, fun _ _ => rfl⟩⟩

theorem inDomain_eq_false {opcode bits : Nat} (h : 4 ≤ opcode ∨ 13 < bits) : inDomain opcode bits = false := by
  rcases h with h | h
  · simp [inDomain, Nat.not_lt.2 h]
  · simp [inDomain, encBitsMax, Nat.not_le.2 h]

theorem exec_encode_refused {opcode dummy aEff : Nat} {s : State} (hb : s.st.busy = false)
    (h : 4 ≤ opcode ∨ 13 < aEff + dummy) (payload : Nat) :
    exec (.encode opcode payload dummy aEff) s = .refused .encodeDomain :=
  (whenIdle_idle hb).trans (if_neg (by simp [inDomain_eq_false h]))

/-- A header outside ENCODE's domain is refused by every primitive that has one (R145). -/
theorem headerPrim_refused {opcode dummy v : Nat} {c : Chain} {s : State} (hf : s.cfg.finalized = true)
    (h : 4 ≤ opcode ∨ 13 < s.cfg.aEff.toNat + dummy) : headerPrim opcode dummy v c s = .error .encodeDomain := by
  rw [headerPrim, if_neg (by simp [hf]), if_neg (by simp [inDomain_eq_false h])]

theorem exec_special_refused {opcode : Nat} {s : State} (hb : s.st.busy = false) (hf : s.cfg.finalized = true)
    (h : 4 ≤ opcode) (subcode : Nat) : exec (.special opcode subcode) s = .refused .encodeDomain :=
  (whenIdle_idle hb).trans
    (congrArg (portPrim fun _ => .success) (headerPrim_refused (s := accept .prim s) hf (.inl h)))

/-- Settles O4: both refusals come from ENCODE's domain, in which R145's example with `a_eff = 0` lies. -/
theorem encoderDomainIsEnforced : Obligations.EncoderDomainIsEnforced := by
  refine ⟨fun opcode payload dummy aEff s hb h => exec_encode_refused hb h payload,
    fun opcode subcode s hb hf h => exec_special_refused hb hf h subcode, fun s hb => ?low⟩
  case low =>
    exact ⟨_, exec_encode_idle (opcode := 1) (dummy := 0) (aEff := 0) hb (by decide) (by decide) 1,
      encodedState_res _ s, rfl⟩

end Sys2Proof.Machine
end

section
/-! PROOFS. The primitives at the port (R160 to R175): one lemma says of every primitive that it runs its encoding, and
each statement about one of them reads it off. -/

namespace Sys2Proof.Machine

open Sys2Proof Config

/-! ### Header-bearing primitives -/

/-- A primitive whose precondition holds writes `W.HDR`, issues its chain and ends as that is answered (R160, R175). -/
theorem portPrim_runs {i : Instr} {s : State} {result : List Byte → ResVal} {out : PrimOut} {c : Chain} {v : Nat}
    (hexec : exec i s = portPrim result out) (hout : out = .ok (bus c (setHdr v (accept .prim s))))
    (hv : v < 65536) :
    ∃ t ans, exec i s = .next t ∧ PortPrimRan c result ans s t ∧ t.w.hdr.toNat = v ∧ t.w.status = s.w.status := by
  obtain ⟨t, ans, hnext, hran, hhdr, hstatus⟩ := portPrim_header_ran result c v s
  refine ⟨t, ans, by rw [hexec, hout, hnext], hran, ?_, hstatus⟩
  rw [hhdr, BitVec.toNat_ofNat, Nat.mod_eq_of_lt hv]

theorem readHdr_eq (a : Nat) (s : State) :
    readHdr a s =
      headerValue s.par.opcRead.toNat (readPayloadOf s.par s.cfg.org16 a) (s.cfg.aEff.toNat + 1) := by
  rw [readHdr, readHeader, readPayload_eq, readDummy]

theorem writeHdr_eq (a : Nat) (s : State) :
    writeHdr a s = headerValue s.par.opcWrite.toNat (unitOf s.par s.cfg.org16 a) s.cfg.aEff.toNat := by
  rw [writeHdr, writeHeader, unitAddr_eq, writeDummy, Nat.add_zero]

theorem readHdr_lt {s : State} (ha : s.cfg.aEff.toNat ≤ 9) (a : Nat) : readHdr a s < 65536 := by
  rw [readHdr_eq]
  exact headerValue_lt_word (toNat_lt_four _) (by omega) _

theorem writeHdr_lt {s : State} (ha : s.cfg.aEff.toNat ≤ 9) (a : Nat) : writeHdr a s < 65536 := by
  rw [writeHdr_eq]
  exact headerValue_lt_word (toNat_lt_four _) (by omega) _

theorem specialHdr_lt {s : State} (ha : s.cfg.aEff.toNat ≤ 9) {opcode : Nat} (ho : opcode < 4) (subcode : Nat) :
    specialHdr opcode subcode s < 65536 :=
  headerValue_lt_word ho (by simp only [specialDummy]; omega) _

theorem exec_read_runs {s : State} (hb : s.st.busy = false) (hf : s.cfg.finalized = true)
    (ha : s.cfg.aEff.toNat ≤ 9) {n : Nat} (hn : 1 ≤ n) (a : Nat) :
    ∃ t ans, exec (.read a n) s = .next t ∧ PortPrimRan (readChain a n s) .bytes ans s t ∧
      t.w.hdr.toNat = readHdr a s ∧ t.w.status = s.w.status :=
  portPrim_runs (whenIdle_idle hb) (primRead_ok (s := accept .prim s) hf ha hn) (readHdr_lt ha a)

theorem exec_write_runs {s : State} (hb : s.st.busy = false) (hf : s.cfg.finalized = true)
    (ha : s.cfg.aEff.toNat ≤ 9) {data : List Byte} (hd : 1 ≤ data.length) (a : Nat) :
    ∃ t ans, exec (.write a data) s = .next t ∧ PortPrimRan (writeChain a data s) (fun _ => .success) ans s t ∧
      t.w.hdr.toNat = writeHdr a s ∧ t.w.status = s.w.status :=
  portPrim_runs (whenIdle_idle hb) (primWrite_ok (s := accept .prim s) hf ha hd) (writeHdr_lt ha a)

theorem exec_special_runs {s : State} (hb : s.st.busy = false) (hf : s.cfg.finalized = true)
    (ha : s.cfg.aEff.toNat ≤ 9) {opcode : Nat} (ho : opcode < 4) (subcode : Nat) :
    ∃ t ans, exec (.special opcode subcode) s = .next t ∧
      PortPrimRan (specialChain opcode subcode s) (fun _ => .success) ans s t ∧
      t.w.hdr.toNat = specialHdr opcode subcode s ∧ t.w.status = s.w.status :=
  portPrim_runs (whenIdle_idle hb) (primSpecial_ok (s := accept .prim s) hf ha ho) (specialHdr_lt ha ho subcode)

/-- A wrapper is SPECIAL with its subcode parameter (R105, R169 to R171). -/
theorem exec_ewen (s : State) : exec .ewen s = exec (.special opcCtrl s.par.subEwen.toNat) s := rfl

theorem exec_ewds (s : State) : exec .ewds s = exec (.special opcCtrl s.par.subEwds.toNat) s := rfl

theorem exec_eral (s : State) : exec .eral s = exec (.special opcCtrl s.par.subEral.toNat) s := rfl

/-! ### STATUS -/

/-- STATUS needs no profile and leaves the header register (R166). -/
theorem exec_status_runs {s : State} (hb : s.st.busy = false) :
    ∃ t ans, exec .status s = .next t ∧ PortPrimRan chainR (fun rx => .byte (rx.headD 0)) ans s t ∧
      t.w.hdr = s.w.hdr ∧ t.w.status = statusAfter ans s.w.status := by
  refine ⟨_, _, whenIdle_idle hb, portEnd_ran rfl rfl
    (AnswerOf.congr (t := accept .prim s) rfl rfl (answerOf_answerTo _ _)) rfl rfl rfl ⟨rfl, rfl, rfl⟩
    ⟨rfl, rfl, rfl, rfl, fun _ _ => rfl⟩, ?_, ?_⟩
  · rw [portEnd_w]
    rfl
  · rw [portEnd_w]
    rfl

/-! ### The statements -/

/-- Settles O23: `readChain` is R161's two transfers, and an answer has as many bytes as the chain asks for. -/
theorem readRuns : Obligations.ReadRuns := by
  intro a n s hb hf ha hn
  obtain ⟨t, ans, hexec, hran, hhdr, hstatus⟩ := exec_read_runs hb hf ha hn a
  rw [readHdr_eq] at hhdr
  rw [readChain, readHdr_eq] at hran
  obtain ⟨-, ⟨hlen, -⟩, -⟩ := id hran
  refine ⟨t, ans, hexec, hran, fun rx hrx => ?_, hhdr, hstatus⟩
  obtain ⟨hrx, -⟩ := hlen rx hrx
  rwa [rxTotal_chainHR] at hrx

/-- Settles O24: `writeChain` is R161's two transfers. -/
theorem writeRuns : Obligations.WriteRuns := by
  intro a data s hb hf ha hd
  obtain ⟨t, ans, hexec, hran, hhdr, hstatus⟩ := exec_write_runs hb hf ha hd a
  rw [writeHdr_eq] at hhdr
  rw [writeChain, writeHdr_eq] at hran
  exact ⟨t, ans, hexec, hran, hhdr, hstatus⟩

/-- Settles O25: the header value as a sum of the opcode's bits and the subcode's two. -/
theorem specialRuns : Obligations.SpecialRuns := by
  intro opcode subcode s hb hf h4 h9 ho
  obtain ⟨t, ans, hexec, hran, hhdr, hstatus⟩ := exec_special_runs hb hf h9 ho subcode
  have hvalue : specialHdr opcode subcode s = _ := specialHeader_eq (by omega) ho subcode
  rw [hvalue] at hhdr
  rw [specialChain, hvalue] at hran
  exact ⟨t, ans, hexec, hran, hhdr, hstatus⟩

/-- Settles O26: each wrapper is SPECIAL, whose run is `specialRuns`. -/
theorem wrappersRun : Obligations.WrappersRun := by
  intro s hb hf h4 h9 i sub hi
  have hspecial : exec i s = exec (.special 0 sub.toNat) s := by
    rcases hi with ⟨rfl, rfl⟩ | ⟨rfl, rfl⟩ | ⟨rfl, rfl⟩
    · exact exec_ewen s
    · exact exec_ewds s
    · exact exec_eral s
  have hrun := specialRuns 0 sub.toNat s hb hf h4 h9 (by omega)
  rw [Nat.mod_eq_of_lt (toNat_lt_four sub), ← hspecial] at hrun
  exact ⟨hspecial, hrun⟩

/-- Settles O27: an answer to STATUS is one byte, which `W.STATUS` takes. -/
theorem statusRuns : Obligations.StatusRuns := by
  intro s hb
  obtain ⟨t, ans, hexec, hran, hhdr, hstatus⟩ := exec_status_runs hb
  obtain ⟨-, ⟨hlen, -⟩, hok, -⟩ := id hran
  refine ⟨t, ans, hexec, hran, hhdr, fun b hans => ?byte, fun rx hans => ?one, fun k hans => ?failed⟩
  case byte =>
    obtain ⟨-, hres⟩ := hok [b] hans
    rw [hans] at hstatus
    have hready : ready t = true ↔ t.w.status = 0xFF := decide_eq_true_iff
    exact ⟨hres, hstatus, by rw [hready, hstatus]; rfl⟩
  case one => exact List.length_eq_one_iff.1 (hlen rx hans).1
  case failed =>
    rw [hans] at hstatus
    exact hstatus

/-- The chain and the end of a primitive, its registers left out. -/
theorem exists_ran_of_runs {i : Instr} {s : State} {c : Chain} {result : List Byte → ResVal} {v : Nat}
    (h : ∃ t ans, exec i s = .next t ∧ PortPrimRan c result ans s t ∧ t.w.hdr.toNat = v ∧ t.w.status = s.w.status) :
    ∃ t ans, exec i s = .next t ∧ PortPrimRan c result ans s t := by
  obtain ⟨t, ans, hexec, hran, -⟩ := h
  exact ⟨t, ans, hexec, hran⟩

/-- Every well-formed primitive at an idle port, with a profile where it needs one, runs its encoding. -/
theorem exec_runs_encoding {i : Instr} {s : State} {c : Chain} (hb : s.st.busy = false) (hw : wellFormed i = true)
    (hf : needsProfile i = true → s.cfg.finalized = true) (ha : needsProfile i = true → s.cfg.aEff.toNat ≤ 9)
    (hc : encodeChain s.par s.cfg.org16 s.cfg.aEff.toNat i = some c) :
    ∃ t ans, exec i s = .next t ∧ PortPrimRan c (resultOf i) ans s t := by
  have wrapper (sub : BitVec 2) (hf : s.cfg.finalized = true) (ha : s.cfg.aEff.toNat ≤ 9) :=
    exists_ran_of_runs (exec_special_runs hb hf ha (opcode := opcCtrl) (by decide) sub.toNat)
  cases i with
  | read a n => cases hc; exact exists_ran_of_runs (exec_read_runs hb (hf rfl) (ha rfl) (of_decide_eq_true hw) a)
  | write a data => cases hc; exact exists_ran_of_runs (exec_write_runs hb (hf rfl) (ha rfl) (of_decide_eq_true hw) a)
  | special opcode subcode =>
    cases hc
    exact exists_ran_of_runs (exec_special_runs hb (hf rfl) (ha rfl) (of_decide_eq_true hw) subcode)
  | ewen => cases hc; exact wrapper s.par.subEwen (hf rfl) (ha rfl)
  | ewds => cases hc; exact wrapper s.par.subEwds (hf rfl) (ha rfl)
  | eral => cases hc; exact wrapper s.par.subEral (hf rfl) (ha rfl)
  | status =>
    cases hc
    obtain ⟨t, ans, hexec, hran, -⟩ := exec_status_runs hb
    exact ⟨t, ans, hexec, hran⟩
  | encode | finalize | readArray | writeArray | eraseArray => cases hc

/-- Settles O28: the script decides the answer of the one chain that `exec_runs_encoding` gives. -/
theorem primitivesIssueTheirEncoding : Obligations.PrimitivesIssueTheirEncoding := by
  intro i s c rest hb hw hprofile hc
  obtain ⟨t, ans, hexec, hchain, ⟨-, hscriptOk, hscriptFail⟩, hok, hfail, -⟩ :=
    exec_runs_encoding hb hw (fun h => (hprofile h).1) (fun h => (hprofile h).2.2) hc
  refine ⟨fun rx hscript hlen hlimit => ?good, fun k hscript => ?bad⟩
  case good =>
    obtain rfl := hscriptOk rx rest hscript hlen hlimit
    obtain ⟨hended, hres⟩ := hok rx rfl
    exact ⟨t, hexec, hended, hres, hchain⟩
  case bad =>
    obtain rfl := hscriptFail k rest hscript
    obtain ⟨hended, hcause⟩ := hfail k rfl
    exact ⟨t, hexec, hended, hcause, hchain⟩

/-! ### Refusals without a profile -/

theorem headerPrim_notFinalized {opcode dummy v : Nat} {c : Chain} {s : State} (h : s.cfg.finalized = false) :
    headerPrim opcode dummy v c s = .error .notFinalized := if_pos h

/-- A primitive at the port whose precondition fails is refused. -/
theorem portPrim_refused {i : Instr} {s : State} {result : List Byte → ResVal} {out : PrimOut} {r : Refusal}
    (hexec : exec i s = portPrim result out) (hout : out = .error r) : exec i s = .refused r := by
  rw [hexec, hout]
  rfl

/-- Settles O29: the first check of every primitive with a header and of every operation. -/
theorem commandsNeedTheProfile : Obligations.CommandsNeedTheProfile := by
  intro i s hi hb hf
  cases i with
  | read a n => exact portPrim_refused (whenIdle_idle hb) (if_pos hf)
  | write a data => exact portPrim_refused (whenIdle_idle hb) (if_pos hf)
  | special opcode subcode => exact portPrim_refused (whenIdle_idle hb) (headerPrim_notFinalized hf)
  | ewen => exact portPrim_refused (whenIdle_idle hb) (headerPrim_notFinalized hf)
  | ewds => exact portPrim_refused (whenIdle_idle hb) (headerPrim_notFinalized hf)
  | eral => exact portPrim_refused (whenIdle_idle hb) (headerPrim_notFinalized hf)
  | readArray burst => exact (whenIdle_idle hb).trans (if_pos hf)
  | writeArray => exact (whenIdle_idle hb).trans (if_pos hf)
  | eraseArray => exact (whenIdle_idle hb).trans (if_pos hf)
  | encode | status | finalize => cases hi

/-! ### Addresses -/

/-- READ sees its address through the header value only. -/
theorem exec_read_congr {a a' : Nat} {s : State} (h : readHdr a' s = readHdr a s) (n : Nat) :
    exec (.read a' n) s = exec (.read a n) s := by
  have haccept : readHdr a' (accept .prim s) = readHdr a (accept .prim s) := h
  simp only [exec, execRead, primRead, readChain, haccept]

theorem exec_write_congr {a a' : Nat} {s : State} (h : writeHdr a' s = writeHdr a s) (data : List Byte) :
    exec (.write a' data) s = exec (.write a data) s := by
  have haccept : writeHdr a' (accept .prim s) = writeHdr a (accept .prim s) := h
  simp only [exec, execWrite, primWrite, writeChain, haccept]

theorem unitOf_x8 (p : Params) (a : Nat) : unitOf p false a = a := by simp [unitOf]

theorem readPayloadOf_x8 {p : Params} (h : p.readPreshift = false) (a : Nat) : readPayloadOf p false a = a := by
  simp [readPayloadOf, h, unitOf_x8]

/-- Settles O31: a multiple of the payload field's size leaves the header value, and with it the command. -/
theorem addressesWrapSilently : Obligations.AddressesWrapSilently := by
  refine fun a k n data s horg => ⟨fun hshift => exec_read_congr ?read n, exec_write_congr ?write data⟩
  case read => simp only [readHdr_eq, horg, readPayloadOf_x8 hshift, headerValue_add_mul]
  case write => simp only [writeHdr_eq, horg, unitOf_x8, headerValue_add_mul]

end Sys2Proof.Machine
end

section
/-! PROOFS. The command port and the reset input (R23, R47, R270 to R272), and the operations as accepted at the port
(R190 to R206). -/

namespace Sys2Proof.Machine

open Sys2Proof Config

/-! ### The reset input -/

/-- Settles O10: the fields of one closed state. -/
theorem resetStateHoldsTheStatedValues : Obligations.ResetStateHoldsTheStatedValues :=
  ⟨rfl, rfl, rfl, rfl, rfl, rfl, rfl, rfl, rfl, rfl, rfl, rfl, rfl⟩

theorem step_reset_idle {s : State} (hr : s.resetIn = true) (hb : s.st.busy = false) :
    step s = .next (applyReset s) := by
  rw [step_reset hr, resetStep, if_neg (by simp [hb])]

/-- The free value of `W.STATUS` is one of 255 bytes, `0xFF` not among them (R47). -/
theorem applyReset_w_status_ne (s : State) : (applyReset s).w.status ≠ 0xFF := by
  intro h
  have hval : (Config.unspecStatus s.nonce).val % 256 = 255 := congrArg BitVec.toNat h
  omega

/-- Settles O11: each field is one rule of the reset. -/
theorem resetInputSetsTheListedState : Obligations.ResetInputSetsTheListedState := fun s hr hb =>
  ⟨_, step_reset_idle hr hb, applyReset_cfg_finalized s, applyReset_st_busy s, applyReset_st_done s,
    applyReset_st_cond s, applyReset_st_imgValid s, applyReset_w_addr s, applyReset_w_idx s, applyReset_w_pollCnt s,
    applyReset_w_status_ne s, applyReset_orchState s, applyReset_orchOp s, applyReset_pins s, applyReset_img s,
    applyReset_imgLen s, applyReset_script s, applyReset_busLog s, applyReset_par s, applyReset_host s⟩

/-- Settles O12: the reset input is looked at first, and refused while busy. -/
theorem resetWhileBusyIsRefused : Obligations.ResetWhileBusyIsRefused := by
  intro s hr hb
  rw [step_reset hr, resetStep, if_pos hb]

/-! ### The host's next action -/

theorem step_wait {s : State} (hr : s.resetIn = false) (hb : s.st.busy = false) (hh : s.host = []) :
    step s = .next s := by
  simp [step, hr, hb, hh]

theorem step_command {s : State} {i : Instr} {rest : List HostAct} (hr : s.resetIn = false) (hb : s.st.busy = false)
    (hh : s.host = .command i :: rest) : step s = exec i (popHost s) := by
  simp [step, hr, hb, hh]

theorem step_image {s : State} {bs : List Byte} {rest : List HostAct} (hr : s.resetIn = false)
    (hb : s.st.busy = false) (hh : s.host = .image bs :: rest) : step s = .next (loadImage bs (popHost s)) := by
  simp [step, hr, hb, hh]

theorem popHost_eq {s : State} {a : HostAct} {rest : List HostAct} (hh : s.host = a :: rest) :
    popHost s = { s with host := rest } := by
  rw [popHost, hh, List.tail_cons]

/-- A presented command is the one the next step runs, at the state it was presented in (R23). -/
theorem step_presentCommand (i : Instr) (s : State) :
    step (presentCommand i s) = exec i (popHost (presentCommand i s)) :=
  step_command rfl rfl rfl

/-- Settles O13: a command of the host's list, and a table word presented with the profile of its row or without one. -/
theorem stepRunsThePresentedCommand : Obligations.StepRunsThePresentedCommand := by
  refine ⟨fun s i rest hr hb hh => ?listed, fun s nbits w i hword => ?word⟩
  case listed => rw [step_command hr hb hh, popHost_eq hh]
  case word =>
    obtain ⟨⟨j, row⟩, hrow, rfl⟩ := Option.map_eq_some_iff.1 hword
    rw [State.withFetchWord, presentWord, hrow]
    cases row with
    | none => exact ⟨_, step_presentCommand j s, rfl, rfl, rfl, rfl⟩
    | some aEff => exact ⟨_, step_command rfl rfl rfl, rfl, rfl, rfl, rfl⟩

/-- Settles O15: an empty list leaves the state, an image becomes `IMG`. -/
theorem idleWaitsForTheHost : Obligations.IdleWaitsForTheHost := by
  refine ⟨fun s hr hb hh => step_wait hr hb hh, fun s bs rest hr hb hh => ?image⟩
  have hrest : (popHost s).host = rest := by rw [popHost_host, hh, List.tail_cons]
  exact ⟨_, step_image hr hb hh, image_loadImage bs (popHost s), rfl, hrest, rfl, rfl, rfl, rfl⟩

/-! ### The operations at the port -/

/-- Past their two refusals, READ_ARRAY compares the image's length (R192). -/
theorem exec_readArray_idle {s : State} (hb : s.st.busy = false) (hf : s.cfg.finalized = true)
    (hw : wordSize s ≤ s.cfg.sizeBytes) (burst : Bool) :
    exec (.readArray burst) s =
      if s.imgLen ≠ s.cfg.sizeBytes then .next (raiseBare .imageSizeMismatch (setImgValid false (accept .read s)))
      else .next (readStarted burst s) :=
  (whenIdle_idle hb).trans ((if_neg (by simp [hf])).trans (if_neg (Nat.not_lt.2 hw)))

theorem exec_writeArray_idle {s : State} (hb : s.st.busy = false) (hf : s.cfg.finalized = true)
    (hw : wordSize s ≤ s.cfg.sizeBytes) :
    exec .writeArray s =
      if s.imgLen ≠ s.cfg.sizeBytes then .next (raiseBare .imageSizeMismatch (accept .write s))
      else .next (goto .enabling (accept .write s)) :=
  (whenIdle_idle hb).trans ((if_neg (by simp [hf])).trans (if_neg (Nat.not_lt.2 hw)))

/-- READ_ARRAY accepted: Reading from byte offset 0 (R193). -/
theorem exec_readArray_starts {s : State} (hb : s.st.busy = false) (hf : s.cfg.finalized = true)
    (hw : wordSize s ≤ s.cfg.sizeBytes) (hl : s.imgLen = s.cfg.sizeBytes) (burst : Bool) :
    exec (.readArray burst) s = .next (readStarted burst s) :=
  (exec_readArray_idle hb hf hw burst).trans (if_neg (not_not.2 hl))

theorem exec_writeArray_starts {s : State} (hb : s.st.busy = false) (hf : s.cfg.finalized = true)
    (hw : wordSize s ≤ s.cfg.sizeBytes) (hl : s.imgLen = s.cfg.sizeBytes) :
    exec .writeArray s = .next (goto .enabling (accept .write s)) :=
  (exec_writeArray_idle hb hf hw).trans (if_neg (not_not.2 hl))

theorem exec_eraseArray_starts {s : State} (hb : s.st.busy = false) (hf : s.cfg.finalized = true) :
    exec .eraseArray s = .next (goto .enabling (accept .erase s)) :=
  (whenIdle_idle hb).trans (if_neg (by simp [hf]))

/-- Settles O33: the started state, field by field. -/
theorem readArrayStartsReading : Obligations.ReadArrayStartsReading := fun burst _ hb hf hw hl =>
  ⟨_, exec_readArray_starts hb hf hw hl burst, rfl, rfl, rfl, rfl, rfl, rfl, rfl, rfl, rfl, rfl, rfl, rfl, rfl,
    ⟨rfl, rfl⟩, ⟨rfl, rfl, rfl, rfl, fun _ _ => rfl⟩⟩

/-- Settles O34: both operations start in Enabling. -/
theorem writeAndEraseStartEnabling : Obligations.WriteAndEraseStartEnabling := by
  intro s hb hf i op hi
  rcases hi with ⟨rfl, rfl, hw, hl⟩ | ⟨rfl, rfl⟩
  · exact ⟨_, exec_writeArray_starts hb hf hw hl, rfl, rfl, rfl, rfl, rfl, rfl, ⟨rfl, rfl⟩, ⟨rfl, rfl⟩,
      ⟨rfl, rfl, rfl, rfl, fun _ _ => rfl⟩⟩
  · exact ⟨_, exec_eraseArray_starts hb hf, rfl, rfl, rfl, rfl, rfl, rfl, ⟨rfl, rfl⟩, ⟨rfl, rfl⟩,
      ⟨rfl, rfl, rfl, rfl, fun _ _ => rfl⟩⟩

/-- Settles O35: the comparison fails after acceptance and before any transition. -/
theorem wrongImageLengthIsMismatch : Obligations.WrongImageLengthIsMismatch := by
  refine fun s hb hf hw hl => ⟨fun burst => ?read, ?write⟩
  case read =>
    exact ⟨_, (exec_readArray_idle hb hf hw burst).trans (if_pos hl), ⟨rfl, rfl, rfl, rfl, rfl⟩, rfl, rfl, rfl,
      ⟨rfl, rfl⟩, ⟨rfl, rfl, rfl, rfl, fun _ _ => rfl⟩⟩
  case write =>
    exact ⟨_, (exec_writeArray_idle hb hf hw).trans (if_pos hl), ⟨rfl, rfl, rfl, rfl, rfl⟩, ⟨rfl, rfl⟩, rfl,
      ⟨rfl, rfl⟩, ⟨rfl, rfl, rfl, rfl, fun _ _ => rfl⟩⟩

/-- Settles O36: the size is compared with the word size before the image's length is looked at (log entry 15). -/
theorem sizeBelowWordIsRefused : Obligations.SizeBelowWordIsRefused := fun _ hb hf hw =>
  ⟨fun _ => (whenIdle_idle hb).trans ((if_neg (by simp [hf])).trans (if_pos hw)),
    (whenIdle_idle hb).trans ((if_neg (by simp [hf])).trans (if_pos hw))⟩

end Sys2Proof.Machine
end

section
/-! PROOFS. The rows of R208 as equations: in a legal state of each row, what the step is when the row's chain is
answered and when it fails. -/

namespace Sys2Proof.Machine

open Sys2Proof Config

/-! ### A chain of an operation -/

/-- The state after the chain `c` of a primitive that has written `W.HDR`; `orchPrim_header_ok` and
`orchPrim_header_fail` tie it to the model. -/
def headerSent (v : Nat) (c : Chain) (s : State) : State := afterChain c (setHdr v s)

theorem headerSent_hdr_toNat {v : Nat} (h : v < 65536) (c : Chain) (s : State) :
    (headerSent v c s).w.hdr.toNat = v := by
  simpa [headerSent] using h

theorem orchPrim_header_ok {c : Chain} {v : Nat} {s : State} {rx : List Byte} (h : answerTo c s = .ok rx)
    (next : List Byte → State → Host.Outcome State Fault Refusal) :
    orchPrim (.ok (bus c (setHdr v s))) next = next rx (headerSent v c s) := orchPrim_ok (u := setHdr v s) h

theorem orchPrim_header_fail {c : Chain} {v : Nat} {s : State} {k : Cause} (h : answerTo c s = .fail k)
    (next : List Byte → State → Host.Outcome State Fault Refusal) :
    orchPrim (.ok (bus c (setHdr v s))) next = .next (raise .transferFailed k (headerSent v c s)) :=
  orchPrim_fail (u := setHdr v s) h

/-- A good answer to a chain has the bytes the chain asks for (R256). -/
theorem answerTo_length {c : Chain} {s : State} {rx : List Byte} (h : answerTo c s = .ok rx) :
    rx.length = rxTotal c := ((answerOf_answerTo c s).1 rx h).1

theorem answerOf_of_eq {c : Chain} {s : State} {a : BusAnswer} (h : answerTo c s = a) : AnswerOf c s a :=
  h ▸ answerOf_answerTo c s

/-! ### The row of a state -/

theorem advance_reading {s : State} (hq : s.orchState = .reading) : advance s = advReading s := by
  rw [advance, hq]

theorem advance_enabling {s : State} (hq : s.orchState = .enabling) : advance s = advEnabling s := by
  rw [advance, hq]

theorem advance_writing {s : State} (hq : s.orchState = .writing) : advance s = advWriting s := by
  rw [advance, hq]

theorem advance_waitingReady {s : State} (hq : s.orchState = .waitingReady) : advance s = advWaiting s := by
  rw [advance, hq]

theorem advance_erasing {s : State} (hq : s.orchState = .erasing) : advance s = advErasing s := by
  rw [advance, hq]

/-! ### The primitives of the rows run -/

/-- `STEP` is at least one byte (R9). -/
theorem stepLen_pos {s : State} (h : wordSize s ≤ s.cfg.sizeBytes) : 1 ≤ stepLen s := by
  have hword := wordSize_pos s
  unfold stepLen
  split <;> omega

theorem primRead_of_reading {s : State} (hs : s.Inv) (hq : s.orchState = .reading) :
    primRead s.w.addr (stepLen s) s =
      .ok (bus (readChain s.w.addr (stepLen s) s) (setHdr (readHdr s.w.addr s) s)) := by
  obtain ⟨-, -, hf, -, hw, -⟩ := (orchLegal_reading hq).1 hs.orch
  exact primRead_ok hf (hs.aEff_range hf).2 (stepLen_pos hw)

/-- A wrapper's chain under a finalized legal profile. -/
theorem primWrapper_of_finalized {s : State} (hs : s.Inv) (hf : s.cfg.finalized = true) (sub : BitVec 2) :
    primSpecial opcCtrl sub.toNat s =
      .ok (bus (specialChain opcCtrl sub.toNat s) (setHdr (specialHdr opcCtrl sub.toNat s) s)) :=
  primSpecial_ok hf (hs.aEff_range hf).2 (by decide)

/-- The state Reading has when the bytes `rx` are stored and `W.ADDR` not yet advanced. -/
def stored (rx : List Byte) (s : State) : State :=
  { headerSent (readHdr s.w.addr s) (readChain s.w.addr (stepLen s) s) s with img := writeBytes s.img s.w.addr rx }

/-- The bytes of the word `W.IDX` names (R199). -/
def wordBytes (s : State) : List Byte := readBytes s.img (s.w.idx * wordSize s) (wordSize s)

theorem wordBytes_pos (s : State) : 1 ≤ (wordBytes s).length := by
  simpa [wordBytes] using wordSize_pos s

/-- The state in which the row Writing sends its word: `W.ADDR` at the word's byte offset. -/
def atWord (s : State) : State := setAddr (s.w.idx * wordSize s) s

/-- The word of a legal Writing state is read inside `IMG`, and its WRITE runs (R199). -/
theorem advWriting_of_writing {s : State} (hs : s.Inv) (hq : s.orchState = .writing) :
    advWriting s =
      orchPrim (.ok (bus (writeChain (s.w.idx * wordSize s) (wordBytes s) s)
          (setHdr (writeHdr (s.w.idx * wordSize s) s) (atWord s))))
        (fun _ u => .next (goto .waitingReady (setPollCnt 0 u))) := by
  obtain ⟨-, -, hf, hl, hidx, -, -⟩ := (orchLegal_writing hq).1 hs.orch
  have hinside := word_inside hidx
  have hread : memRead (s.w.idx * wordSize s) (wordSize s) (atWord s) = some (wordBytes s) :=
    memRead_of_le (s := atWord s) (by show _ ≤ s.imgLen; omega)
  have hwrite := primWrite_ok (a := s.w.idx * wordSize s) (s := atWord s) hf (hs.aEff_range hf).2 (wordBytes_pos s)
  show (match memRead (s.w.idx * wordSize s) (wordSize s) (atWord s) with | none => _ | some data => _) = _
  rw [hread]
  exact congrArg (orchPrim · _) hwrite

/-! ### The step in each row -/

section Rows

variable {s : State} (hs : s.Inv) (hr : s.resetIn = false)

include hs hr

/-- The step of a legal state in a row is its transition. -/
theorem step_of_row {out : Host.Outcome State Fault Refusal} (hq : s.orchState ≠ .idle) (h : advance s = out) :
    step s = out := (step_busy hr (hs.busy hq)).trans h

/-- Reading, answered: the bytes are inside `IMG` and stored at `W.ADDR` (R193). -/
theorem step_reading_ok (hq : s.orchState = .reading) {rx : List Byte}
    (ha : answerTo (readChain s.w.addr (stepLen s) s) s = .ok rx) :
    step s = .next (afterStore (stored rx s)) := by
  obtain ⟨-, -, -, hl, -, hfit, -⟩ := (orchLegal_reading hq).1 hs.orch
  have hlen := answerTo_length ha
  rw [readChain, rxTotal_chainHR] at hlen
  refine step_of_row hs hr (by simp [hq]) ((advance_reading hq).trans ?_)
  rw [advReading, primRead_of_reading hs hq, orchPrim_header_ok ha, memWrite_of_le]
  · rfl
  · show s.w.addr + rx.length ≤ s.imgLen
    omega

theorem step_reading_fail (hq : s.orchState = .reading) {k : Cause}
    (ha : answerTo (readChain s.w.addr (stepLen s) s) s = .fail k) :
    step s = .next (raise .transferFailed k
      (headerSent (readHdr s.w.addr s) (readChain s.w.addr (stepLen s) s) s)) := by
  refine step_of_row hs hr (by simp [hq]) ((advance_reading hq).trans ?_)
  rw [advReading, primRead_of_reading hs hq, orchPrim_header_fail ha]

/-- Enabling, answered: on to the first word of a write (R198). -/
theorem step_enabling_write (hq : s.orchState = .enabling) (hop : s.orchOp = .write) {rx : List Byte}
    (ha : answerTo (specialChain opcCtrl s.par.subEwen.toNat s) s = .ok rx) :
    step s = .next (goto .writing (setIdx 0 (headerSent (specialHdr opcCtrl s.par.subEwen.toNat s)
      (specialChain opcCtrl s.par.subEwen.toNat s) s))) := by
  obtain ⟨-, hf, -⟩ := (orchLegal_enabling hq).1 hs.orch
  refine step_of_row hs hr (by simp [hq]) ((advance_enabling hq).trans ?_)
  rw [advEnabling, hop]
  show orchPrim (primSpecial opcCtrl s.par.subEwen.toNat s) _ = _
  rw [primWrapper_of_finalized hs hf, orchPrim_header_ok ha]

/-- Enabling, answered: on to the erasure (R206). -/
theorem step_enabling_erase (hq : s.orchState = .enabling) (hop : s.orchOp = .erase) {rx : List Byte}
    (ha : answerTo (specialChain opcCtrl s.par.subEwen.toNat s) s = .ok rx) :
    step s = .next (goto .erasing (headerSent (specialHdr opcCtrl s.par.subEwen.toNat s)
      (specialChain opcCtrl s.par.subEwen.toNat s) s)) := by
  obtain ⟨-, hf, -⟩ := (orchLegal_enabling hq).1 hs.orch
  refine step_of_row hs hr (by simp [hq]) ((advance_enabling hq).trans ?_)
  rw [advEnabling, hop]
  show orchPrim (primSpecial opcCtrl s.par.subEwen.toNat s) _ = _
  rw [primWrapper_of_finalized hs hf, orchPrim_header_ok ha]

theorem step_enabling_fail (hq : s.orchState = .enabling) {k : Cause}
    (ha : answerTo (specialChain opcCtrl s.par.subEwen.toNat s) s = .fail k) :
    step s = .next (raise .transferFailed k (headerSent (specialHdr opcCtrl s.par.subEwen.toNat s)
      (specialChain opcCtrl s.par.subEwen.toNat s) s)) := by
  obtain ⟨-, hf, -, -, hop⟩ := (orchLegal_enabling hq).1 hs.orch
  have hrun (next : List Byte → State → Host.Outcome State Fault Refusal) :
      orchPrim (primEwen s) next = .next (raise .transferFailed k
        (headerSent (specialHdr opcCtrl s.par.subEwen.toNat s) (specialChain opcCtrl s.par.subEwen.toNat s) s)) := by
    rw [primEwen, primWrapper_of_finalized hs hf, orchPrim_header_fail ha]
  refine step_of_row hs hr (by simp [hq]) ((advance_enabling hq).trans ?_)
  rcases hop with hop | ⟨hop, -⟩ <;> rw [advEnabling, hop] <;> exact hrun _

/-- Writing, answered: the word waits for its first poll (R199). -/
theorem step_writing_ok (hq : s.orchState = .writing) {rx : List Byte}
    (ha : answerTo (writeChain (s.w.idx * wordSize s) (wordBytes s) s) s = .ok rx) :
    step s = .next (goto .waitingReady (setPollCnt 0 (headerSent (writeHdr (s.w.idx * wordSize s) s)
      (writeChain (s.w.idx * wordSize s) (wordBytes s) s) (atWord s)))) := by
  refine step_of_row hs hr (by simp [hq]) ((advance_writing hq).trans ?_)
  rw [advWriting_of_writing hs hq, orchPrim_header_ok (s := atWord s) ha]

theorem step_writing_fail (hq : s.orchState = .writing) {k : Cause}
    (ha : answerTo (writeChain (s.w.idx * wordSize s) (wordBytes s) s) s = .fail k) :
    step s = .next (raise .transferFailed k (headerSent (writeHdr (s.w.idx * wordSize s) s)
      (writeChain (s.w.idx * wordSize s) (wordBytes s) s) (atWord s))) := by
  refine step_of_row hs hr (by simp [hq]) ((advance_writing hq).trans ?_)
  rw [advWriting_of_writing hs hq, orchPrim_header_fail (s := atWord s) ha]

/-- WaitingReady: one turn of the poll loop, at whose end a word is done (R200). -/
theorem step_waitingReady (hq : s.orchState = .waitingReady) : step s = .next (pollTurn wordDone s) :=
  step_of_row hs hr (by simp [hq]) (advance_waitingReady hq)

/-- Erasing, polling: one turn of the poll loop, at whose end the command is done (R207). -/
theorem step_erasing_polling (hq : s.orchState = .erasing) (hp : s.erasePolling = true) :
    step s = .next (pollTurn finish s) :=
  step_of_row hs hr (by simp [hq]) ((advance_erasing hq).trans (if_pos hp))

/-- Erasing, ERAL answered: the end, or the start of the poll loop (R206, R207). -/
theorem step_erasing_ok (hq : s.orchState = .erasing) (hp : s.erasePolling = false) {rx : List Byte}
    (ha : answerTo (specialChain opcCtrl s.par.subEral.toNat s) s = .ok rx) :
    step s = .next (if s.par.erasePoll then
        { setPollCnt 0 (headerSent (specialHdr opcCtrl s.par.subEral.toNat s)
          (specialChain opcCtrl s.par.subEral.toNat s) s) with erasePolling := true }
      else finish (headerSent (specialHdr opcCtrl s.par.subEral.toNat s)
        (specialChain opcCtrl s.par.subEral.toNat s) s)) := by
  obtain ⟨-, -, hf, -⟩ := (orchLegal_erasing hq).1 hs.orch
  refine step_of_row hs hr (by simp [hq]) ((advance_erasing hq).trans ((if_neg (by simp [hp])).trans ?_))
  rw [primEral, primWrapper_of_finalized hs hf, orchPrim_header_ok ha]
  exact (apply_ite Host.Outcome.next _ _ _).symm

theorem step_erasing_fail (hq : s.orchState = .erasing) (hp : s.erasePolling = false) {k : Cause}
    (ha : answerTo (specialChain opcCtrl s.par.subEral.toNat s) s = .fail k) :
    step s = .next (raise .transferFailed k (headerSent (specialHdr opcCtrl s.par.subEral.toNat s)
      (specialChain opcCtrl s.par.subEral.toNat s) s)) := by
  obtain ⟨-, -, hf, -⟩ := (orchLegal_erasing hq).1 hs.orch
  refine step_of_row hs hr (by simp [hq]) ((advance_erasing hq).trans ((if_neg (by simp [hp])).trans ?_))
  rw [primEral, primWrapper_of_finalized hs hf, orchPrim_header_fail ha]

end Rows

end Sys2Proof.Machine
end

section
/-! PROOFS. The statements about the rows of R208, each by the two ways its chain can be answered, and that a legal
state always has its row's transition. -/

namespace Sys2Proof.Machine

open Sys2Proof Config

/-! ### The ends and frames of a transition -/

/-- The abort of a failed chain (R191, R245). -/
theorem raise_transferFailed_ended (k : Cause) (u : State) :
    EndedWith .transferFailed (raise .transferFailed k u) ∧ (raise .transferFailed k u).st.cause = k :=
  ⟨⟨rfl, rfl, rfl, rfl, rfl⟩, rfl⟩

theorem finish_endedWell {u : State} (h : u.st.cond = .none) : EndedWell (finish u) := ⟨rfl, rfl, h, rfl, rfl⟩

theorem oneChain_of_answer {c : Chain} {a : BusAnswer} {s t : State} (ha : answerTo c s = a)
    (hlog : t.busLog = { chain := c, answer := answerTo c s } :: s.busLog) (hscript : t.script = s.script.tail) :
    OneChain c a s t := ⟨by rw [hlog, ha], hscript⟩

/-- A state with the same image and surroundings keeps them. -/
theorem keepsSurroundings_of_img {s t : State} (hpar : t.par = s.par) (hreset : t.resetIn = s.resetIn)
    (hhost : t.host = s.host) (hlen : t.imgLen = s.imgLen) (himg : t.img = s.img) : KeepsSurroundings noByte s t :=
  ⟨hpar, hreset, hhost, hlen, fun _ _ => by rw [himg]⟩

/-- A step's store moves `W.ADDR` and no other working register. -/
theorem afterStore_w (s : State) :
    (afterStore s).w.addr = s.w.addr + stepLen s ∧ (afterStore s).w.idx = s.w.idx ∧
      (afterStore s).w.hdr = s.w.hdr ∧ (afterStore s).w.status = s.w.status ∧
      (afterStore s).w.pollCnt = s.w.pollCnt := by
  unfold afterStore
  simp only
  split <;> exact ⟨rfl, rfl, rfl, rfl, rfl⟩

/-- A word acknowledged moves `W.IDX` and no other working register, and leaves `ST.IMG_VALID`. -/
theorem wordDone_w (s : State) :
    (wordDone s).w.addr = s.w.addr ∧ (wordDone s).w.idx = s.w.idx + 1 ∧ (wordDone s).w.hdr = s.w.hdr ∧
      (wordDone s).w.status = s.w.status ∧ (wordDone s).w.pollCnt = s.w.pollCnt := by
  unfold wordDone
  simp only
  split <;> exact ⟨rfl, rfl, rfl, rfl, rfl⟩

theorem wordDone_imgValid (s : State) : (wordDone s).st.imgValid = s.st.imgValid := by
  unfold wordDone
  simp only
  split <;> rfl

/-! ### Reading -/

/-- Settles O37: answered, the stored range and the rest of `IMG` are `readByte_writeBytes`; failed, nothing is
stored. -/
theorem readingTransition : Obligations.ReadingTransition := by
  intro s hs hr hq
  simp only [← readHdr_eq]
  obtain ⟨hb, -, hf, -, -, -, -, hv, -⟩ := (orchLegal_reading hq).1 hs.orch
  have hcond := (hs.busyClear hb).2
  have hhdr := headerSent_hdr_toNat (readHdr_lt (hs.aEff_range hf).2 s.w.addr) (readChain s.w.addr (stepLen s) s) s
  cases ha : answerTo (readChain s.w.addr (stepLen s) s) s with
  | ok rx =>
    have hlen : rx.length = stepLen s := by simpa [readChain] using answerTo_length ha
    have hbyte := readByte_writeBytes hs.imgWf s.w.addr rx
    obtain ⟨hhost, hcfg, hlen', hpar, hreset, hlog, hscript, himg⟩ := afterStore_keeps (stored rx s)
    obtain ⟨haddr, hidx, hreg, hstatus, hcnt⟩ := afterStore_w (stored rx s)
    refine ⟨_, .ok rx, step_reading_ok hs hr hq ha, oneChain_of_answer ha hlog hscript, answerOf_of_eq ha, hcfg,
      (congrArg BitVec.toNat hreg).trans hhdr, hidx, hcnt, hstatus, ?answered, (fun k hk => nomatch hk)⟩
    rintro rx' ⟨⟩
    refine ⟨haddr, fun k hk => ?inside, ⟨hpar, hreset, hhost, hlen', fun x hx => ?outside⟩,
      fun hmore => ?more, fun hend => ?done⟩
    case inside =>
      refine (congrArg (readByte · (s.w.addr + k)) himg).trans ?_
      refine (hbyte _).trans ?_
      simp [hk]
    case outside =>
      refine (congrArg (readByte · x) himg).trans ?_
      refine (hbyte x).trans (dif_neg ?_)
      rwa [hlen]
    case more =>
      rw [afterStore_below (s := stored rx s) hmore]
      exact ⟨hq, rfl, rfl⟩
    case done =>
      rw [afterStore_end (s := stored rx s) hend]
      exact ⟨finish_endedWell hcond, rfl⟩
  | fail k =>
    refine ⟨_, .fail k, step_reading_fail hs hr hq ha, oneChain_of_answer ha rfl rfl, answerOf_of_eq ha, rfl, hhdr,
      rfl, rfl, rfl, (fun rx hrx => nomatch hrx), ?failed⟩
    rintro k' ⟨⟩
    obtain ⟨hended, hcause⟩ := raise_transferFailed_ended k _
    exact ⟨hended, hcause, hv, rfl, keepsSurroundings_of_img rfl rfl rfl rfl rfl⟩

/-! ### Enabling, Writing, Erasing -/

/-- Settles O38: the operation decides where an answered EWEN leads. -/
theorem enablingTransition : Obligations.EnablingTransition := by
  intro s hs hr hq
  obtain ⟨-, hf, -, -, hop⟩ := (orchLegal_enabling hq).1 hs.orch
  simp only [← specialChain_control (hs.aEff_range hf).1]
  have hsur {t : State} := keepsSurroundings_of_img (s := s) (t := t)
  cases ha : answerTo (specialChain 0 s.par.subEwen.toNat s) s with
  | ok rx =>
    rcases hop with herase | ⟨hwrite, -⟩
    · refine ⟨_, .ok rx, step_enabling_erase hs hr hq herase ha, oneChain_of_answer ha rfl rfl, answerOf_of_eq ha,
        ⟨rfl, rfl⟩, hsur rfl rfl rfl rfl rfl, rfl, rfl, rfl, fun rx' hrx => ⟨rfl, rfl, fun hwrite => ?_, fun _ => ?_⟩,
        (fun k hk => nomatch hk)⟩
      · exact absurd (herase.symm.trans hwrite) (by decide)
      · exact ⟨rfl, rfl⟩
    · refine ⟨_, .ok rx, step_enabling_write hs hr hq hwrite ha, oneChain_of_answer ha rfl rfl, answerOf_of_eq ha,
        ⟨rfl, rfl⟩, hsur rfl rfl rfl rfl rfl, rfl, rfl, rfl, fun rx' hrx => ⟨rfl, rfl, fun _ => ?_, fun herase => ?_⟩,
        (fun k hk => nomatch hk)⟩
      · exact ⟨rfl, rfl⟩
      · exact absurd (hwrite.symm.trans herase) (by decide)
  | fail k =>
    refine ⟨_, .fail k, step_enabling_fail hs hr hq ha, oneChain_of_answer ha rfl rfl, answerOf_of_eq ha, ⟨rfl, rfl⟩,
      hsur rfl rfl rfl rfl rfl, rfl, rfl, rfl, (fun rx hrx => nomatch hrx), ?failed⟩
    rintro k' ⟨⟩
    obtain ⟨hended, hcause⟩ := raise_transferFailed_ended k _
    exact ⟨hended, hcause, rfl⟩

/-- Settles O39: the chain carries the word's bytes of `IMG`; `W.ADDR` is written before it is sent. -/
theorem writingTransition : Obligations.WritingTransition := by
  intro s hs hr hq
  obtain ⟨-, -, hf, -⟩ := (orchLegal_writing hq).1 hs.orch
  simp only [← writeHdr_eq, ← readBytes_eq_map]
  have hhdr := headerSent_hdr_toNat (writeHdr_lt (hs.aEff_range hf).2 (s.w.idx * wordSize s))
    (writeChain (s.w.idx * wordSize s) (wordBytes s) s) (atWord s)
  have hsur {t : State} := keepsSurroundings_of_img (s := s) (t := t)
  cases ha : answerTo (writeChain (s.w.idx * wordSize s) (wordBytes s) s) s with
  | ok rx =>
    exact ⟨_, .ok rx, step_writing_ok hs hr hq ha, oneChain_of_answer ha rfl rfl, answerOf_of_eq ha, ⟨rfl, rfl⟩,
      hsur rfl rfl rfl rfl rfl, rfl, rfl, hhdr, rfl, fun _ _ => ⟨rfl, rfl, rfl, rfl⟩, (fun k hk => nomatch hk)⟩
  | fail k =>
    refine ⟨_, .fail k, step_writing_fail hs hr hq ha, oneChain_of_answer ha rfl rfl, answerOf_of_eq ha, ⟨rfl, rfl⟩,
      hsur rfl rfl rfl rfl rfl, rfl, rfl, hhdr, rfl, (fun rx hrx => nomatch hrx), ?failed⟩
    rintro k' ⟨⟩
    obtain ⟨hended, hcause⟩ := raise_transferFailed_ended k _
    exact ⟨hended, hcause, rfl⟩

/-- Settles O42: `ERASE_POLL` decides where an answered ERAL leads. -/
theorem erasingTransition : Obligations.ErasingTransition := by
  intro s hs hr hq hp
  obtain ⟨hb, -, hf, -⟩ := (orchLegal_erasing hq).1 hs.orch
  have hcond := (hs.busyClear hb).2
  simp only [← specialChain_control (hs.aEff_range hf).1]
  have hsur {t : State} := keepsSurroundings_of_img (s := s) (t := t)
  cases ha : answerTo (specialChain 0 s.par.subEral.toNat s) s with
  | ok rx =>
    have hstep := step_erasing_ok hs hr hq hp ha
    cases hpoll : s.par.erasePoll with
    | false =>
      rw [hpoll, if_neg (by simp)] at hstep
      exact ⟨_, .ok rx, hstep, oneChain_of_answer ha rfl rfl, answerOf_of_eq ha, ⟨rfl, rfl⟩,
        hsur rfl rfl rfl rfl rfl, rfl, rfl, rfl,
        fun _ _ => ⟨fun _ => ⟨finish_endedWell hcond, rfl⟩, (fun h => nomatch h)⟩, (fun k hk => nomatch hk)⟩
    | true =>
      rw [hpoll, if_pos rfl] at hstep
      exact ⟨_, .ok rx, hstep, oneChain_of_answer ha rfl rfl, answerOf_of_eq ha, ⟨rfl, rfl⟩,
        hsur rfl rfl rfl rfl rfl, rfl, rfl, rfl,
        fun _ _ => ⟨(fun h => nomatch h), fun _ => ⟨hq, rfl, rfl, rfl⟩⟩, (fun k hk => nomatch hk)⟩
  | fail k =>
    refine ⟨_, .fail k, step_erasing_fail hs hr hq hp ha, oneChain_of_answer ha rfl rfl, answerOf_of_eq ha, ⟨rfl, rfl⟩,
      hsur rfl rfl rfl rfl rfl, rfl, rfl, rfl, (fun rx hrx => nomatch hrx), ?failed⟩
    rintro k' ⟨⟩
    exact raise_transferFailed_ended k _

/-! ### The poll loops -/

/-- Settles O41: at the bound both loops take the one turn that issues no chain. -/
theorem pollBoundRaisesTimedOut : Obligations.PollBoundRaisesTimedOut := by
  intro s hb hr hbound hloop
  have hstep : step s = .next (raiseBare .timedOut s) := by
    rw [step_busy hr hb]
    rcases hloop with hq | ⟨hq, hp⟩
    · rw [advance_waitingReady hq, advWaiting, pollTurn_bound hbound]
    · rw [advance_erasing hq, advErasing, if_pos hp, pollTurn_bound hbound]
  exact ⟨_, hstep, ⟨rfl, rfl, rfl, rfl, rfl⟩, rfl, ⟨rfl, rfl⟩, ⟨rfl, rfl⟩,
    keepsSurroundings_of_img rfl rfl rfl rfl rfl⟩

/-- Settles O40: an acknowledged word leads on, another byte to another poll. -/
theorem waitingTransition : Obligations.WaitingTransition := by
  intro s hs hr hq hbound
  obtain ⟨hb, -⟩ := (orchLegal_waitingReady hq).1 hs.orch
  have hcond := (hs.busyClear hb).2
  have hstep := step_waitingReady hs hr hq
  have hsur {t : State} := keepsSurroundings_of_img (s := s) (t := t)
  rcases pollTurn_below (f := wordDone) hbound with ⟨b, ha, hturn⟩ | ⟨k, ha, hturn⟩ <;> rw [hturn] at hstep
  · by_cases hready : b = readyByte
    · rw [if_pos hready] at hstep
      obtain ⟨hhost, hcfg, hlen, hpar, hreset, hlog, hscript, himg⟩ := wordDone_keeps (polled b s)
      obtain ⟨haddr, hidx, hreg, hstatus, hcnt⟩ := wordDone_w (polled b s)
      refine ⟨_, .ok [b], hstep, oneChain_of_answer ha hlog hscript, answerOf_of_eq ha,
        ⟨hcfg, wordDone_imgValid (polled b s)⟩, hsur hpar hreset hhost hlen himg, haddr, hreg, hcnt,
        ?_, (fun k hk => nomatch hk)⟩
      rintro rx ⟨⟩
      refine ⟨b, rfl, hstatus, fun hne => absurd hready hne,
        fun _ => ⟨hidx, fun hmore => ?more, fun hlast => ?last⟩⟩
      case more =>
        rw [wordDone_more (s := polled b s) hmore]
        exact ⟨rfl, rfl, rfl⟩
      case last =>
        rw [wordDone_last (s := polled b s) hlast.ge]
        exact finish_endedWell hcond
    · rw [if_neg hready] at hstep
      refine ⟨_, .ok [b], hstep, oneChain_of_answer ha rfl rfl, answerOf_of_eq ha, ⟨rfl, rfl⟩,
        hsur rfl rfl rfl rfl rfl, rfl, rfl, rfl, ?_, (fun k hk => nomatch hk)⟩
      rintro rx ⟨⟩
      exact ⟨b, rfl, rfl, fun _ => ⟨hq, rfl, rfl, rfl⟩, fun h => absurd h hready⟩
  · refine ⟨_, .fail k, hstep, oneChain_of_answer ha rfl rfl, answerOf_of_eq ha, ⟨rfl, rfl⟩,
      hsur rfl rfl rfl rfl rfl, rfl, rfl, rfl, (fun rx hrx => nomatch hrx), ?_⟩
    rintro k' ⟨⟩
    obtain ⟨hended, hcause⟩ := raise_transferFailed_ended k _
    exact ⟨hended, hcause, rfl, rfl⟩

/-- Settles O43: the same turn, at whose good end the command is done. -/
theorem erasePollTransition : Obligations.ErasePollTransition := by
  intro s hs hr hq hp hbound
  obtain ⟨hb, -⟩ := (orchLegal_erasing hq).1 hs.orch
  have hcond := (hs.busyClear hb).2
  have hstep := step_erasing_polling hs hr hq hp
  have hsur {t : State} := keepsSurroundings_of_img (s := s) (t := t)
  rcases pollTurn_below (f := finish) hbound with ⟨b, ha, hturn⟩ | ⟨k, ha, hturn⟩ <;> rw [hturn] at hstep
  · by_cases hready : b = readyByte
    · rw [if_pos hready] at hstep
      refine ⟨_, .ok [b], hstep, oneChain_of_answer ha rfl rfl, answerOf_of_eq ha, ⟨rfl, rfl⟩,
        hsur rfl rfl rfl rfl rfl, rfl, rfl, rfl, rfl, ?_, (fun k hk => nomatch hk)⟩
      rintro rx ⟨⟩
      exact ⟨b, rfl, rfl, fun hne => absurd hready hne, fun _ => finish_endedWell hcond⟩
    · rw [if_neg hready] at hstep
      refine ⟨_, .ok [b], hstep, oneChain_of_answer ha rfl rfl, answerOf_of_eq ha, ⟨rfl, rfl⟩,
        hsur rfl rfl rfl rfl rfl, rfl, rfl, rfl, rfl, ?_, (fun k hk => nomatch hk)⟩
      rintro rx ⟨⟩
      exact ⟨b, rfl, rfl, fun _ => ⟨hq, hp, rfl, rfl⟩, fun h => absurd h hready⟩
  · refine ⟨_, .fail k, hstep, oneChain_of_answer ha rfl rfl, answerOf_of_eq ha, ⟨rfl, rfl⟩,
      hsur rfl rfl rfl rfl rfl, rfl, rfl, rfl, rfl, (fun rx hrx => nomatch hrx), ?_⟩
    rintro k' ⟨⟩
    obtain ⟨hended, hcause⟩ := raise_transferFailed_ended k _
    exact ⟨hended, hcause, rfl⟩

/-! ### No legal state faults -/

/-- The chain of a row, answered or failed, leads to a next state. -/
theorem exists_next_of_answer {c : Chain} {s : State} {out : Host.Outcome State Fault Refusal}
    (hok : ∀ rx, answerTo c s = .ok rx → ∃ t, out = .next t)
    (hfail : ∀ k, answerTo c s = .fail k → ∃ t, out = .next t) : ∃ t, out = .next t := by
  cases ha : answerTo c s with
  | ok rx => exact hok rx ha
  | fail k => exact hfail k ha

/-- An executing command always has its next transition (R208). -/
theorem exists_step_of_busy {s : State} (hs : s.Inv) (hr : s.resetIn = false) (hb : s.st.busy = true) :
    ∃ t, step s = .next t := by
  cases hq : s.orchState with
  | idle => exact absurd (hs.orch.idle_iff.1 hq) (by simp [hb])
  | reading =>
    exact exists_next_of_answer (fun _ ha => ⟨_, step_reading_ok hs hr hq ha⟩)
      (fun _ ha => ⟨_, step_reading_fail hs hr hq ha⟩)
  | enabling =>
    obtain ⟨-, -, -, -, hop⟩ := (orchLegal_enabling hq).1 hs.orch
    refine exists_next_of_answer (fun rx ha => ?_) (fun _ ha => ⟨_, step_enabling_fail hs hr hq ha⟩)
    rcases hop with herase | ⟨hwrite, -⟩
    · exact ⟨_, step_enabling_erase hs hr hq herase ha⟩
    · exact ⟨_, step_enabling_write hs hr hq hwrite ha⟩
  | writing =>
    exact exists_next_of_answer (fun _ ha => ⟨_, step_writing_ok hs hr hq ha⟩)
      (fun _ ha => ⟨_, step_writing_fail hs hr hq ha⟩)
  | waitingReady => exact ⟨_, step_waitingReady hs hr hq⟩
  | erasing =>
    cases hp : s.erasePolling with
    | true => exact ⟨_, step_erasing_polling hs hr hq hp⟩
    | false =>
      exact exists_next_of_answer (fun _ ha => ⟨_, step_erasing_ok hs hr hq hp ha⟩)
        (fun _ ha => ⟨_, step_erasing_fail hs hr hq hp ha⟩)
  | done => exact absurd hq hs.orch.ne_done

theorem whenIdle_ne_fault {s : State} {run : Host.Outcome State Fault Refusal} {f : Fault} (h : run ≠ .fault f) :
    whenIdle s run ≠ .fault f := by
  unfold whenIdle
  split
  · simp
  · exact h

theorem portPrim_ne_fault (result : List Byte → ResVal) (out : PrimOut) (f : Fault) :
    portPrim result out ≠ .fault f := by
  cases out <;> simp [portPrim]

theorem runFinalize_ne_fault (choice : ProfileChoice) (mode : AccessMode) (s : State) (f : Fault) :
    runFinalize choice mode s ≠ .fault f := by
  unfold runFinalize
  split
  · simp
  · simp
  · split <;> simp

/-- A command at the port is a next state or a refusal, in every state: faults belong to the operations' transitions. -/
theorem exec_ne_fault (i : Instr) (s : State) (f : Fault) : exec i s ≠ .fault f := by
  cases i with
  | encode o p d a => exact whenIdle_ne_fault (by split <;> simp)
  | status => exact whenIdle_ne_fault (by simp)
  | finalize => exact whenIdle_ne_fault (runFinalize_ne_fault _ _ _ f)
  | readArray | writeArray =>
    refine whenIdle_ne_fault ?_
    split
    · simp
    · split
      · simp
      · simp only
        split <;> simp
  | eraseArray => exact whenIdle_ne_fault (by split <;> simp)
  | read | write | special | ewen | ewds | eral => exact whenIdle_ne_fault (portPrim_ne_fault _ _ f)

/-- Settles O52: while busy there is a transition; an idle step is the reset, a wait, a command or the host's. -/
theorem legalStatesNeverFault : Obligations.LegalStatesNeverFault := by
  refine fun s hs => ⟨fun f => ?_, fun hr hb => exists_step_of_busy hs hr hb⟩
  cases hr : s.resetIn with
  | true =>
    rw [step_reset hr, resetStep]
    split <;> simp
  | false =>
    cases hb : s.st.busy with
    | true =>
      obtain ⟨t, ht⟩ := exists_step_of_busy hs hr hb
      simp [ht]
    | false =>
      cases hh : s.host with
      | nil => simp [step_wait hr hb hh]
      | cons a rest =>
        cases a with
        | command i => exact step_command hr hb hh ▸ exec_ne_fault i _ f
        | image bs => simp [step_image hr hb hh]
        | assertReset => simp [step, hr, hb, hh]

end Sys2Proof.Machine
end

section
/-! PROOFS. The machine as a whole: all the next states of a transition, what commands and transitions leave unchanged,
the chains they issue, and the outcome they show when they end. -/

namespace Sys2Proof.Machine

open Sys2Proof Config

/-! ### All the transitions -/

/-- The chains the rows of R208 issue. -/
inductive RowChain (s : State) : Chain → Prop
  | read : s.orchState = .reading → RowChain s (readChain s.w.addr (stepLen s) s)
  | ewen : s.orchState = .enabling → RowChain s (specialChain opcCtrl s.par.subEwen.toNat s)
  | write : s.orchState = .writing → RowChain s (writeChain (s.w.idx * wordSize s) (wordBytes s) s)
  | status : RowChain s chainR
  | eral : s.orchState = .erasing → RowChain s (specialChain opcCtrl s.par.subEral.toNat s)

/-- All the next states of a transition, one constructor for each way it can go; `advance_transition` ties it to the
model. -/
inductive Transition (s : State) : State → Prop
  | aborted {c : Chain} (w : Work) (k : Cause) : RowChain s c →
      Transition s (raise .transferFailed k { afterChain c s with w := w })
  | stored {c : Chain} (w : Work) (rx : List Byte) : RowChain s c → s.orchState = .reading →
      Transition s (afterStore { afterChain c s with w := w, img := writeBytes s.img s.w.addr rx })
  | continued {c : Chain} (w : Work) (q : OrchState) (polling : Bool) : RowChain s c →
      Transition s { afterChain c s with w := w, orchState := q, erasePolling := polling }
  | ended {c : Chain} (w : Work) : RowChain s c → Transition s (finish { afterChain c s with w := w })
  | timedOut : Transition s (raiseBare .timedOut s)
  | done : Transition s (finish s)

/-- A turn of a poll loop, if the loop's good end is a transition. -/
theorem pollTurn_transition {f : State → State} {s : State} (h : Transition s (f (polled readyByte s))) :
    Transition s (pollTurn f s) := by
  rcases pollTurn_cases f s with ⟨-, e⟩ | ⟨k, -, e⟩ | ⟨b, -, -, e⟩ | ⟨-, e⟩ <;> rw [e]
  · exact .timedOut
  · exact .aborted _ k .status
  · exact .continued _ s.orchState s.erasePolling .status
  · exact h

theorem wordDone_transition (s : State) : Transition s (wordDone (polled readyByte s)) := by
  rcases Nat.lt_or_ge (s.w.idx + 1) (wordCount s) with hmore | hlast
  · rw [wordDone_more (s := polled readyByte s) hmore]
    exact .continued _ .writing s.erasePolling .status
  · rw [wordDone_last (s := polled readyByte s) hlast]
    exact .ended _ .status

/-- All a transition can answer as a next state, in every state, legal or not. -/
theorem advance_transition {s t : State} (h : advance s = .next t) : Transition s t := by
  unfold advance at h
  split at h
  next => cases h
  next hq =>
    obtain ⟨u, c, rfl, rfl, ⟨k, -, rfl⟩ | ⟨rx, -, -, -, rfl⟩⟩ := advReading_next h
    · exact .aborted _ k (.read hq)
    · exact .stored _ rx (.read hq) hq
  next hq =>
    obtain ⟨u, v, rfl, ⟨k, -, rfl⟩ | ⟨-, rfl⟩ | ⟨-, rfl⟩⟩ := advEnabling_next h
    · exact .aborted _ k (.ewen hq)
    · exact .continued _ .writing s.erasePolling (.ewen hq)
    · exact .continued _ .erasing s.erasePolling (.ewen hq)
  next hq =>
    obtain ⟨s', u, c, data, rfl, rfl, rfl, rfl, ⟨k, -, rfl⟩ | rfl⟩ := advWriting_next h
    · exact .aborted _ k (.write hq)
    · exact .continued _ .waitingReady s.erasePolling (.write hq)
  next =>
    obtain rfl : pollTurn wordDone s = t := by simpa [advWaiting] using h
    exact pollTurn_transition (wordDone_transition s)
  next hq =>
    rcases advErasing_next h with ⟨-, rfl⟩ | ⟨-, u, v, rfl, ⟨k, -, rfl⟩ | ⟨-, rfl⟩ | ⟨-, rfl⟩⟩
    · exact pollTurn_transition (.ended _ .status)
    · exact .aborted _ k (.eral hq)
    · exact .continued _ s.orchState true (.eral hq)
    · exact .ended _ (.eral hq)
  next =>
    obtain rfl : finish s = t := by simpa using h
    exact .done

/-! ### Frames -/

/-- What every command and every transition leaves: the parameters, the host's further actions and `IMG_LEN`. -/
structure KeepsHostSide (s t : State) : Prop where
  par : t.par = s.par
  host : t.host = s.host
  imgLen : t.imgLen = s.imgLen

theorem Transition.keepsHostSide {s t : State} (h : Transition s t) : KeepsHostSide s t := by
  cases h with
  | stored w rx =>
    obtain ⟨hhost, -, hlen, hpar, -⟩ := afterStore_keeps
      { afterChain _ s with w := w, img := writeBytes s.img s.w.addr rx }
    exact ⟨hpar, hhost, hlen⟩
  | aborted | continued | ended | timedOut | done => exact ⟨rfl, rfl, rfl⟩

/-- No transition writes the configuration (R36). -/
theorem Transition.keepsCfg {s t : State} (h : Transition s t) : t.cfg = s.cfg := by
  cases h with
  | stored w rx =>
    obtain ⟨-, hcfg, -⟩ := afterStore_keeps { afterChain _ s with w := w, img := writeBytes s.img s.w.addr rx }
    exact hcfg
  | aborted | continued | ended | timedOut | done => rfl

/-- Only Reading writes the image (R43). -/
theorem Transition.keepsImg {s t : State} (h : Transition s t) (hq : s.orchState ≠ .reading) : t.img = s.img := by
  cases h with
  | stored w rx _ hread => exact absurd hread hq
  | aborted | continued | ended | timedOut | done => rfl

/-- A transition issues its row's chain, or none. -/
theorem Transition.chain {s t : State} (h : Transition s t) :
    NoChain s t ∨ ∃ c, RowChain s c ∧ OneChain c (answerTo c s) s t := by
  cases h with
  | aborted w k hc => exact .inr ⟨_, hc, rfl, rfl⟩
  | stored w rx hc =>
    obtain ⟨-, -, -, -, -, hlog, hscript, -⟩ := afterStore_keeps
      { afterChain _ s with w := w, img := writeBytes s.img s.w.addr rx }
    exact .inr ⟨_, hc, hlog, hscript⟩
  | continued w q polling hc => exact .inr ⟨_, hc, rfl, rfl⟩
  | ended w hc => exact .inr ⟨_, hc, rfl, rfl⟩
  | timedOut => exact .inl ⟨rfl, rfl⟩
  | done => exact .inl ⟨rfl, rfl⟩

/-- What the end of a primitive leaves of the state it ends in. -/
theorem portEnd_keeps (result : List Byte → ResVal) (a : BusAnswer) (u : State) :
    KeepsHostSide u (portEnd result (a, u)) ∧ (portEnd result (a, u)).img = u.img ∧
      (portEnd result (a, u)).cfg = u.cfg ∧ NoChain u (portEnd result (a, u)) := by
  cases a <;> exact ⟨⟨rfl, rfl, rfl⟩, rfl, rfl, rfl, rfl⟩

theorem Accepted.keepsHostSide {i : Instr} {s t : State} (h : Accepted s i t) : KeepsHostSide s t := by
  cases h with
  | primitive _ result c w =>
    obtain ⟨⟨hpar, hhost, hlen⟩, -⟩ := portEnd_keeps result (answerTo c (accept .prim s))
      { afterChain c (accept .prim s) with w := w }
    exact ⟨hpar, hhost, hlen⟩
  | _ => exact ⟨rfl, rfl, rfl⟩

/-- No command writes the image: READ_ARRAY stores in its transitions only (R43). -/
theorem Accepted.keepsImg {i : Instr} {s t : State} (h : Accepted s i t) : t.img = s.img := by
  cases h with
  | primitive _ result c w =>
    obtain ⟨-, himg, -⟩ := portEnd_keeps result (answerTo c (accept .prim s))
      { afterChain c (accept .prim s) with w := w }
    exact himg
  | _ => rfl

/-- Among the commands, only FINALIZE writes the configuration (R36). -/
theorem Accepted.keepsCfg {i : Instr} {s t : State} (h : Accepted s i t)
    (hi : ∀ name size ab sup mode, i ≠ .finalize name size ab sup mode) : t.cfg = s.cfg := by
  cases h with
  | primitive _ result c w =>
    obtain ⟨-, -, hcfg, -⟩ := portEnd_keeps result (answerTo c (accept .prim s))
      { afterChain c (accept .prim s) with w := w }
    exact hcfg
  | committed name size ab sup mode => exact absurd rfl (hi name size ab sup mode)
  | _ => rfl

/-- A command issues one chain if it is a primitive on the bus, and none otherwise. -/
theorem Accepted.chain {i : Instr} {s t : State} (h : Accepted s i t) :
    NoChain s t ∨ ∃ c a, OneChain c a s t ∧ AnswerOf c s a := by
  cases h with
  | primitive _ result c w =>
    obtain ⟨-, -, -, hlog, hscript⟩ := portEnd_keeps result (answerTo c (accept .prim s))
      { afterChain c (accept .prim s) with w := w }
    exact .inr ⟨c, _, ⟨hlog, hscript⟩, AnswerOf.congr (t := accept .prim s) rfl rfl (answerOf_answerTo _ _)⟩
  | _ => exact .inl ⟨rfl, rfl⟩

/-! ### The outcome shown at the end -/

/-- A state that is at rest shows an outcome (R38). -/
def ShowsOutcome (t : State) : Prop := t.st.busy = false → t.st.done = true ∨ t.st.cond ≠ .none

theorem showsOutcome_of_busy {t : State} (h : t.st.busy = true) : ShowsOutcome t :=
  fun hb => absurd hb (by simp [h])

theorem Transition.showsOutcome {s t : State} (h : Transition s t) (hb : s.st.busy = true) : ShowsOutcome t := by
  cases h with
  | aborted => exact fun _ => .inr (by simp)
  | stored w rx =>
    unfold afterStore
    simp only
    split
    · exact showsOutcome_of_busy hb
    · exact fun _ => .inl rfl
  | continued => exact showsOutcome_of_busy hb
  | ended => exact fun _ => .inl rfl
  | timedOut => exact fun _ => .inr (by simp)
  | done => exact fun _ => .inl rfl

theorem Accepted.showsOutcome {i : Instr} {s t : State} (h : Accepted s i t) : ShowsOutcome t := by
  cases h with
  | encoded => exact fun _ => .inl rfl
  | primitive _ result c w =>
    cases answerTo c (accept .prim s) with
    | ok rx => exact fun _ => .inl rfl
    | fail k => exact fun _ => .inr (by simp [portEnd])
  | committed => exact fun _ => .inl rfl
  | notCommitted _ _ _ _ _ c hc => exact fun _ => .inr hc
  | readMismatch | writeMismatch => exact fun _ => .inr (by simp)
  | readStarted | writeStarted | eraseStarted => exact showsOutcome_of_busy rfl

/-- At rest, a legal state that shows an outcome shows exactly one: `ST.DONE` and a condition exclude each other. -/
theorem ShowsOutcome.exactly_one {t : State} (h : ShowsOutcome t) (ht : t.Inv) (hb : t.st.busy = false) :
    (EndedWell t ∧ ∀ c, c ≠ .none → ¬ EndedWith c t) ∨ (∃ c, c ≠ .none ∧ EndedWith c t ∧ ¬ EndedWell t) := by
  have hq := ht.idle hb
  obtain ⟨-, hop, -⟩ := (orchLegal_idle hq).1 ht.orch
  cases hdone : t.st.done with
  | true =>
    refine .inl ⟨⟨hb, hdone, ht.outcome hdone, hq, hop⟩, fun c _ hended => ?_⟩
    obtain ⟨-, hnot, -⟩ := hended
    exact absurd (hdone.symm.trans hnot) (by simp)
  | false =>
    have hcond : t.st.cond ≠ .none := (h hb).resolve_left (by simp [hdone])
    refine .inr ⟨t.st.cond, hcond, ⟨hb, hdone, rfl, hq, hop⟩, fun hwell => ?_⟩
    obtain ⟨-, hyes, -⟩ := hwell
    exact absurd (hdone.symm.trans hyes) (by simp)

/-! ### The statements -/

/-- Settles O14: the port's guard, and the frame of the transitions. -/
theorem busyPortTakesNothing : Obligations.BusyPortTakesNothing := by
  refine ⟨fun i s hb => ?port, fun s t hb h => ?list⟩
  case port => cases i <;> exact whenIdle_busy hb
  case list =>
    cases hr : s.resetIn with
    | true => simp [step_reset hr, resetStep, hb] at h
    | false =>
      rw [step_busy hr hb] at h
      exact (advance_transition h).keepsHostSide.host

/-- Settles O53: a command ends at acceptance or in a transition, and the state it ends in is legal. -/
theorem endedCommandsShowOneOutcome : Obligations.EndedCommandsShowOneOutcome := by
  intro s t hs hr hcommand h hb
  refine ShowsOutcome.exactly_one ?_ (stepKeepsTheInvariant s t hs h) hb
  cases hbusy : s.st.busy with
  | true =>
    rw [step_busy hr hbusy] at h
    exact (advance_transition h).showsOutcome hbusy
  | false =>
    obtain ⟨i, rest, hh⟩ := hcommand.resolve_left (by simp [hbusy])
    rw [step_command hr hbusy hh] at h
    exact (exec_accepted (s := popHost s) hbusy h).showsOutcome

/-- Settles O54: the frames of the transitions and of the other commands. -/
theorem onlyFinalizeWritesTheProfile : Obligations.OnlyFinalizeWritesTheProfile := by
  intro s t h hr hhead
  rcases step_cases h with ⟨hr', -, -⟩ | ⟨-, -, hadv⟩ | ⟨-, -, -, rfl⟩ | ⟨-, hb, i, rest, hh, hexec⟩ |
    ⟨-, -, bs, -, -, rfl⟩ | ⟨-, -, -, -, rfl⟩
  · exact absurd (hr.symm.trans hr') (by simp)
  · exact (advance_transition hadv).keepsCfg
  · rfl
  · refine (exec_accepted (s := popHost s) hb hexec).keepsCfg fun name size ab sup mode hi => ?_
    exact hhead name size ab sup mode (by rw [hh, hi]; rfl)
  · rfl
  · rfl

/-- Settles O55: a transition and a primitive issue one chain, everything else none. -/
theorem oneChainAtMostPerStep : Obligations.OneChainAtMostPerStep := by
  intro s t h
  have bundled : (NoChain s t ∨ ∃ c a, OneChain c a s t ∧ AnswerOf c s a) := by
    rcases step_cases h with ⟨-, -, rfl⟩ | ⟨-, -, hadv⟩ | ⟨-, -, -, rfl⟩ | ⟨-, hb, i, rest, -, hexec⟩ |
      ⟨-, -, bs, -, -, rfl⟩ | ⟨-, -, -, -, rfl⟩
    · exact .inl ⟨rfl, rfl⟩
    · rcases (advance_transition hadv).chain with hnone | ⟨c, -, hone⟩
      · exact .inl hnone
      · exact .inr ⟨c, _, hone, answerOf_answerTo c s⟩
    · exact .inl ⟨rfl, rfl⟩
    · exact (exec_accepted (s := popHost s) hb hexec).chain
    · exact .inl ⟨rfl, rfl⟩
    · exact .inl ⟨rfl, rfl⟩
  rcases bundled with hnone | ⟨c, a, ⟨hlog, hscript⟩, hans⟩
  · exact .inl hnone
  · exact .inr ⟨c, a, hlog, hscript, hans⟩

/-- Settles O56: the two writers of `IMG` are the row Reading and the host's image. -/
theorem imageWritersAndParameters : Obligations.ImageWritersAndParameters := by
  intro s t h
  rcases step_cases h with ⟨-, -, rfl⟩ | ⟨-, hb, hadv⟩ | ⟨-, -, -, rfl⟩ | ⟨-, hb, i, rest, -, hexec⟩ |
    ⟨-, hb, bs, rest, hh, rfl⟩ | ⟨-, -, -, -, rfl⟩
  · exact ⟨rfl, by simp⟩
  · have htrans := advance_transition hadv
    obtain ⟨hpar, -, hlen⟩ := htrans.keepsHostSide
    refine ⟨hpar, fun hchange => .inl ⟨hb, ?_, hlen⟩⟩
    by_contra hq
    exact hchange.elim (absurd (htrans.keepsImg hq)) (absurd hlen)
  · exact ⟨rfl, by simp⟩
  · have haccepted := exec_accepted (s := popHost s) hb hexec
    obtain ⟨hpar, -, hlen⟩ := haccepted.keepsHostSide
    exact ⟨hpar, fun hchange => hchange.elim (absurd haccepted.keepsImg) (absurd hlen)⟩
  · exact ⟨rfl, fun _ => .inr ⟨hb, bs, by rw [hh]; rfl, image_loadImage bs (popHost s)⟩⟩
  · exact ⟨rfl, by simp⟩

/-- A row's chain, read back, is one of the five primitives the operations use, EWDS not among them (R204, R206). -/
theorem RowChain.decode_ne_ewds {s : State} {c : Chain} (h : RowChain s c) (hs : s.Inv)
    (hcodes : CodesDistinct s.par) : decodeChain s.par s.cfg.org16 s.cfg.aEff.toNat c ≠ .ok .ewds := by
  have wrapper (hf : s.cfg.finalized = true) (sub : BitVec 2) :
      decodeChain s.par s.cfg.org16 s.cfg.aEff.toNat (specialChain opcCtrl sub.toNat s) =
        .ok (controlInstr s.par opcCtrl sub.toNat) := by
    obtain ⟨h4, h9⟩ := hs.aEff_range hf
    exact decodeChain_wrapper (by omega) (by omega) s.cfg.org16 sub
  cases h with
  | read hq =>
    obtain ⟨-, -, hf, -, hw, -⟩ := (orchLegal_reading hq).1 hs.orch
    have hdecode := decodeChain_read (p := s.par) (hs.aEff_range hf).2 s.cfg.org16 s.w.addr (stepLen_pos hw)
    exact fun h => by cases hdecode.symm.trans h
  | ewen hq =>
    obtain ⟨-, hf, -⟩ := (orchLegal_enabling hq).1 hs.orch
    have hdecode := wrapper hf s.par.subEwen
    rw [controlInstr_ewen] at hdecode
    exact fun h => by cases hdecode.symm.trans h
  | write hq =>
    obtain ⟨-, -, hf, -⟩ := (orchLegal_writing hq).1 hs.orch
    have hdecode := decodeChain_write (p := s.par) (hs.aEff_range hf).2 s.cfg.org16 (s.w.idx * wordSize s)
      (wordBytes_pos s)
    exact fun h => by cases hdecode.symm.trans h
  | status => exact fun h => by cases (decodeChain_status s.par s.cfg.org16 s.cfg.aEff.toNat).symm.trans h
  | eral hq =>
    obtain ⟨-, -, hf, -⟩ := (orchLegal_erasing hq).1 hs.orch
    have hdecode := wrapper hf s.par.subEral
    rw [controlInstr_eral hcodes] at hdecode
    exact fun h => by cases hdecode.symm.trans h

/-- Settles O57: the chain issued is the row's. -/
theorem operationsNeverDisableWrites : Obligations.OperationsNeverDisableWrites := by
  intro s t hs hcodes hr hb h c a hlog
  rw [step_busy hr hb] at h
  rcases (advance_transition h).chain with ⟨hnone, -⟩ | ⟨c', hrow, hone, -⟩
  · exact absurd (hlog.symm.trans hnone) (List.cons_ne_self _ _)
  · obtain ⟨⟨rfl, -⟩, -⟩ := List.cons.inj (hone.symm.trans hlog) |>.imp_left BusEvent.mk.inj
    exact hrow.decode_ne_ewds hs hcodes

end Sys2Proof.Machine
end

section
/-! PROOFS. Runs of the operations (R192 to R206): the chains and the end of a run, by induction over the words and the
polls; one transition a step (log entry 9). -/

namespace Sys2Proof.Machine

open Sys2Proof Config

/-! ### Runs and their chains -/

/-- `n` steps lead from `s` to `t` and issue the chains `cs`, oldest first. -/
structure RunsTo (n : Nat) (cs : List Chain) (s t : State) : Prop where
  run : runSteps n s = .next t
  log : ∃ l, t.busLog = l ++ s.busLog ∧ (l.map BusEvent.chain).reverse = cs

theorem RunsTo.refl (s : State) : RunsTo 0 [] s s := ⟨rfl, [], rfl, rfl⟩

theorem runSteps_one {s t : State} (h : step s = .next t) : runSteps 1 s = .next t := runSteps_succ h 0

theorem RunsTo.of_step {s t : State} {c : Chain} {a : BusAnswer} (h : step s = .next t)
    (hlog : t.busLog = { chain := c, answer := a } :: s.busLog) : RunsTo 1 [c] s t :=
  ⟨runSteps_one h, [_], hlog, rfl⟩

theorem RunsTo.of_quiet_step {s t : State} (h : step s = .next t) (hlog : t.busLog = s.busLog) : RunsTo 1 [] s t :=
  ⟨runSteps_one h, [], hlog, rfl⟩

theorem RunsTo.trans {m n : Nat} {cs ds : List Chain} {s t u : State} (h : RunsTo m cs s t) (h' : RunsTo n ds t u) :
    RunsTo (m + n) (cs ++ ds) s u := by
  obtain ⟨hrun, l, hl, rfl⟩ := h
  obtain ⟨hrun', l', hl', rfl⟩ := h'
  exact ⟨(runSteps_add n hrun).trans hrun', l' ++ l, by rw [hl', hl, List.append_assoc], by simp⟩

/-- The chains since a state with the log the run began with. -/
theorem RunsTo.chainsSince {n : Nat} {cs : List Chain} {s r t : State} (h : RunsTo n cs s t)
    (hr : s.busLog = r.busLog) : chainsSince r t = cs := by
  obtain ⟨-, l, hl, rfl⟩ := h
  exact chainsSince_append (hr ▸ hl)

/-! ### READ_ARRAY -/

/-- A legal Reading state's step when the script names the bytes of `STEP`. -/
theorem step_reading_script {s : State} (hs : s.Inv) (hr : s.resetIn = false) (hq : s.orchState = .reading)
    (hm : s.par.maxXfer = none) {rx : List Byte} {rest : List BusAnswer} (hscript : s.script = .ok rx :: rest)
    (hlen : rx.length = stepLen s) :
    step s = .next (afterStore (stored rx s)) ∧
      RunsTo 1 [readChain s.w.addr (stepLen s) s] s (afterStore (stored rx s)) := by
  have ha : answerTo (readChain s.w.addr (stepLen s) s) s = .ok rx :=
    answerTo_script hscript (by rw [readChain, rxTotal_chainHR, hlen]) hm
  have hstep := step_reading_ok hs hr hq ha
  obtain ⟨-, -, -, -, -, hlog, -⟩ := afterStore_keeps (stored rx s)
  exact ⟨hstep, .of_step hstep hlog⟩

/-- The image up to the end of a store: what was there below it, then the stored bytes. -/
theorem readBytes_stored {s : State} (hs : s.Inv) (rx : List Byte) :
    readBytes (writeBytes s.img s.w.addr rx) 0 (s.w.addr + rx.length) = readBytes s.img 0 s.w.addr ++ rx := by
  rw [readBytes_append, readBytes_writeBytes_below hs.imgWf rx (by omega), Nat.zero_add,
    readBytes_writeBytes_same hs.imgWf]

/-- Settles O44: one step of the whole size, which ends the command. -/
theorem burstReadFillsTheImage : Obligations.BurstReadFillsTheImage := by
  intro s rx rest hs hr hb hf hw hl hm hscript hlen
  have hexec := exec_readArray_starts hb hf hw hl true
  have hinv : (readStarted true s).Inv := (exec_accepted hb hexec).inv hs hb
  obtain ⟨-, hrun⟩ := step_reading_script hinv hr rfl hm hscript hlen
  rw [afterStore_end (by show s.cfg.sizeBytes ≤ 0 + s.cfg.sizeBytes; omega)] at hrun
  refine ⟨_, _, hexec, hrun.run, finish_endedWell rfl, rfl, ?image, congrArg List.tail hscript, ?chains⟩
  case image =>
    show readBytes (writeBytes s.img 0 rx) 0 s.imgLen = rx
    rw [hl, ← hlen, readBytes_writeBytes_same hs.imgWf]
  case chains =>
    have hzero : readPayloadOf s.par s.cfg.org16 0 = 0 := by simp [readPayloadOf, unitOf]
    rw [← hzero, ← readHdr_eq]
    exact hrun.chainsSince rfl

/-- The READ of the word with index `i` (R193). -/
def wordReadChain (s : State) (i : Nat) : Chain := readChain (i * wordSize s) (wordSize s) s

/-- The size is a whole number of words (R9, R64). -/
theorem wordCount_mul {s : State} (hs : s.Inv) (hf : s.cfg.finalized = true) (hw : wordSize s ≤ s.cfg.sizeBytes) :
    wordCount s * wordSize s = s.cfg.sizeBytes := Nat.div_mul_cancel (wordSize_dvd (hs.profile hf).size hw)

/-- From word `k` on, a stepped READ_ARRAY stores the remaining words in order and ends (R193, R196). -/
theorem reading_runs {words : List (List Byte)} {rest : List BusAnswer} {s : State} {k : Nat} (hs : s.Inv)
    (hr : s.resetIn = false) (hq : s.orchState = .reading) (hburst : s.burst = false) (hm : s.par.maxXfer = none)
    (hscript : s.script = words.map .ok ++ rest) (haddr : s.w.addr = k * wordSize s)
    (hcount : k + words.length = wordCount s) (hlen : ∀ rx ∈ words, rx.length = wordSize s) :
    ∃ u, RunsTo words.length ((List.range' k words.length).map (wordReadChain s)) s u ∧ EndedWell u ∧
      u.st.imgValid = true ∧ image u = readBytes s.img 0 s.w.addr ++ words.flatten ∧ u.script = rest := by
  induction words generalizing s k with
  | nil =>
    obtain ⟨-, -, hf, -, hw, hfit, -⟩ := (orchLegal_reading hq).1 hs.orch
    have hend : s.w.addr = s.cfg.sizeBytes := by
      rw [haddr, ← wordCount_mul hs hf hw, ← hcount]
      rfl
    have hpos := stepLen_pos hw
    omega
  | cons rx words ih =>
    obtain ⟨hb, -, hf, hl, hw, -⟩ := (orchLegal_reading hq).1 hs.orch
    obtain ⟨hrx, hwords⟩ := List.forall_mem_cons.1 hlen
    have hstep : stepLen s = wordSize s := by simp [stepLen, hburst]
    have hsize : s.cfg.sizeBytes = s.w.addr + wordSize s + words.length * wordSize s := by
      rw [← wordCount_mul hs hf hw, ← hcount, haddr, List.length_cons]
      ring
    obtain ⟨hnext, hrun⟩ := step_reading_script hs hr hq hm hscript (hrx.trans hstep.symm)
    rw [hstep, haddr] at hrun
    have himg := readBytes_stored hs rx
    rw [hrx] at himg
    cases words with
    | nil =>
      have hend : s.cfg.sizeBytes = s.w.addr + wordSize s := by simpa using hsize
      rw [afterStore_end (s := stored rx s) (by show s.cfg.sizeBytes ≤ s.w.addr + stepLen s; omega)] at hrun
      refine ⟨_, hrun, finish_endedWell (hs.busyClear hb).2, rfl, ?_, congrArg List.tail hscript⟩
      show readBytes (writeBytes s.img s.w.addr rx) 0 s.imgLen = _
      rw [hl, hend, himg]
      simp
    | cons rx' words =>
      have hpos : 0 < (rx' :: words).length * wordSize s := Nat.mul_pos (by simp) (wordSize_pos s)
      rw [afterStore_below (s := stored rx s) (by show s.w.addr + stepLen s < s.cfg.sizeBytes; omega)] at hnext hrun
      have haddr' : s.w.addr + stepLen s = (k + 1) * wordSize s := by rw [haddr, hstep, Nat.succ_mul]
      have hcount' : k + 1 + (rx' :: words).length = wordCount s := by
        rw [← hcount, List.length_cons (a := rx)]
        omega
      obtain ⟨u, hrun', hended, hvalid, himage, hscript'⟩ := ih (stepKeepsTheInvariant _ _ hs hnext) hr hq hburst hm
        (congrArg List.tail hscript) haddr' hcount' hwords
      refine ⟨u, ?run, hended, hvalid, ?image, hscript'⟩
      case run =>
        rw [List.length_cons (a := rx), Nat.add_comm, Nat.add_comm 1, List.range'_succ, List.map_cons, Nat.add_comm]
        exact hrun.trans hrun'
      case image =>
        rw [himage, List.flatten_cons (l := rx), ← List.append_assoc, ← himg, ← hstep]
        rfl

/-- Settles O45: the run from word 0, whose chains `wordReadChain` names. -/
theorem steppedReadFillsTheImage : Obligations.SteppedReadFillsTheImage := by
  intro s words rest hs hr hb hf hw hl hm hscript hcount hlen
  have hexec := exec_readArray_starts hb hf hw hl false
  have hinv : (readStarted false s).Inv := (exec_accepted hb hexec).inv hs hb
  obtain ⟨u, hrun, hended, hvalid, himage, hscript'⟩ := reading_runs (k := 0) hinv hr rfl rfl hm hscript
    (Nat.zero_mul _).symm ((Nat.zero_add _).trans hcount) hlen
  refine ⟨_, u, hexec, hcount ▸ hrun.run, hended, hvalid, himage, hscript', ?chains⟩
  simp only [← readHdr_eq, ← hcount, List.range_eq_range']
  exact hrun.chainsSince rfl

/-! ### The poll loop of WRITE_ARRAY -/

/-- A turn of the poll loop whose STATUS is answered. -/
theorem pollTurn_ok {f : State → State} {s : State} {b : Byte} (hbound : s.par.pollMax ≠ some s.w.pollCnt)
    (ha : answerTo chainR s = .ok [b]) :
    pollTurn f s = if b = readyByte then f (polled b s) else polled b s := by
  rcases pollTurn_below (f := f) hbound with ⟨b', ha', hturn⟩ | ⟨k, ha', -⟩
  · obtain rfl : b = b' := by simpa [ha] using ha'
    exact hturn
  · simp [ha] at ha'

/-- A poll that answers another byte than `0xFF` (R200). -/
theorem step_waiting_again {s : State} (hs : s.Inv) (hr : s.resetIn = false) (hq : s.orchState = .waitingReady)
    (hbound : s.par.pollMax ≠ some s.w.pollCnt) {b : Byte} (ha : answerTo chainR s = .ok [b]) (hb : b ≠ 0xFF) :
    step s = .next (polled b s) :=
  (step_waitingReady hs hr hq).trans (congrArg _ ((pollTurn_ok hbound ha).trans (if_neg hb)))

/-- A poll that answers `0xFF` (R200). -/
theorem step_waiting_acknowledged {s : State} (hs : s.Inv) (hr : s.resetIn = false) (hq : s.orchState = .waitingReady)
    (hbound : s.par.pollMax ≠ some s.w.pollCnt) (ha : answerTo chainR s = .ok [0xFF]) :
    step s = .next (wordDone (polled readyByte s)) :=
  (step_waitingReady hs hr hq).trans (congrArg _ ((pollTurn_ok hbound ha).trans (if_pos rfl)))

/-- A scripted STATUS of a collaborator without a limit. -/
theorem answerTo_status {s : State} {b : Byte} {rest : List BusAnswer} (h : s.script = .ok [b] :: rest)
    (hm : s.par.maxXfer = none) : answerTo chainR s = .ok [b] := answerTo_script h rfl hm

/-- Below the bound, answers other than `0xFF` keep WaitingReady, every poll counted (R200, R201). -/
theorem waiting_runs {bytes : List Byte} {rest : List BusAnswer} {s : State} (hs : s.Inv) (hr : s.resetIn = false)
    (hq : s.orchState = .waitingReady) (hm : s.par.maxXfer = none)
    (hbound : ∀ j < bytes.length, s.par.pollMax ≠ some (s.w.pollCnt + j))
    (hscript : s.script = bytes.map (fun b => .ok [b]) ++ rest) (hbytes : ∀ b ∈ bytes, b ≠ 0xFF) :
    ∃ t, RunsTo bytes.length (List.replicate bytes.length chainR) s t ∧ t.Inv ∧ t.resetIn = false ∧
      t.orchState = .waitingReady ∧ t.st = s.st ∧ t.par = s.par ∧ t.w.idx = s.w.idx ∧
      t.w.pollCnt = s.w.pollCnt + bytes.length ∧ t.script = rest := by
  induction bytes generalizing s with
  | nil => exact ⟨s, .refl s, hs, hr, hq, rfl, rfl, rfl, rfl, hscript⟩
  | cons b bytes ih =>
    obtain ⟨hb, hbytes'⟩ := List.forall_mem_cons.1 hbytes
    have hnext := step_waiting_again hs hr hq (hbound 0 (by simp)) (answerTo_status hscript hm) hb
    have hbound' (j : Nat) (hj : j < bytes.length) : s.par.pollMax ≠ some (s.w.pollCnt + 1 + j) := by
      rw [Nat.add_assoc, Nat.add_comm 1]
      exact hbound (j + 1) (by simpa using hj)
    obtain ⟨t, hrun, hinv, hr', hq', hst, hpar, hidx, hcnt, hscript'⟩ := ih (stepKeepsTheInvariant _ _ hs hnext) hr hq
      hm hbound' (congrArg List.tail hscript) hbytes'
    refine ⟨t, ?run, hinv, hr', hq', hst, hpar, hidx, ?count, hscript'⟩
    case run =>
      rw [List.length_cons, Nat.add_comm, List.replicate_add]
      exact (RunsTo.of_step hnext rfl).trans hrun
    case count =>
      rw [hcnt, List.length_cons, Nat.add_comm bytes.length, ← Nat.add_assoc]
      rfl

/-- Settles O47: an infinite bound is reached by no count. -/
theorem unboundedPollNeverGivesUp : Obligations.UnboundedPollNeverGivesUp := by
  intro s bytes rest hs hr hq hbound hm hscript hbytes
  obtain ⟨t, hrun, -, -, hq', hst, -, hidx, hcnt, hscript'⟩ :=
    waiting_runs hs hr hq hm (fun j _ => by simp [hbound]) hscript hbytes
  exact ⟨t, hrun.run, hq', hst, hidx, hcnt, hscript', hrun.chainsSince rfl⟩

/-- Settles O48: `N` counted polls, then the turn at the bound. -/
theorem boundedPollTimesOut : Obligations.BoundedPollTimesOut := by
  intro s bytes rest hs hr hq hzero hbound hm hscript hbytes
  obtain ⟨t, hrun, hinv, hr', hq', -, hpar, hidx, hcnt, -⟩ := waiting_runs hs hr hq hm
    (fun j hj => by rw [hbound, hzero, Nat.zero_add]; simpa using hj.ne') hscript hbytes
  rw [hzero, Nat.zero_add] at hcnt
  have hlast := step_waitingReady hinv hr' hq'
  rw [pollTurn_bound (by rw [hpar, hbound, hcnt])] at hlast
  have hall := hrun.trans (.of_quiet_step hlast rfl)
  rw [List.append_nil] at hall
  exact ⟨_, hall.run, ⟨rfl, rfl, rfl, rfl, rfl⟩, hidx, hcnt, hall.chainsSince rfl⟩

/-! ### WRITE_ARRAY of a device ready at every first poll -/

/-- The two chains of the word with index `i` (R199, R200). -/
def wordWriteChains (s : State) (i : Nat) : List Chain :=
  [writeChain (i * wordSize s) (readBytes s.img (i * wordSize s) (wordSize s)) s, chainR]

theorem wordWriteChains_congr {s t : State} (hcfg : t.cfg = s.cfg) (hpar : t.par = s.par) (himg : t.img = s.img) :
    wordWriteChains t = wordWriteChains s := by
  funext i
  simp only [wordWriteChains, writeChain, writeHdr, wordSize, hcfg, hpar, himg]

theorem wordCount_congr {s t : State} (hcfg : t.cfg = s.cfg) : wordCount t = wordCount s := by
  simp only [wordCount, wordSize, hcfg]

/-- The state in which a word that was sent waits for its first poll (R199). -/
def wordWaiting (s : State) : State :=
  goto .waitingReady (setPollCnt 0 (headerSent (writeHdr (s.w.idx * wordSize s) s)
    (writeChain (s.w.idx * wordSize s) (wordBytes s) s) (atWord s)))

theorem wordWaiting_w (s : State) : (wordWaiting s).w.idx = s.w.idx ∧ (wordWaiting s).w.pollCnt = 0 := by
  simp [wordWaiting, headerSent, atWord]

/-- What a word leaves once it is written and acknowledged: all but `W.IDX`, which counts it, and the two answers used
up. -/
structure WordWritten (s t : State) : Prop where
  cfg : t.cfg = s.cfg
  par : t.par = s.par
  resetIn : t.resetIn = s.resetIn
  img : t.img = s.img
  imgLen : t.imgLen = s.imgLen
  imgValid : t.st.imgValid = s.st.imgValid
  idx : t.w.idx = s.w.idx + 1
  script : t.script = s.script.tail.tail

theorem wordWritten_wordDone (s : State) : WordWritten s (wordDone (polled readyByte (wordWaiting s))) := by
  obtain ⟨-, hcfg, hlen, hpar, hreset, -, hscript, himg⟩ := wordDone_keeps (polled readyByte (wordWaiting s))
  obtain ⟨-, hidx, -⟩ := wordDone_w (polled readyByte (wordWaiting s))
  refine ⟨hcfg.trans ?_, hpar.trans ?_, hreset.trans ?_, himg.trans ?_, hlen.trans ?_,
    (wordDone_imgValid _).trans ?_, hidx.trans ?_, hscript.trans ?_⟩ <;>
    simp [polled, wordWaiting, headerSent, atWord]

/-- The end of a word: the next word, or the end of the command after the last one. -/
theorem wordDone_next (u : State) :
    (u.w.idx + 1 < wordCount u → (wordDone u).orchState = .writing) ∧
      (wordCount u ≤ u.w.idx + 1 → u.st.cond = .none → EndedWell (wordDone u)) := by
  refine ⟨fun hmore => ?_, fun hlast hcond => ?_⟩
  · rw [wordDone_more hmore, goto_orchState]
  · rw [wordDone_last hlast]
    exact finish_endedWell hcond

/-- One word: its WRITE, and one STATUS that answers `0xFF`. -/
theorem writing_word_runs {rest : List BusAnswer} {s : State} (hs : s.Inv) (hr : s.resetIn = false)
    (hq : s.orchState = .writing) (hm : s.par.maxXfer = none) (hbound : s.par.pollMax ≠ some 0)
    (hscript : s.script = .ok [] :: .ok [0xFF] :: rest) :
    ∃ t, RunsTo 2 (wordWriteChains s s.w.idx) s t ∧ t.Inv ∧ WordWritten s t ∧
      (s.w.idx + 1 < wordCount s → t.orchState = .writing) ∧ (wordCount s ≤ s.w.idx + 1 → EndedWell t) := by
  obtain ⟨hb, -⟩ := (orchLegal_writing hq).1 hs.orch
  obtain ⟨hidx, hcnt⟩ := wordWaiting_w s
  have hsend : step s = .next (wordWaiting s) := step_writing_ok hs hr hq (answerTo_script hscript rfl hm)
  have hinv := stepKeepsTheInvariant _ _ hs hsend
  have hans : answerTo chainR (wordWaiting s) = .ok [0xFF] := answerTo_status (congrArg List.tail hscript) hm
  have hpoll := step_waiting_acknowledged hinv hr rfl (hcnt ▸ hbound) hans
  obtain ⟨-, -, -, -, -, hlog, -⟩ := wordDone_keeps (polled readyByte (wordWaiting s))
  obtain ⟨hmore, hlast⟩ := wordDone_next (polled readyByte (wordWaiting s))
  have hidx' : (polled readyByte (wordWaiting s)).w.idx = s.w.idx := hidx
  have hcount : wordCount (polled readyByte (wordWaiting s)) = wordCount s := wordCount_congr rfl
  rw [hidx', hcount] at hmore hlast
  exact ⟨_, (RunsTo.of_step hsend rfl).trans (.of_step hpoll hlog), stepKeepsTheInvariant _ _ hinv hpoll,
    wordWritten_wordDone s, hmore, fun h => hlast h (hs.busyClear hb).2⟩

/-- From word `k` on, WRITE_ARRAY sends the remaining words in order and ends (R199, R200, R203). -/
theorem writing_runs {n : Nat} {rest : List BusAnswer} {s : State} (hs : s.Inv) (hr : s.resetIn = false)
    (hq : s.orchState = .writing) (hm : s.par.maxXfer = none) (hbound : s.par.pollMax ≠ some 0)
    (hscript : s.script = (List.replicate n [BusAnswer.ok [], .ok [0xFF]]).flatten ++ rest)
    (hcount : s.w.idx + n = wordCount s) :
    ∃ u, RunsTo (2 * n) ((List.range' s.w.idx n).flatMap (wordWriteChains s)) s u ∧ EndedWell u ∧
      u.w.idx = wordCount s ∧ u.img = s.img ∧ u.imgLen = s.imgLen ∧ u.st.imgValid = s.st.imgValid ∧
      u.script = rest := by
  induction n generalizing s with
  | zero =>
    obtain ⟨-, -, -, -, hidx, -⟩ := (orchLegal_writing hq).1 hs.orch
    omega
  | succ n ih =>
    obtain ⟨t, hrun, hinv, hwritten, hmore, hlast⟩ := writing_word_runs hs hr hq hm hbound hscript
    have hscript' : t.script = (List.replicate n [BusAnswer.ok [], .ok [0xFF]]).flatten ++ rest := by
      rw [hwritten.script, hscript]
      rfl
    cases n with
    | zero =>
      refine ⟨t, ?_, hlast (by omega), hwritten.idx.trans hcount, hwritten.img, hwritten.imgLen, hwritten.imgValid,
        hscript'⟩
      simpa using hrun
    | succ n =>
      have hcount' : t.w.idx + (n + 1) = wordCount t := by
        rw [hwritten.idx, wordCount_congr hwritten.cfg]
        omega
      obtain ⟨u, hrun', hended, hidx, himg, hlen, hvalid, hscript''⟩ := ih hinv (hwritten.resetIn.trans hr)
        (hmore (by omega)) (hwritten.par ▸ hm) (hwritten.par ▸ hbound) hscript' hcount'
      rw [wordWriteChains_congr hwritten.cfg hwritten.par hwritten.img, hwritten.idx] at hrun'
      refine ⟨u, ?_, hended, hidx.trans (wordCount_congr hwritten.cfg), himg.trans hwritten.img,
        hlen.trans hwritten.imgLen, hvalid.trans hwritten.imgValid, hscript''⟩
      rw [Nat.mul_succ, Nat.add_comm, List.range'_succ, List.flatMap_cons]
      exact hrun.trans hrun'

/-- Settles O46: EWEN, then the words from word 0 on. -/
theorem writeArrayWithReadyDevice : Obligations.WriteArrayWithReadyDevice := by
  intro s rest hs hr hb hf hw hl hm hbound hscript
  have hexec := exec_writeArray_starts hb hf hw hl
  have hinv := (exec_accepted hb hexec).inv hs hb
  have henable := step_enabling_write hinv hr rfl rfl (rx := []) (answerTo_script hscript rfl hm)
  obtain ⟨u, hrun, hended, hidx, himg, hlen, hvalid, hscript'⟩ := writing_runs (n := wordCount s)
    (stepKeepsTheInvariant _ _ hinv henable) hr rfl hm hbound (congrArg List.tail hscript) (Nat.zero_add _)
  have hall := (RunsTo.of_step henable rfl).trans hrun
  refine ⟨_, u, hexec, hall.run, hended, hidx, ?image, hvalid, hscript', ?chains⟩
  case image => rw [image, image, himg, hlen]; rfl
  case chains =>
    simp only [← specialChain_control (hs.aEff_range hf).1, ← writeHdr_eq, List.range_eq_range']
    exact hall.chainsSince rfl

/-- Settles O49: two answered chains, and no poll where `ERASE_POLL` is false. -/
theorem eraseArrayEndsAfterTwoChains : Obligations.EraseArrayEndsAfterTwoChains := by
  intro s rest hs hr hb hf hm hpoll hscript
  have hexec := exec_eraseArray_starts hb hf
  have hinv := (exec_accepted hb hexec).inv hs hb
  obtain ⟨-, -, -, hlatch⟩ := (orchLegal_idle (hs.idle hb)).1 hs.orch
  have henable := step_enabling_erase hinv hr rfl rfl (rx := []) (answerTo_script hscript rfl hm)
  have herase := step_erasing_ok (stepKeepsTheInvariant _ _ hinv henable) hr rfl hlatch (rx := [])
    (answerTo_script (congrArg List.tail hscript) rfl hm)
  rw [if_neg (by show ¬ s.par.erasePoll = true; simp [hpoll])] at herase
  have hall := (RunsTo.of_step henable rfl).trans (.of_step herase rfl)
  refine ⟨_, _, hexec, hall.run, finish_endedWell rfl, rfl, rfl, rfl, ?chains⟩
  simp only [← specialChain_control (hs.aEff_range hf).1]
  exact hall.chainsSince rfl

end Sys2Proof.Machine
end
